-- ==== Sys2Proof/Word.lean ====
section
/-! DEFINITION. The words of the AT execution block: bytes, 64-bit slot values, 32-bit registers, and
the widths of the operand fields (00_scope.md R6, 30_encoding.md R71). -/

namespace Sys2Proof

/-- A byte of the Code Segment, the Data Segment or a snapshot. -/
abbrev Byte := BitVec 8

/-- A slot, a stack entry or an A/B register: 64 bits, read as signed (`XLEN`, R6). -/
abbrev Word := BitVec 64

/-- `pc`, `pcs`, `pce`, `cs`, `us`, `steps`: 32 bits, read as signed (`PCLEN`, R6). -/
abbrev Reg32 := BitVec 32

/-- Field kind `SA`: a slot address, read as `sext_32` (R71). -/
abbrev SlotAddr := BitVec 32

/-- Field kind `CA`: an absolute code address, read as `sext_32` (R71). -/
abbrev CodeAddr := BitVec 32

/-- Field kind `IMM`: a 64-bit immediate (R71). -/
abbrev Imm := BitVec 64

/-- Field kind `DISP`: a signed branch displacement (R71). -/
abbrev Disp := BitVec 8

/-- Field kind `FN`: an unsigned function number (R71). -/
abbrev FnNum := BitVec 16

/-- `wrap64` of R8: the signed 64-bit value with the same low 64 bits. -/
def wrap64 (v : Int) : Word := BitVec.ofInt 64 v

end Sys2Proof
end

