-- ==== Sys2Proof/Config.lean ====
section
/-! DEFINITION. What is fixed for one machine (00_scope.md R5, R6) and the free values: what the spec
leaves open and no proof can see. The other free value, `Config.hostDraw`, stands in Machine/HostPort.lean,
after the types it is a function of. -/

namespace Sys2Proof.Config

/-- Bytes in a page of the Code Segment and of the data slots (R5). -/
def slotPageBytes : Nat := 512

/-- Bytes in a page of either stack (R5). -/
def stackPageBytes : Nat := 256

/-- `MAX_SLOT`, the largest slot index the checker accepts (R6). -/
def maxSlot : Int := 0x1FFFFFFF

/-- Bounds on the page counts (R6, decision D30). -/
def maxCodePages : Nat := 4194303
def maxDataPages : Nat := 8388608
def maxStackPages : Nat := 67108863

/-- The page counts of `State.reset`: code, data, call stack, user stack.
DESIGN CHOICE (log entry 1), unsafe: the counts are OPEN parameters of the spec (R6); these are the ones
of its test harness, `init(1, 1, 1, 1)`. -/
def resetCodePages : Nat := 1
def resetDataPages : Nat := 1
def resetCsPages : Nat := 1
def resetUsPages : Nat := 1

/-- FREE VALUE (log entry 5), safe: whether the call with this number of arguments and this function
number is, for this `incr_fn`, the "increment function's balance-query variant" of 45_external.md R232,
a term the spec leaves as an open parameter. -/
opaque isBalanceQueryVariant : Nat → BitVec 16 → BitVec 32 → Bool

end Sys2Proof.Config
end

