-- ==== Sys2Proof/Machine/Memory.lean ====
section
/-! DEFINITION. Byte memory in canonical form, little-endian access, and the slot-bounds check
(20_memory.md R43 to R47). -/

namespace Sys2Proof.Machine

/-- The contents of a segment: the bytes that differ from 0x00, at strictly rising offsets. -/
structure Memory where
  cells : List Host.Cell
  deriving DecidableEq, Repr

/-- What an unlisted byte reads as: `init` sets every byte of both segments to 0x00
(70_reset_and_hazards.md R340). -/
def unlisted : Byte := 0

/-- A segment of zeros. -/
def zeroMemory : Memory := ⟨[]⟩

/-- The byte listed at an offset, if one is. -/
def cellAt : List Host.Cell → Nat → Byte
  | [], _ => unlisted
  | (k, b) :: rest, off => if k = off then b else cellAt rest off

/-- Put a listed byte at an offset, keeping the offsets rising. -/
def putCell (off : Nat) (b : Byte) : List Host.Cell → List Host.Cell
  | [] => [(off, b)]
  | (k, c) :: rest =>
    if k < off then (k, c) :: putCell off b rest
    else if k = off then (off, b) :: rest
    else (off, b) :: (k, c) :: rest

/-- One byte of a segment. -/
def Memory.read (m : Memory) (off : Nat) : Byte := cellAt m.cells off

/-- Write one byte; writing what an unlisted byte reads as removes the entry. -/
def Memory.write (m : Memory) (off : Nat) (b : Byte) : Memory :=
  if b = unlisted then ⟨m.cells.filter (fun c => c.1 ≠ off)⟩ else ⟨putCell off b m.cells⟩

/-- Every offset listed is at least `lo`, offsets rise strictly, and no byte listed is the unlisted one. -/
def cellsWf (lo : Nat) : List Host.Cell → Bool
  | [] => true
  | (k, b) :: rest => decide (lo ≤ k) && decide (b ≠ unlisted) && cellsWf (k + 1) rest

/-- The canonical form. -/
def Memory.wf (m : Memory) : Bool := cellsWf 0 m.cells

/-- Nothing is listed at or past `size`: the memory lies inside a segment of that size. -/
def Memory.within (m : Memory) (size : Nat) : Bool := m.cells.all (fun c => decide (c.1 < size))

/-- Drop everything at or past `size` (a Code Segment that shrinks, 20_memory.md R61). -/
def Memory.truncate (m : Memory) (size : Nat) : Memory :=
  ⟨m.cells.filter (fun c => c.1 < size)⟩

/-- `n` bytes from `off`, assembled little-endian (R43, R44). -/
def Memory.readLE (m : Memory) (off : Nat) : Nat → Nat
  | 0 => 0
  | n + 1 => (m.read off).toNat + 256 * m.readLE (off + 1) n

/-- The low `n` bytes of a number, least significant first (R43). -/
def bytesLE : Nat → Nat → List Byte
  | 0, _ => []
  | n + 1, v => BitVec.ofNat 8 v :: bytesLE n (v / 256)

/-- Store bytes at rising offsets from `off`. -/
def Memory.writeBytes (m : Memory) (off : Nat) : List Byte → Memory
  | [] => m
  | b :: bs => (m.write off b).writeBytes (off + 1) bs

/-- The first `n` bytes from `off`, in offset order. -/
def Memory.readBytes (m : Memory) (off : Nat) : Nat → List Byte
  | 0 => []
  | n + 1 => m.read off :: m.readBytes (off + 1) n

/-- The 64-bit word at a byte offset (R45). -/
def Memory.word (m : Memory) (off : Nat) : Word := BitVec.ofNat 64 (m.readLE off 8)

/-- Store a 64-bit word at a byte offset (R45). -/
def Memory.setWord (m : Memory) (off : Nat) (v : Word) : Memory :=
  m.writeBytes off (bytesLE 8 v.toNat)

/-- `slot_ok(a)` (R46), for a data-slot region of `dataSize` bytes and any mathematical integer `a`. -/
abbrev SlotOk (dataSize : Nat) (a : Int) : Prop :=
  0 ≤ a ∧ a ≤ Config.maxSlot ∧ a * 8 + 8 ≤ (dataSize : Int)

end Sys2Proof.Machine
end

