-- ==== Sys2Proof/Syntax.lean ====
section
/-! DEFINITION. The syntax of AT machine code: the three fault kinds, the 48 mnemonics, the 13 formats
and the decoded instruction (30_encoding.md R72, R80, R87; 60_exceptions.md R310). -/

namespace Sys2Proof

/-- The three faults a step can raise (60_exceptions.md R310). -/
inductive FaultKind where
  | overflow             -- bounds, stack or address violation
  | invalidOp            -- unknown opcode, bad jump target, zero divisor
  | invalidErrorHandler  -- ERR_ADR target is no Jump Table member
  deriving DecidableEq, Repr

/-- The 13 instruction formats (30_encoding.md R72). -/
inductive Format where
  | R | N | A | C | AV | AA | AAA | AD | AAD | F | FA | FAA | FAAA
  deriving DecidableEq, Repr

/-- The 48 mnemonics, in the order of the spec's opcode-family table (30_encoding.md R80). -/
inductive Mnemonic where
  | nop | setVal | setDat | clrDat | incDat | decDat | notDat | addDat
  | subDat | mulDat | divDat | modDat | borDat | andDat | xorDat | shlDat
  | shrDat | setInd | setIdx | indDat | idxDat | pshDat | popDat | jmpSub
  | retSub | jmpAdr | bzrDat | bnzDat | bgtDat | bltDat | bgeDat | bleDat
  | beqDat | bneDat | slpDat | slpImd | fizDat | finImd | stzDat | stpImd
  | errAdr | setPcs | extFun | extFunDat | extFunDat2 | extFunRet | extFunRetDat | extFunRetDat2
  deriving DecidableEq, Repr

/-- A decoded instruction: one constructor per row of spec/opcode_table.json, carrying exactly the
fields of its format as the bits the encoding gives them (R87). `NOP` carries the length of its run. -/
inductive Instr where
  | nop (n : Nat)  -- NOP, format R, R100
  | setVal (a1 : SlotAddr) (v : Imm)  -- SET_VAL, format AV, R101
  | setDat (a1 a2 : SlotAddr)  -- SET_DAT, format AA, R102
  | clrDat (a1 : SlotAddr)  -- CLR_DAT, format A, R103
  | incDat (a1 : SlotAddr)  -- INC_DAT, format A, R104
  | decDat (a1 : SlotAddr)  -- DEC_DAT, format A, R105
  | notDat (a1 : SlotAddr)  -- NOT_DAT, format A, R106
  | addDat (a1 a2 : SlotAddr)  -- ADD_DAT, format AA, R121
  | subDat (a1 a2 : SlotAddr)  -- SUB_DAT, format AA, R122
  | mulDat (a1 a2 : SlotAddr)  -- MUL_DAT, format AA, R123
  | divDat (a1 a2 : SlotAddr)  -- DIV_DAT, format AA, R124
  | modDat (a1 a2 : SlotAddr)  -- MOD_DAT, format AA, R125
  | borDat (a1 a2 : SlotAddr)  -- BOR_DAT, format AA, R126
  | andDat (a1 a2 : SlotAddr)  -- AND_DAT, format AA, R127
  | xorDat (a1 a2 : SlotAddr)  -- XOR_DAT, format AA, R128
  | shlDat (a1 a2 : SlotAddr)  -- SHL_DAT, format AA, R129
  | shrDat (a1 a2 : SlotAddr)  -- SHR_DAT, format AA, R130
  | setInd (a1 a2 : SlotAddr)  -- SET_IND, format AA, R140
  | setIdx (a1 a2 a3 : SlotAddr)  -- SET_IDX, format AAA, R141
  | indDat (a1 a2 : SlotAddr)  -- IND_DAT, format AA, R142
  | idxDat (a1 a2 a3 : SlotAddr)  -- IDX_DAT, format AAA, R143
  | pshDat (a1 : SlotAddr)  -- PSH_DAT, format A, R145
  | popDat (a1 : SlotAddr)  -- POP_DAT, format A, R146
  | jmpSub (c : CodeAddr)  -- JMP_SUB, format C, R161
  | retSub  -- RET_SUB, format N, R162
  | jmpAdr (c : CodeAddr)  -- JMP_ADR, format C, R163
  | bzrDat (a1 : SlotAddr) (d : Disp)  -- BZR_DAT, format AD, R164
  | bnzDat (a1 : SlotAddr) (d : Disp)  -- BNZ_DAT, format AD, R165
  | bgtDat (a1 a2 : SlotAddr) (d : Disp)  -- BGT_DAT, format AAD, R166
  | bltDat (a1 a2 : SlotAddr) (d : Disp)  -- BLT_DAT, format AAD, R167
  | bgeDat (a1 a2 : SlotAddr) (d : Disp)  -- BGE_DAT, format AAD, R168
  | bleDat (a1 a2 : SlotAddr) (d : Disp)  -- BLE_DAT, format AAD, R169
  | beqDat (a1 a2 : SlotAddr) (d : Disp)  -- BEQ_DAT, format AAD, R170
  | bneDat (a1 a2 : SlotAddr) (d : Disp)  -- BNE_DAT, format AAD, R171
  | slpDat (a1 : SlotAddr)  -- SLP_DAT, format A, R190
  | slpImd  -- SLP_IMD, format N, R191
  | fizDat (a1 : SlotAddr)  -- FIZ_DAT, format A, R194
  | finImd  -- FIN_IMD, format N, R195
  | stzDat (a1 : SlotAddr)  -- STZ_DAT, format A, R196
  | stpImd  -- STP_IMD, format N, R197
  | errAdr (c : CodeAddr)  -- ERR_ADR, format C, R198
  | setPcs  -- SET_PCS, format N, R199
  | extFun (f : FnNum)  -- EXT_FUN, format F, R223
  | extFunDat (f : FnNum) (a1 : SlotAddr)  -- EXT_FUN_DAT, format FA, R224
  | extFunDat2 (f : FnNum) (a1 a2 : SlotAddr)  -- EXT_FUN_DAT_2, format FAA, R225
  | extFunRet (f : FnNum) (a1 : SlotAddr)  -- EXT_FUN_RET, format FA, R226
  | extFunRetDat (f : FnNum) (a1 a2 : SlotAddr)  -- EXT_FUN_RET_DAT, format FAA, R227
  | extFunRetDat2 (f : FnNum) (a1 a2 a3 : SlotAddr)  -- EXT_FUN_RET_DAT_2, format FAAA, R228
  deriving DecidableEq, Repr

/-- The mnemonic of a decoded instruction. -/
def Instr.mnemonic : Instr → Mnemonic
  | .nop _ => .nop
  | .setVal _ _ => .setVal
  | .setDat _ _ => .setDat
  | .clrDat _ => .clrDat
  | .incDat _ => .incDat
  | .decDat _ => .decDat
  | .notDat _ => .notDat
  | .addDat _ _ => .addDat
  | .subDat _ _ => .subDat
  | .mulDat _ _ => .mulDat
  | .divDat _ _ => .divDat
  | .modDat _ _ => .modDat
  | .borDat _ _ => .borDat
  | .andDat _ _ => .andDat
  | .xorDat _ _ => .xorDat
  | .shlDat _ _ => .shlDat
  | .shrDat _ _ => .shrDat
  | .setInd _ _ => .setInd
  | .setIdx _ _ _ => .setIdx
  | .indDat _ _ => .indDat
  | .idxDat _ _ _ => .idxDat
  | .pshDat _ => .pshDat
  | .popDat _ => .popDat
  | .jmpSub _ => .jmpSub
  | .retSub => .retSub
  | .jmpAdr _ => .jmpAdr
  | .bzrDat _ _ => .bzrDat
  | .bnzDat _ _ => .bnzDat
  | .bgtDat _ _ _ => .bgtDat
  | .bltDat _ _ _ => .bltDat
  | .bgeDat _ _ _ => .bgeDat
  | .bleDat _ _ _ => .bleDat
  | .beqDat _ _ _ => .beqDat
  | .bneDat _ _ _ => .bneDat
  | .slpDat _ => .slpDat
  | .slpImd => .slpImd
  | .fizDat _ => .fizDat
  | .finImd => .finImd
  | .stzDat _ => .stzDat
  | .stpImd => .stpImd
  | .errAdr _ => .errAdr
  | .setPcs => .setPcs
  | .extFun _ => .extFun
  | .extFunDat _ _ => .extFunDat
  | .extFunDat2 _ _ _ => .extFunDat2
  | .extFunRet _ _ => .extFunRet
  | .extFunRetDat _ _ _ => .extFunRetDat
  | .extFunRetDat2 _ _ _ _ => .extFunRetDat2

/-- Every mnemonic once (30_encoding.md R80). -/
def Mnemonic.all : List Mnemonic :=
  [.nop, .setVal, .setDat, .clrDat, .incDat, .decDat, .notDat, .addDat, .subDat, .mulDat, .divDat, .modDat] ++
  [.borDat, .andDat, .xorDat, .shlDat, .shrDat, .setInd, .setIdx, .indDat, .idxDat, .pshDat, .popDat, .jmpSub] ++
  [.retSub, .jmpAdr, .bzrDat, .bnzDat, .bgtDat, .bltDat, .bgeDat, .bleDat, .beqDat, .bneDat, .slpDat, .slpImd] ++
  [.fizDat, .finImd, .stzDat, .stpImd, .errAdr, .setPcs, .extFun, .extFunDat, .extFunDat2, .extFunRet, .extFunRetDat, .extFunRetDat2]

end Sys2Proof
end

