-- ==== Sys2Proof/WellFormed.lean ====
section
/-! DEFINITION. Well-formedness of a decoded instruction: every slot address passes `slot_ok`, and a
`NOP` run has at least one byte (30_encoding.md R87). Every other field value is legal (R82). -/

namespace Sys2Proof

/-- The slot addresses an instruction carries, in encoding order. -/
def Instr.slots : Instr → List SlotAddr
  | .nop _ => []
  | .setVal a1 _ => [a1]
  | .setDat a1 a2 => [a1, a2]
  | .clrDat a1 => [a1]
  | .incDat a1 => [a1]
  | .decDat a1 => [a1]
  | .notDat a1 => [a1]
  | .addDat a1 a2 => [a1, a2]
  | .subDat a1 a2 => [a1, a2]
  | .mulDat a1 a2 => [a1, a2]
  | .divDat a1 a2 => [a1, a2]
  | .modDat a1 a2 => [a1, a2]
  | .borDat a1 a2 => [a1, a2]
  | .andDat a1 a2 => [a1, a2]
  | .xorDat a1 a2 => [a1, a2]
  | .shlDat a1 a2 => [a1, a2]
  | .shrDat a1 a2 => [a1, a2]
  | .setInd a1 a2 => [a1, a2]
  | .setIdx a1 a2 a3 => [a1, a2, a3]
  | .indDat a1 a2 => [a1, a2]
  | .idxDat a1 a2 a3 => [a1, a2, a3]
  | .pshDat a1 => [a1]
  | .popDat a1 => [a1]
  | .jmpSub _ => []
  | .retSub => []
  | .jmpAdr _ => []
  | .bzrDat a1 _ => [a1]
  | .bnzDat a1 _ => [a1]
  | .bgtDat a1 a2 _ => [a1, a2]
  | .bltDat a1 a2 _ => [a1, a2]
  | .bgeDat a1 a2 _ => [a1, a2]
  | .bleDat a1 a2 _ => [a1, a2]
  | .beqDat a1 a2 _ => [a1, a2]
  | .bneDat a1 a2 _ => [a1, a2]
  | .slpDat a1 => [a1]
  | .slpImd => []
  | .fizDat a1 => [a1]
  | .finImd => []
  | .stzDat a1 => [a1]
  | .stpImd => []
  | .errAdr _ => []
  | .setPcs => []
  | .extFun _ => []
  | .extFunDat _ a1 => [a1]
  | .extFunDat2 _ a1 a2 => [a1, a2]
  | .extFunRet _ a1 => [a1]
  | .extFunRetDat _ a1 a2 => [a1, a2]
  | .extFunRetDat2 _ a1 a2 a3 => [a1, a2, a3]

/-- The run length of a `NOP` is at least 1 (R73); other instructions carry no run. -/
def Instr.runOk : Instr → Bool
  | .nop n => decide (1 ≤ n)
  | .setVal _ _ => true
  | .setDat _ _ => true
  | .clrDat _ => true
  | .incDat _ => true
  | .decDat _ => true
  | .notDat _ => true
  | .addDat _ _ => true
  | .subDat _ _ => true
  | .mulDat _ _ => true
  | .divDat _ _ => true
  | .modDat _ _ => true
  | .borDat _ _ => true
  | .andDat _ _ => true
  | .xorDat _ _ => true
  | .shlDat _ _ => true
  | .shrDat _ _ => true
  | .setInd _ _ => true
  | .setIdx _ _ _ => true
  | .indDat _ _ => true
  | .idxDat _ _ _ => true
  | .pshDat _ => true
  | .popDat _ => true
  | .jmpSub _ => true
  | .retSub => true
  | .jmpAdr _ => true
  | .bzrDat _ _ => true
  | .bnzDat _ _ => true
  | .bgtDat _ _ _ => true
  | .bltDat _ _ _ => true
  | .bgeDat _ _ _ => true
  | .bleDat _ _ _ => true
  | .beqDat _ _ _ => true
  | .bneDat _ _ _ => true
  | .slpDat _ => true
  | .slpImd => true
  | .fizDat _ => true
  | .finImd => true
  | .stzDat _ => true
  | .stpImd => true
  | .errAdr _ => true
  | .setPcs => true
  | .extFun _ => true
  | .extFunDat _ _ => true
  | .extFunDat2 _ _ _ => true
  | .extFunRet _ _ => true
  | .extFunRetDat _ _ _ => true
  | .extFunRetDat2 _ _ _ _ => true

/-- What the decoder guarantees of every instruction it returns, for a data-slot region of `dataSize`
bytes (R87). -/
def Instr.wf (dataSize : Nat) (i : Instr) : Bool :=
  i.runOk && i.slots.all (fun a => decide (Machine.SlotOk dataSize a.toInt))

end Sys2Proof
end

