-- ==== Sys2Proof/Decode.lean ====
section
/-! DEFINITION. The operand decoder and the encoder (30_encoding.md R70 to R87). -/

namespace Sys2Proof

/-- The default instance of the parameter `OPC` (R81). Three bytes are the source's own; the other 45
follow the published numbering the spec takes as its default.
PRESUMED (log entry 2), unsafe: the spec marks those 45 as general knowledge. -/
def opcDefault : Mnemonic → Byte
  | .nop => 0x7f
  | .setVal => 0x01
  | .setDat => 0x02
  | .clrDat => 0x03
  | .incDat => 0x04
  | .decDat => 0x05
  | .notDat => 0x0d
  | .addDat => 0x06
  | .subDat => 0x07
  | .mulDat => 0x08
  | .divDat => 0x09
  | .modDat => 0x16
  | .borDat => 0x0a
  | .andDat => 0x0b
  | .xorDat => 0x0c
  | .shlDat => 0x17
  | .shrDat => 0x18
  | .setInd => 0x0e
  | .setIdx => 0x0f
  | .indDat => 0x14
  | .idxDat => 0x15
  | .pshDat => 0x10
  | .popDat => 0x11
  | .jmpSub => 0x12
  | .retSub => 0x13
  | .jmpAdr => 0x1a
  | .bzrDat => 0x1b
  | .bnzDat => 0x1e
  | .bgtDat => 0x1f
  | .bltDat => 0x20
  | .bgeDat => 0x21
  | .bleDat => 0x22
  | .beqDat => 0x23
  | .bneDat => 0x24
  | .slpDat => 0x25
  | .slpImd => 0x2a
  | .fizDat => 0x26
  | .finImd => 0x28
  | .stzDat => 0x27
  | .stpImd => 0x29
  | .errAdr => 0x2b
  | .setPcs => 0x30
  | .extFun => 0x32
  | .extFunDat => 0x33
  | .extFunDat2 => 0x34
  | .extFunRet => 0x35
  | .extFunRetDat => 0x36
  | .extFunRetDat2 => 0x37

/-- What R81 requires of an instance of `OPC`: it is injective and agrees with the three bytes the source
fixes. -/
structure OpcOk (opc : Mnemonic → Byte) : Prop where
  injective : Function.Injective opc
  setVal : opc .setVal = 0x01
  extFunDat : opc .extFunDat = 0x33
  finImd : opc .finImd = 0x28

/-- The format of each mnemonic (R80). -/
def formatOf : Mnemonic → Format
  | .nop => .R
  | .setVal => .AV
  | .setDat => .AA
  | .clrDat => .A
  | .incDat => .A
  | .decDat => .A
  | .notDat => .A
  | .addDat => .AA
  | .subDat => .AA
  | .mulDat => .AA
  | .divDat => .AA
  | .modDat => .AA
  | .borDat => .AA
  | .andDat => .AA
  | .xorDat => .AA
  | .shlDat => .AA
  | .shrDat => .AA
  | .setInd => .AA
  | .setIdx => .AAA
  | .indDat => .AA
  | .idxDat => .AAA
  | .pshDat => .A
  | .popDat => .A
  | .jmpSub => .C
  | .retSub => .N
  | .jmpAdr => .C
  | .bzrDat => .AD
  | .bnzDat => .AD
  | .bgtDat => .AAD
  | .bltDat => .AAD
  | .bgeDat => .AAD
  | .bleDat => .AAD
  | .beqDat => .AAD
  | .bneDat => .AAD
  | .slpDat => .A
  | .slpImd => .N
  | .fizDat => .A
  | .finImd => .N
  | .stzDat => .A
  | .stpImd => .N
  | .errAdr => .C
  | .setPcs => .N
  | .extFun => .F
  | .extFunDat => .FA
  | .extFunDat2 => .FAA
  | .extFunRet => .FA
  | .extFunRetDat => .FAA
  | .extFunRetDat2 => .FAAA

/-- The encoded length in bytes of each format; `R` has the length of its run (R72, R74). -/
def Format.bytes : Format → Nat
  | .R => 1
  | .N => 1
  | .A => 5
  | .C => 5
  | .AV => 13
  | .AA => 9
  | .AAA => 13
  | .AD => 6
  | .AAD => 10
  | .F => 3
  | .FA => 7
  | .FAA => 11
  | .FAAA => 15

/-- `len` of a decoded instruction (R74). -/
def Instr.len (i : Instr) : Nat :=
  match i with
  | .nop n => n
  | _ => (formatOf i.mnemonic).bytes

/-- What `decode` reads: the Code Segment and the two sizes (R77). -/
structure CodeView where
  code : Machine.Memory
  codeSize : Nat
  dataSize : Nat
  deriving DecidableEq, Repr

/-- The mnemonic whose opcode is `op`, if there is one (R76, R82). -/
def mnemonicOf (opc : Mnemonic → Byte) (op : Byte) : Option Mnemonic :=
  Mnemonic.all.find? (fun m => opc m = op)

/-- The mnemonic found for a byte has that byte as its opcode (R76). -/
theorem mnemonicOf_some {opc : Mnemonic → Byte} {b : Byte} {m : Mnemonic} (h : mnemonicOf opc b = some m) :
    opc m = b := by
  simpa using List.find?_some h

/-- The default map is an instance of `OPC`: the mnemonic can be found again from its byte. -/
theorem opcDefault_ok : OpcOk opcDefault where
  injective := fun m n h => by
    have back : ∀ k, mnemonicOf opcDefault (opcDefault k) = some k := by
      intro k; cases k <;> decide
    exact Option.some.inj ((back m).symm.trans (h ▸ back n))
  setVal := rfl
  extFunDat := rfl
  finImd := rfl

/-- `n` bytes at `q`, or OVERFLOW if they would read past the end of the Code Segment (R76). -/
def fieldRaw (v : CodeView) (q n : Nat) : Except FaultKind Nat :=
  if q + n ≤ v.codeSize then .ok (v.code.readLE q n) else .error .overflow

/-- A slot-address field: it must fit and pass `slot_ok` (R71, R76). -/
def fieldSA (v : CodeView) (q : Nat) : Except FaultKind SlotAddr := do
  let raw ← fieldRaw v q 4
  if Machine.SlotOk v.dataSize (BitVec.ofNat 32 raw).toInt then .ok (BitVec.ofNat 32 raw)
  else .error .overflow

/-- A code-address field: it must fit; its value is checked only at execution (R71, R76). -/
def fieldCA (v : CodeView) (q : Nat) : Except FaultKind CodeAddr := do
  let raw ← fieldRaw v q 4
  .ok (BitVec.ofNat 32 raw)

/-- An immediate field (R71). -/
def fieldImm (v : CodeView) (q : Nat) : Except FaultKind Imm := do
  let raw ← fieldRaw v q 8
  .ok (BitVec.ofNat 64 raw)

/-- A branch displacement (R71). -/
def fieldDisp (v : CodeView) (q : Nat) : Except FaultKind Disp := do
  let raw ← fieldRaw v q 1
  .ok (BitVec.ofNat 8 raw)

/-- A function number (R71). -/
def fieldFn (v : CodeView) (q : Nat) : Except FaultKind FnNum := do
  let raw ← fieldRaw v q 2
  .ok (BitVec.ofNat 16 raw)

/-- The number of consecutive bytes from `q` that equal `b`, looking at no more than `room` (R73). -/
def runLength (code : Machine.Memory) (b : Byte) (q : Nat) : Nat → Nat
  | 0 => 0
  | room + 1 => if code.read q = b then runLength code b (q + 1) room + 1 else 0

/-- Format `A` (R72): single slot address, 5 bytes. -/
def decodeA (k : SlotAddr → Instr) (v : CodeView) (q : Nat) : Except FaultKind (Instr × Nat) := do
  let a1 ← fieldSA v (q + 1)
  .ok (k a1, 5)

/-- Format `C` (R72): code address, 5 bytes. -/
def decodeC (k : CodeAddr → Instr) (v : CodeView) (q : Nat) : Except FaultKind (Instr × Nat) := do
  let c ← fieldCA v (q + 1)
  .ok (k c, 5)

/-- Format `AV` (R72): address and immediate, 13 bytes. -/
def decodeAV (k : SlotAddr → Imm → Instr) (v : CodeView) (q : Nat) : Except FaultKind (Instr × Nat) := do
  let a1 ← fieldSA v (q + 1)
  let v ← fieldImm v (q + 5)
  .ok (k a1 v, 13)

/-- Format `AA` (R72): address pair, 9 bytes. -/
def decodeAA (k : SlotAddr → SlotAddr → Instr) (v : CodeView) (q : Nat) : Except FaultKind (Instr × Nat) := do
  let a1 ← fieldSA v (q + 1)
  let a2 ← fieldSA v (q + 5)
  .ok (k a1 a2, 9)

/-- Format `AAA` (R72): three addresses, 13 bytes. -/
def decodeAAA (k : SlotAddr → SlotAddr → SlotAddr → Instr) (v : CodeView) (q : Nat) : Except FaultKind (Instr × Nat) := do
  let a1 ← fieldSA v (q + 1)
  let a2 ← fieldSA v (q + 5)
  let a3 ← fieldSA v (q + 9)
  .ok (k a1 a2 a3, 13)

/-- Format `AD` (R72): address and displacement, 6 bytes. -/
def decodeAD (k : SlotAddr → Disp → Instr) (v : CodeView) (q : Nat) : Except FaultKind (Instr × Nat) := do
  let a1 ← fieldSA v (q + 1)
  let d ← fieldDisp v (q + 5)
  .ok (k a1 d, 6)

/-- Format `AAD` (R72): address pair and displacement, 10 bytes. -/
def decodeAAD (k : SlotAddr → SlotAddr → Disp → Instr) (v : CodeView) (q : Nat) : Except FaultKind (Instr × Nat) := do
  let a1 ← fieldSA v (q + 1)
  let a2 ← fieldSA v (q + 5)
  let d ← fieldDisp v (q + 9)
  .ok (k a1 a2 d, 10)

/-- Format `F` (R72): function number, 3 bytes. -/
def decodeF (k : FnNum → Instr) (v : CodeView) (q : Nat) : Except FaultKind (Instr × Nat) := do
  let f ← fieldFn v (q + 1)
  .ok (k f, 3)

/-- Format `FA` (R72): function and address, 7 bytes. -/
def decodeFA (k : FnNum → SlotAddr → Instr) (v : CodeView) (q : Nat) : Except FaultKind (Instr × Nat) := do
  let f ← fieldFn v (q + 1)
  let a1 ← fieldSA v (q + 3)
  .ok (k f a1, 7)

/-- Format `FAA` (R72): function and address pair, 11 bytes. -/
def decodeFAA (k : FnNum → SlotAddr → SlotAddr → Instr) (v : CodeView) (q : Nat) : Except FaultKind (Instr × Nat) := do
  let f ← fieldFn v (q + 1)
  let a1 ← fieldSA v (q + 3)
  let a2 ← fieldSA v (q + 7)
  .ok (k f a1 a2, 11)

/-- Format `FAAA` (R72): function and three addresses, 15 bytes. -/
def decodeFAAA (k : FnNum → SlotAddr → SlotAddr → SlotAddr → Instr) (v : CodeView) (q : Nat) : Except FaultKind (Instr × Nat) := do
  let f ← fieldFn v (q + 1)
  let a1 ← fieldSA v (q + 3)
  let a2 ← fieldSA v (q + 7)
  let a3 ← fieldSA v (q + 11)
  .ok (k f a1 a2 a3, 15)

/-- Format `R` (R73): the maximal run of the opcode byte from `q`. -/
def decodeR (b : Byte) (v : CodeView) (q : Nat) : Except FaultKind (Instr × Nat) :=
  let n := runLength v.code b q (v.codeSize - q)
  .ok (.nop n, n)

/-- The operand fields of each mnemonic, by its format (R76, R80). -/
def decodeFields (opc : Mnemonic → Byte) (v : CodeView) (q : Nat) : Mnemonic → Except FaultKind (Instr × Nat)
  | .nop => decodeR (opc .nop) v q
  | .setVal => decodeAV .setVal v q
  | .setDat => decodeAA .setDat v q
  | .clrDat => decodeA .clrDat v q
  | .incDat => decodeA .incDat v q
  | .decDat => decodeA .decDat v q
  | .notDat => decodeA .notDat v q
  | .addDat => decodeAA .addDat v q
  | .subDat => decodeAA .subDat v q
  | .mulDat => decodeAA .mulDat v q
  | .divDat => decodeAA .divDat v q
  | .modDat => decodeAA .modDat v q
  | .borDat => decodeAA .borDat v q
  | .andDat => decodeAA .andDat v q
  | .xorDat => decodeAA .xorDat v q
  | .shlDat => decodeAA .shlDat v q
  | .shrDat => decodeAA .shrDat v q
  | .setInd => decodeAA .setInd v q
  | .setIdx => decodeAAA .setIdx v q
  | .indDat => decodeAA .indDat v q
  | .idxDat => decodeAAA .idxDat v q
  | .pshDat => decodeA .pshDat v q
  | .popDat => decodeA .popDat v q
  | .jmpSub => decodeC .jmpSub v q
  | .retSub => .ok (.retSub, 1)
  | .jmpAdr => decodeC .jmpAdr v q
  | .bzrDat => decodeAD .bzrDat v q
  | .bnzDat => decodeAD .bnzDat v q
  | .bgtDat => decodeAAD .bgtDat v q
  | .bltDat => decodeAAD .bltDat v q
  | .bgeDat => decodeAAD .bgeDat v q
  | .bleDat => decodeAAD .bleDat v q
  | .beqDat => decodeAAD .beqDat v q
  | .bneDat => decodeAAD .bneDat v q
  | .slpDat => decodeA .slpDat v q
  | .slpImd => .ok (.slpImd, 1)
  | .fizDat => decodeA .fizDat v q
  | .finImd => .ok (.finImd, 1)
  | .stzDat => decodeA .stzDat v q
  | .stpImd => .ok (.stpImd, 1)
  | .errAdr => decodeC .errAdr v q
  | .setPcs => .ok (.setPcs, 1)
  | .extFun => decodeF .extFun v q
  | .extFunDat => decodeFA .extFunDat v q
  | .extFunDat2 => decodeFAA .extFunDat2 v q
  | .extFunRet => decodeFA .extFunRet v q
  | .extFunRetDat => decodeFAA .extFunRetDat v q
  | .extFunRetDat2 => decodeFAAA .extFunRetDat2 v q

/-- `decode` of R76 under any opcode map: the instruction at byte offset `p` and its length, or the fault
that fetching (R75), an unknown opcode (R82) or an operand field raises. -/
def decodeWith (opc : Mnemonic → Byte) (v : CodeView) (p : Int) : Except FaultKind (Instr × Nat) :=
  if p < 0 ∨ (v.codeSize : Int) ≤ p then .error .overflow
  else
    match mnemonicOf opc (v.code.read p.toNat) with
    | none => .error .invalidOp
    | some m => decodeFields opc v p.toNat m

/-- `decode` under the default opcode map. -/
def decode (v : CodeView) (p : Int) : Except FaultKind (Instr × Nat) := decodeWith opcDefault v p

/-- A slot address or code address as its four bytes (R71). -/
def encAddr (a : BitVec 32) : List Byte := Machine.bytesLE 4 a.toNat

/-- A function number as its two bytes (R71). -/
def encFn (f : FnNum) : List Byte := Machine.bytesLE 2 f.toNat

/-- An immediate as its eight bytes (R71). -/
def encImm (v : Imm) : List Byte := Machine.bytesLE 8 v.toNat

/-- A displacement as its byte (R71). -/
def encDisp (d : Disp) : List Byte := Machine.bytesLE 1 d.toNat

/-- The operand bytes of an instruction, each field in the layout order of its format (R72). -/
def encodeFields (opc : Mnemonic → Byte) : Instr → List Byte
  | .nop n => List.replicate (n - 1) (opc .nop)
  | .setVal a1 v => encAddr a1 ++ encImm v
  | .setDat a1 a2 => encAddr a1 ++ encAddr a2
  | .clrDat a1 => encAddr a1
  | .incDat a1 => encAddr a1
  | .decDat a1 => encAddr a1
  | .notDat a1 => encAddr a1
  | .addDat a1 a2 => encAddr a1 ++ encAddr a2
  | .subDat a1 a2 => encAddr a1 ++ encAddr a2
  | .mulDat a1 a2 => encAddr a1 ++ encAddr a2
  | .divDat a1 a2 => encAddr a1 ++ encAddr a2
  | .modDat a1 a2 => encAddr a1 ++ encAddr a2
  | .borDat a1 a2 => encAddr a1 ++ encAddr a2
  | .andDat a1 a2 => encAddr a1 ++ encAddr a2
  | .xorDat a1 a2 => encAddr a1 ++ encAddr a2
  | .shlDat a1 a2 => encAddr a1 ++ encAddr a2
  | .shrDat a1 a2 => encAddr a1 ++ encAddr a2
  | .setInd a1 a2 => encAddr a1 ++ encAddr a2
  | .setIdx a1 a2 a3 => encAddr a1 ++ encAddr a2 ++ encAddr a3
  | .indDat a1 a2 => encAddr a1 ++ encAddr a2
  | .idxDat a1 a2 a3 => encAddr a1 ++ encAddr a2 ++ encAddr a3
  | .pshDat a1 => encAddr a1
  | .popDat a1 => encAddr a1
  | .jmpSub c => encAddr c
  | .retSub => []
  | .jmpAdr c => encAddr c
  | .bzrDat a1 d => encAddr a1 ++ encDisp d
  | .bnzDat a1 d => encAddr a1 ++ encDisp d
  | .bgtDat a1 a2 d => encAddr a1 ++ encAddr a2 ++ encDisp d
  | .bltDat a1 a2 d => encAddr a1 ++ encAddr a2 ++ encDisp d
  | .bgeDat a1 a2 d => encAddr a1 ++ encAddr a2 ++ encDisp d
  | .bleDat a1 a2 d => encAddr a1 ++ encAddr a2 ++ encDisp d
  | .beqDat a1 a2 d => encAddr a1 ++ encAddr a2 ++ encDisp d
  | .bneDat a1 a2 d => encAddr a1 ++ encAddr a2 ++ encDisp d
  | .slpDat a1 => encAddr a1
  | .slpImd => []
  | .fizDat a1 => encAddr a1
  | .finImd => []
  | .stzDat a1 => encAddr a1
  | .stpImd => []
  | .errAdr c => encAddr c
  | .setPcs => []
  | .extFun f => encFn f
  | .extFunDat f a1 => encFn f ++ encAddr a1
  | .extFunDat2 f a1 a2 => encFn f ++ encAddr a1 ++ encAddr a2
  | .extFunRet f a1 => encFn f ++ encAddr a1
  | .extFunRetDat f a1 a2 => encFn f ++ encAddr a1 ++ encAddr a2
  | .extFunRetDat2 f a1 a2 a3 => encFn f ++ encAddr a1 ++ encAddr a2 ++ encAddr a3

/-- The bytes of an instruction under any opcode map: the opcode byte, then the fields (R70, R87). A run
of `n` NOP bytes is its opcode byte and `n - 1` more (R73). -/
def encodeWith (opc : Mnemonic → Byte) (i : Instr) : List Byte :=
  opc i.mnemonic :: encodeFields opc i

/-- The bytes of an instruction under the default opcode map. -/
def encode (i : Instr) : List Byte := encodeWith opcDefault i

/-- The bytes of a table word: byte `k` holds bits `8k+7 : 8k`, zero from bit `nbits` up, and at least
as many bytes as the longest fixed-length instruction has (15, R228). -/
def tableWordBytes (nbits w : Nat) : List Byte :=
  Machine.bytesLE (max (nbits / 8) 15) (w % 2 ^ nbits)

/-- A Code Segment that holds exactly these bytes, with the data-slot region of the reset machine. -/
def viewOfBytes (bs : List Byte) : CodeView :=
  { code := Machine.zeroMemory.writeBytes 0 bs
    codeSize := bs.length
    dataSize := Config.resetDataPages * Config.slotPageBytes }

/-- The instruction the decoder reads from a word of the opcode table. -/
def decodeTableWord (nbits w : Nat) : Option Instr :=
  match decode (viewOfBytes (tableWordBytes nbits w)) 0 with
  | .ok (i, _) => some i
  | .error _ => none

end Sys2Proof
end

