-- ==== Sys2Proof/Machine/State.lean ====
section
/-! DEFINITION. The state of the AT execution block, all of it (10_state.md R10), and the ways a step can
stop. State is plain data. -/

namespace Sys2Proof.Machine

/-- A register group, `A1..A4` or `B1..B4` (10_state.md R17). -/
structure RegGroup where
  r1 : Word
  r2 : Word
  r3 : Word
  r4 : Word
  deriving DecidableEq, Repr

/-- An entry of the Fixture Table with its key (10_state.md R31). -/
structure FixtureEntry where
  fn : BitVec 32
  loop : Bool
  cursor : BitVec 64
  values : List Word
  deriving DecidableEq, Repr

/-- The host context the Snapshot Codec carries (10_state.md R26 to R31). -/
structure HostCtx where
  scratch1 : Word
  scratch2 : Word
  fuel : Word
  firstCall : Bool
  incrFn : BitVec 32
  /-- The Fixture Table as a list in ascending order of the signed function number. -/
  fixture : List FixtureEntry
  deriving DecidableEq, Repr

/-- The four page counts (10_state.md R30). -/
structure Pages where
  code : Nat
  data : Nat
  cs : Nat
  us : Nat
  deriving DecidableEq, Repr

/-- The state of the block (10_state.md R10). -/
structure State where
  pc : Reg32
  pcs : Reg32
  pce : Reg32
  cs : Reg32
  us : Reg32
  steps : Reg32
  a : RegGroup
  b : RegGroup
  stopped : Bool
  finished : Bool
  /-- The fault latch (R22): `none` is the value 0, `some f` the code of `f` (log entry 8). -/
  fault : Option FaultKind
  code : Memory
  data : Memory
  pages : Pages
  /-- The Jump Table as the list of its members in ascending order (R25, R250). -/
  jt : List Nat
  jtValid : Bool
  host : HostCtx
  deriving DecidableEq, Repr

/-- Why a step has no next state although the instruction exists. -/
inductive Fault where
  /-- Raised by `memRead` and `memWrite` for an access 20_memory.md R45 does not define (outside the Data
  Segment, or not at a multiple of 8). Only a stack depth outside its region leads there (R62). Safe:
  the model stops where the spec gives no meaning. -/
  | memoryOutsideSegment
  deriving DecidableEq, Repr

/-- Why a step is refused. -/
inductive Refusal where
  /-- An instruction without a meaning in the model; raised by no arm of `exec`. Safe. -/
  | notModelled (mnemonic : String)
  /-- Raised by `step` while `JT_VALID = 0`: the spec refuses the step and changes nothing
  (70_reset_and_hazards.md R347). Safe. -/
  | jumpTableInvalid
  deriving DecidableEq, Repr

/-- How an operation inside an instruction can fail: it raises one of the three faults of the spec, or it
makes an access the spec does not define. -/
inductive Trap where
  | raise (f : FaultKind)
  | stuck (r : Fault)
  deriving DecidableEq, Repr

/-- All four registers of a group at zero. -/
def zeroGroup : RegGroup := { r1 := 0, r2 := 0, r3 := 0, r4 := 0 }

/-- The page counts of `State.reset` (log entry 1). -/
def resetPages : Pages :=
  { code := Config.resetCodePages, data := Config.resetDataPages
    cs := Config.resetCsPages, us := Config.resetUsPages }

/-- The host context after `init` (10_state.md R33), which `reset` leaves as it is. -/
def initHost : HostCtx :=
  { scratch1 := 0, scratch2 := 0, fuel := 0, firstCall := true, incrFn := 0, fixture := [] }

/-- The machine right after `reset` of a machine right after `init` (10_state.md R33,
70_reset_and_hazards.md R340, R341): the Jump Table has been rebuilt over a Code Segment of zeros, so it
is valid and empty. -/
def State.reset : State :=
  { pc := 0, pcs := 0, pce := 0, cs := 0, us := 0, steps := 0
    a := zeroGroup, b := zeroGroup
    stopped := false, finished := false, fault := none
    code := zeroMemory, data := zeroMemory, pages := resetPages
    jt := [], jtValid := true
    host := initHost }

end Sys2Proof.Machine
end

