-- ==== Sys2Proof/Machine/Ops.lean ====
section
/-! DEFINITION. The shared operations over sizes, memory, stacks, the program counter and the Jump Table,
and TAKING A FAULT (20_memory.md R44 to R51; 43_control.md R160; 60_exceptions.md R315 to R318). -/

namespace Sys2Proof.Machine

/-- What an operation inside an instruction yields: a value, or the trap that ends the instruction. -/
abbrev Result (α : Type) := Except Trap α

/-- The outcome of an instruction or of a step. -/
abbrev StepOutcome := Host.Outcome State Fault Refusal

/-- Raise one of the three faults: nothing the instruction did so far remains (R316). -/
def raise {α : Type} (f : FaultKind) : Result α := .error (.raise f)

/-! Sizes in bytes and entries (00_scope.md R5). -/

def Pages.codeSize (p : Pages) : Nat := p.code * Config.slotPageBytes
def Pages.dataSize (p : Pages) : Nat := p.data * Config.slotPageBytes
def Pages.csSize (p : Pages) : Nat := p.cs * Config.stackPageBytes
def Pages.usSize (p : Pages) : Nat := p.us * Config.stackPageBytes

/-- `SEG_SIZE`: the whole Data Segment. -/
def Pages.segSize (p : Pages) : Nat := p.dataSize + p.csSize + p.usSize

/-- `CS_CAP` and `US_CAP`: stack entries of 8 bytes. -/
def Pages.csCap (p : Pages) : Nat := p.csSize / 8
def Pages.usCap (p : Pages) : Nat := p.usSize / 8

/-- The bounds of R6 (decision D30). -/
abbrev Pages.InBounds (p : Pages) : Prop :=
  p.code ≤ Config.maxCodePages ∧ p.data ≤ Config.maxDataPages ∧
    p.cs ≤ Config.maxStackPages ∧ p.us ≤ Config.maxStackPages

/-- What the decoder reads of a state (30_encoding.md R77). -/
def State.codeView (s : State) : CodeView :=
  { code := s.code, codeSize := s.pages.codeSize, dataSize := s.pages.dataSize }

/-! The named updates: every write of a step to the state is one of these. -/

/-- Store a word in the Data Segment (20_memory.md R45). -/
def storeWord (off : Nat) (v : Word) (s : State) : State := { s with data := s.data.setWord off v }

/-- `cs <- cs + 1` and `cs <- cs - 1` (R50). The bytes of a removed entry stay. -/
def countCall (s : State) : State := { s with cs := s.cs + 1 }
def dropCall (s : State) : State := { s with cs := s.cs - 1 }

/-- `us <- us + 1` and `us <- us - 1` (R51). The bytes of a removed entry stay. -/
def countUser (s : State) : State := { s with us := s.us + 1 }
def dropUser (s : State) : State := { s with us := s.us - 1 }

/-- `pc <- pc + len` (10_state.md R12). -/
def advance (len : Nat) (s : State) : State := { s with pc := s.pc + BitVec.ofNat 32 len }

/-- `pc <- t` for a code offset `t` (10_state.md R12). -/
def jumpTo (t : Int) (s : State) : State := { s with pc := BitVec.ofInt 32 t }

/-- `steps <- steps + 1`, wrapping (10_state.md R19). -/
def countStep (s : State) : State := { s with steps := s.steps + 1 }

/-- `pc <- pce` (60_exceptions.md R317). -/
def enterHandler (s : State) : State := { s with pc := s.pce }

/-- `fault <- code(f)` (60_exceptions.md R318). -/
def latchFault (f : FaultKind) (s : State) : State := { s with fault := some f }

/-- `pce <- c` (44_system.md R198). -/
def installHandler (c : CodeAddr) (s : State) : State := { s with pce := c }

/-- `pcs <- pc + 1` (44_system.md R199). -/
def markPrologue (s : State) : State := { s with pcs := s.pc + 1 }

/-! The data accessors (20_memory.md R45 to R47). -/

/-- `MemRead(off, 8)` and `MemWrite(off, 8, v)` are defined (R45). -/
abbrev AccessOk (s : State) (off : Int) : Prop :=
  0 ≤ off ∧ off % 8 = 0 ∧ off + 8 ≤ (s.pages.segSize : Int)

/-- `MemRead(off, 8)` (R45). -/
def memRead (s : State) (off : Int) : Result Word :=
  if AccessOk s off then .ok (s.data.word off.toNat) else .error (.stuck .memoryOutsideSegment)

/-- `MemWrite(off, 8, v)` (R45). -/
def memWrite (s : State) (off : Int) (v : Word) : Result State :=
  if AccessOk s off then .ok (storeWord off.toNat v s)
  else .error (.stuck .memoryOutsideSegment)

/-- The slot check, applied to a decoded or a computed address (R46). -/
def checkSlot (s : State) (a : Int) : Result Unit :=
  if SlotOk s.pages.dataSize a then .ok () else raise .overflow

/-- The value `D[a]` of a data slot where `slot_ok(a)` holds (R47). -/
def State.slot (s : State) (a : Int) : Word := s.data.word (8 * a).toNat

/-- Read `D[a]`, raising OVERFLOW where `slot_ok(a)` fails (R46, R47). -/
def readSlot (s : State) (a : Int) : Result Word := do
  checkSlot s a
  memRead s (8 * a)

/-- `D[a] <- v`, raising OVERFLOW where `slot_ok(a)` fails (R46, R47). -/
def writeSlot (s : State) (a : Int) (v : Word) : Result State := do
  checkSlot s a
  memWrite s (8 * a) v

/-! The two stacks (20_memory.md R50, R51). -/

/-- `CSOFF(k)`: the byte offset of call-stack entry `k` (R50). -/
def csOff (s : State) (k : Int) : Int := (s.pages.dataSize + s.pages.csSize : Nat) - 8 * k

/-- `USOFF(k)`: the byte offset of user-stack entry `k` (R51). -/
def usOff (s : State) (k : Int) : Int := (s.pages.segSize : Int) - 8 * k

/-- The call stack has room, else OVERFLOW (R50). -/
def checkCallRoom (s : State) : Result Unit :=
  if s.cs.toInt < (s.pages.csCap : Int) then .ok () else raise .overflow

/-- Store a return address in the next call-stack entry and count it (R50). -/
def pushCall (s : State) (v : Word) : Result State := do
  let t ← memWrite s (csOff s (s.cs.toInt + 1)) v
  .ok (countCall t)

/-- The youngest call-stack entry, not yet removed; OVERFLOW when there is none (R50, R162). -/
def topCall (s : State) : Result Word :=
  if 0 < s.cs.toInt then memRead s (csOff s s.cs.toInt) else raise .overflow

/-- Push on the user stack, OVERFLOW when it is full (R51). -/
def pushUser (s : State) (v : Word) : Result State :=
  if s.us.toInt < (s.pages.usCap : Int) then do
    let t ← memWrite s (usOff s (s.us.toInt + 1)) v
    .ok (countUser t)
  else raise .overflow

/-- The youngest user-stack entry; OVERFLOW when there is none (R51). -/
def topUser (s : State) : Result Word :=
  if 0 < s.us.toInt then memRead s (usOff s s.us.toInt) else raise .overflow

/-! The jump validator. -/

/-- `InJT(t)`: the table is valid and `t` is a member (43_control.md R160). -/
abbrev InJT (s : State) (t : Int) : Prop := s.jtValid = true ∧ ∃ o ∈ s.jt, (o : Int) = t

/-- The jump validator: a target outside the table raises `f` (R160). -/
def validate (f : FaultKind) (s : State) (t : Int) : Result Unit :=
  if InJT s t then .ok () else raise f

/-- Validate a transfer target, INVALID_OP if it is no member, and go there (R160, R163). -/
def transfer (s : State) (t : Int) : Result State := do
  validate .invalidOp s t
  .ok (jumpTo t s)

/-! Taking a fault. -/

/-- The code of a fault (60_exceptions.md R310). -/
def faultCode : FaultKind → Int
  | .overflow => -1
  | .invalidOp => -2
  | .invalidErrorHandler => -3

/-- The number the fault latch holds (10_state.md R22). -/
def State.faultCode (s : State) : Int :=
  match s.fault with
  | none => 0
  | some f => Machine.faultCode f

/-- The fault is absorbed: OVERFLOW with a handler installed (60_exceptions.md R317). -/
abbrev Absorbs (s : State) (f : FaultKind) : Prop := f = .overflow ∧ s.pce ≠ 0

/-- TAKING A FAULT in the state the step began in. An absorbed fault sets `pc <- pce` and nothing else
(R317); any other fault sets the latch and nothing else (R318). No return from it exists (R320). -/
def takeFault (f : FaultKind) (s : State) : State :=
  if Absorbs s f then enterHandler s else latchFault f s

/-- The end of an instruction begun in `s` (60_exceptions.md R315): a completed one counts a step, a
raised fault is taken from `s` with nothing written (R316). -/
def commit (s : State) : Result State → StepOutcome
  | .ok t => .next (countStep t)
  | .error (.raise f) => .next (takeFault f s)
  | .error (.stuck r) => .fault r

end Sys2Proof.Machine
end

