-- ==== Sys2Proof/Machine/Alu.lean ====
section
/-! DEFINITION. The 64-bit functions `f(x, y)` of the arithmetic, bitwise and shift instructions
(41_arith_bitwise.md R121 to R131). Each answers a word, or raises INVALID_OP on a zero divisor. -/

namespace Sys2Proof.Machine

def aluAdd (x y : Word) : Result Word := .ok (x + y)
def aluSub (x y : Word) : Result Word := .ok (x - y)
def aluMul (x y : Word) : Result Word := .ok (x * y)

/-- The quotient truncated toward zero, wrapped (R124). -/
def aluDiv (x y : Word) : Result Word := if y = 0 then raise .invalidOp else .ok (x.sdiv y)

/-- The remainder with the sign of the dividend (R125). -/
def aluMod (x y : Word) : Result Word := if y = 0 then raise .invalidOp else .ok (x.srem y)

def aluOr (x y : Word) : Result Word := .ok (x ||| y)
def aluAnd (x y : Word) : Result Word := .ok (x &&& y)
def aluXor (x y : Word) : Result Word := .ok (x ^^^ y)

/-- The shift count: the low six bits of the source slot (R129, R130, decision D10). -/
def shiftCount (y : Word) : Nat := y.toNat % 64

/-- Left shift, zeros entering at bit 0 (R129). -/
def aluShl (x y : Word) : Result Word := .ok (x <<< shiftCount y)

/-- Arithmetic right shift (R130). -/
def aluShr (x y : Word) : Result Word := .ok (x.sshiftRight (shiftCount y))

end Sys2Proof.Machine
end

