-- ==== Sys2Proof/Machine/Operands.lean ====
section
/-! DEFINITION. The addressing modes and the operand shapes that instructions share (42_indirect_stack.md
R144; 41_arith_bitwise.md R120; 43_control.md R172). -/

namespace Sys2Proof.Machine

/-- Direct: the slot a field names (30_encoding.md R78). -/
def readDirect (s : State) (a : SlotAddr) : Result Word := readSlot s a.toInt

/-- Store to the slot a field names (30_encoding.md R78). -/
def writeDirect (s : State) (a : SlotAddr) (v : Word) : Result State := writeSlot s a.toInt v

/-- Indirect: the computed address `D[b]`, a mathematical integer (R144). -/
def indirectAddr (s : State) (b : SlotAddr) : Result Int := do
  let x ← readDirect s b
  .ok x.toInt

/-- Indexed: the computed address `D[b] + D[i]`, the exact sum (R144, decision D11). -/
def indexedAddr (s : State) (b i : SlotAddr) : Result Int := do
  let x ← readDirect s b
  let y ← readDirect s i
  .ok (x.toInt + y.toInt)

/-- `D[a1] <- f(D[a1])` and advance 5 (40_nop_copy_unary.md R104 to R106). -/
def unaryOp (f : Word → Word) (a1 : SlotAddr) (s : State) : Result State := do
  let x ← readDirect s a1
  let t ← writeDirect s a1 (f x)
  .ok (advance 5 t)

/-- `x = D[a1]; y = D[a2]; D[a1] <- f(x, y)` and advance 9; `f` may raise (R120). -/
def binaryOp (f : Word → Word → Result Word) (a1 a2 : SlotAddr) (s : State) : Result State := do
  let x ← readDirect s a1
  let y ← readDirect s a2
  let r ← f x y
  let t ← writeDirect s a1 r
  .ok (advance 9 t)

/-- The target of a branch: the branch's own offset plus the displacement (R172, decision D14). -/
def branchTarget (s : State) (d : Disp) : Int := s.pc.toInt + d.toInt

/-- The end of a conditional branch of `len` bytes: validated and taken, or passed over (R172). -/
def branch (taken : Bool) (d : Disp) (len : Nat) (s : State) : Result State :=
  if taken then transfer s (branchTarget s d) else .ok (advance len s)

/-- A branch that tests one slot, format `AD` (R172). -/
def branchOne (cond : Word → Bool) (a1 : SlotAddr) (d : Disp) (s : State) : Result State := do
  let x ← readDirect s a1
  branch (cond x) d 6 s

/-- A branch that compares two slots, format `AAD` (R172). -/
def branchTwo (cond : Word → Word → Bool) (a1 a2 : SlotAddr) (d : Disp) (s : State) : Result State := do
  let x ← readDirect s a1
  let y ← readDirect s a2
  branch (cond x y) d 10 s

end Sys2Proof.Machine
end

