-- ==== Sys2Proof/Machine/Arith.lean ====
section
/-! DEFINITION. Binary arithmetic, bitwise and shift instructions (41_arith_bitwise.md R120 to R131). -/

namespace Sys2Proof.Machine

/-- `ADD_DAT @a1 $a2` (R121). -/
def execAddDat (a1 a2 : SlotAddr) (s : State) : StepOutcome := commit s (binaryOp aluAdd a1 a2 s)

/-- `SUB_DAT @a1 $a2` (R122). -/
def execSubDat (a1 a2 : SlotAddr) (s : State) : StepOutcome := commit s (binaryOp aluSub a1 a2 s)

/-- `MUL_DAT @a1 $a2` (R123). -/
def execMulDat (a1 a2 : SlotAddr) (s : State) : StepOutcome := commit s (binaryOp aluMul a1 a2 s)

/-- `DIV_DAT @a1 $a2` (R124): a zero divisor raises INVALID_OP. -/
def execDivDat (a1 a2 : SlotAddr) (s : State) : StepOutcome := commit s (binaryOp aluDiv a1 a2 s)

/-- `MOD_DAT @a1 $a2` (R125): a zero divisor raises INVALID_OP, the spec's choice D9. -/
def execModDat (a1 a2 : SlotAddr) (s : State) : StepOutcome := commit s (binaryOp aluMod a1 a2 s)

/-- `BOR_DAT @a1 $a2` (R126). -/
def execBorDat (a1 a2 : SlotAddr) (s : State) : StepOutcome := commit s (binaryOp aluOr a1 a2 s)

/-- `AND_DAT @a1 $a2` (R127). -/
def execAndDat (a1 a2 : SlotAddr) (s : State) : StepOutcome := commit s (binaryOp aluAnd a1 a2 s)

/-- `XOR_DAT @a1 $a2` (R128). -/
def execXorDat (a1 a2 : SlotAddr) (s : State) : StepOutcome := commit s (binaryOp aluXor a1 a2 s)

/-- `SHL_DAT @a1 $a2` (R129). -/
def execShlDat (a1 a2 : SlotAddr) (s : State) : StepOutcome := commit s (binaryOp aluShl a1 a2 s)

/-- `SHR_DAT @a1 $a2` (R130). -/
def execShrDat (a1 a2 : SlotAddr) (s : State) : StepOutcome := commit s (binaryOp aluShr a1 a2 s)

end Sys2Proof.Machine
end

