-- ==== Sys2Proof/Machine/Flags.lean ====
section
/-! DEFINITION. The run-status flags, the machine's only flags (10_state.md R20, R21), and the conditions
the branches compute in place of condition codes (43_control.md R164 to R172). -/

namespace Sys2Proof.Machine

/-- Terminate: `pc <- pcs; finished <- 1` (44_system.md R192). -/
def terminate (s : State) : State := { s with pc := s.pcs, finished := true }

/-- Pause: `pc <- pc + len; stopped <- 1` (44_system.md R193). -/
def pause (len : Nat) (s : State) : State := { s with pc := s.pc + BitVec.ofNat 32 len, stopped := true }

/-- The tested slot is zero (R164, R194, R196). -/
def isZero (x : Word) : Bool := x == 0

/-- The tested slot is not zero (R165). -/
def isNonzero (x : Word) : Bool := x != 0

/-- The signed comparisons of the two-slot branches (R166 to R171). -/
def gtSigned (x y : Word) : Bool := y.slt x
def ltSigned (x y : Word) : Bool := x.slt y
def geSigned (x y : Word) : Bool := y.sle x
def leSigned (x y : Word) : Bool := x.sle y
def eqWord (x y : Word) : Bool := x == y
def neWord (x y : Word) : Bool := x != y

end Sys2Proof.Machine
end

