-- ==== Sys2Proof/Machine/Control.lean ====
section
/-! DEFINITION. Control transfer, call and return (43_control.md R160 to R173). -/

namespace Sys2Proof.Machine

/-- `JMP_SUB :c` (R161): a full stack is reported before a bad target; the return address is not validated. -/
def execJmpSub (c : CodeAddr) (s : State) : StepOutcome :=
  commit s do
    checkCallRoom s
    validate .invalidOp s c.toInt
    let t ← pushCall s (wrap64 (s.pc.toInt + 5))
    .ok (jumpTo c.toInt t)

/-- `RET_SUB` (R162): the entry is removed only when it is a Jump Table member. -/
def execRetSub (s : State) : StepOutcome :=
  commit s do
    let r ← topCall s
    validate .invalidOp s r.toInt
    .ok (jumpTo r.toInt (dropCall s))

/-- `JMP_ADR :c` (R163). -/
def execJmpAdr (c : CodeAddr) (s : State) : StepOutcome := commit s (transfer s c.toInt)

/-- `BZR_DAT $a1 :d` (R164). -/
def execBzrDat (a1 : SlotAddr) (d : Disp) (s : State) : StepOutcome := commit s (branchOne isZero a1 d s)

/-- `BNZ_DAT $a1 :d` (R165). -/
def execBnzDat (a1 : SlotAddr) (d : Disp) (s : State) : StepOutcome := commit s (branchOne isNonzero a1 d s)

/-- `BGT_DAT $a1 $a2 :d` (R166). -/
def execBgtDat (a1 a2 : SlotAddr) (d : Disp) (s : State) : StepOutcome :=
  commit s (branchTwo gtSigned a1 a2 d s)

/-- `BLT_DAT $a1 $a2 :d` (R167). -/
def execBltDat (a1 a2 : SlotAddr) (d : Disp) (s : State) : StepOutcome :=
  commit s (branchTwo ltSigned a1 a2 d s)

/-- `BGE_DAT $a1 $a2 :d` (R168). -/
def execBgeDat (a1 a2 : SlotAddr) (d : Disp) (s : State) : StepOutcome :=
  commit s (branchTwo geSigned a1 a2 d s)

/-- `BLE_DAT $a1 $a2 :d` (R169). -/
def execBleDat (a1 a2 : SlotAddr) (d : Disp) (s : State) : StepOutcome :=
  commit s (branchTwo leSigned a1 a2 d s)

/-- `BEQ_DAT $a1 $a2 :d` (R170). -/
def execBeqDat (a1 a2 : SlotAddr) (d : Disp) (s : State) : StepOutcome :=
  commit s (branchTwo eqWord a1 a2 d s)

/-- `BNE_DAT $a1 $a2 :d` (R171). -/
def execBneDat (a1 a2 : SlotAddr) (d : Disp) (s : State) : StepOutcome :=
  commit s (branchTwo neWord a1 a2 d s)

end Sys2Proof.Machine
end

