-- ==== Sys2Proof/Machine/Copy.lean ====
section
/-! DEFINITION. No-op, immediate/copy and unary instructions (40_nop_copy_unary.md R100 to R107). -/

namespace Sys2Proof.Machine

/-- `NOP` (R100): skip the run. -/
def execNop (n : Nat) (s : State) : StepOutcome := commit s (.ok (advance n s))

/-- `SET_VAL @a1 #v` (R101). -/
def execSetVal (a1 : SlotAddr) (v : Imm) (s : State) : StepOutcome :=
  commit s do
    let t ← writeDirect s a1 v
    .ok (advance 13 t)

/-- `SET_DAT @a1 $a2` (R102). -/
def execSetDat (a1 a2 : SlotAddr) (s : State) : StepOutcome :=
  commit s do
    let y ← readDirect s a2
    let t ← writeDirect s a1 y
    .ok (advance 9 t)

/-- `CLR_DAT @a1` (R103). -/
def execClrDat (a1 : SlotAddr) (s : State) : StepOutcome :=
  commit s do
    let t ← writeDirect s a1 0
    .ok (advance 5 t)

/-- `INC_DAT @a1` (R104): wraps. -/
def execIncDat (a1 : SlotAddr) (s : State) : StepOutcome := commit s (unaryOp (fun x => x + 1) a1 s)

/-- `DEC_DAT @a1` (R105): wraps. -/
def execDecDat (a1 : SlotAddr) (s : State) : StepOutcome := commit s (unaryOp (fun x => x - 1) a1 s)

/-- `NOT_DAT @a1` (R106). -/
def execNotDat (a1 : SlotAddr) (s : State) : StepOutcome := commit s (unaryOp (fun x => ~~~x) a1 s)

end Sys2Proof.Machine
end

