-- ==== Sys2Proof/Machine/HostPort.lean ====
section
/-! DEFINITION. The HOST interface (45_external.md R210 to R213): call shapes, what a host sees and may
change, and the default host: the register functions R214 to R222 and the fixture side R229 to R233. -/

namespace Sys2Proof.Machine

/-- A call on the HOST interface: its shape, function number and arguments (R210). -/
inductive HostCall where
  | host0 (fn : FnNum)
  | host1 (fn : FnNum) (x : Word)
  | host2 (fn : FnNum) (x y : Word)
  deriving DecidableEq, Repr

/-- Everything a host call may read and write: A, B and the host context (R211). -/
structure HostView where
  a : RegGroup
  b : RegGroup
  ctx : HostCtx
  deriving DecidableEq, Repr

/-- The parameter `HOSTFN` (00_scope.md R6, R213): the result of a call and what it leaves. The first
argument is the draw of this call, any 64-bit value: a host that R213 treats as a draw answers with it, any
other ignores it. -/
abbrev HostFn := Word → HostCall → HostView → Word × HostView

/-- The function number of a call. -/
def HostCall.fn : HostCall → FnNum
  | .host0 fn => fn
  | .host1 fn _ => fn
  | .host2 fn _ _ => fn

/-- The number of arguments of a call: its shape (R210). -/
def HostCall.arity : HostCall → Nat
  | .host0 _ => 0
  | .host1 _ _ => 1
  | .host2 _ _ _ => 2

/-! The register functions (R214). PRESUMED (log entry 3), unsafe: the spec gives the categories from the
source and these numbers, names and results as general knowledge, the default of a parameter. -/

/-- Apply a function to the four register pairs (R222). -/
def RegGroup.zip (f : Word → Word → Word) (p q : RegGroup) : RegGroup :=
  { r1 := f p.r1 q.r1, r2 := f p.r2 q.r2, r3 := f p.r3 q.r3, r4 := f p.r4 q.r4 }

/-- 1 for true, 0 for false (R220). -/
def truth (b : Bool) : Word := if b then 1 else 0

/-- The zero-argument register functions: get, clear, copy, compare, swap, combine (R215, R218 to R222). -/
def builtin0 (v : HostView) : Nat → Option (Word × HostView)
  | 0x0100 => some (v.a.r1, v)
  | 0x0101 => some (v.a.r2, v)
  | 0x0102 => some (v.a.r3, v)
  | 0x0103 => some (v.a.r4, v)
  | 0x0104 => some (v.b.r1, v)
  | 0x0105 => some (v.b.r2, v)
  | 0x0106 => some (v.b.r3, v)
  | 0x0107 => some (v.b.r4, v)
  | 0x0120 => some (0, { v with a := zeroGroup })
  | 0x0121 => some (0, { v with b := zeroGroup })
  | 0x0122 => some (0, { v with a := zeroGroup, b := zeroGroup })
  | 0x0123 => some (0, { v with a := v.b })
  | 0x0124 => some (0, { v with b := v.a })
  | 0x0125 => some (truth (v.a == zeroGroup), v)
  | 0x0126 => some (truth (v.b == zeroGroup), v)
  | 0x0127 => some (truth (v.a == v.b), v)
  | 0x0128 => some (0, { v with a := v.b, b := v.a })
  | 0x0129 => some (0, { v with a := RegGroup.zip (· ||| ·) v.a v.b })
  | 0x012a => some (0, { v with b := RegGroup.zip (· ||| ·) v.b v.a })
  | 0x012b => some (0, { v with a := RegGroup.zip (· &&& ·) v.a v.b })
  | 0x012c => some (0, { v with b := RegGroup.zip (· &&& ·) v.b v.a })
  | 0x012d => some (0, { v with a := RegGroup.zip (· ^^^ ·) v.a v.b })
  | 0x012e => some (0, { v with b := RegGroup.zip (· ^^^ ·) v.b v.a })
  | _ => none

/-- The one-argument register functions: set one register (R216). -/
def builtin1 (v : HostView) (x : Word) : Nat → Option (Word × HostView)
  | 0x0110 => some (0, { v with a := { v.a with r1 := x } })
  | 0x0111 => some (0, { v with a := { v.a with r2 := x } })
  | 0x0112 => some (0, { v with a := { v.a with r3 := x } })
  | 0x0113 => some (0, { v with a := { v.a with r4 := x } })
  | 0x0116 => some (0, { v with b := { v.b with r1 := x } })
  | 0x0117 => some (0, { v with b := { v.b with r2 := x } })
  | 0x0118 => some (0, { v with b := { v.b with r3 := x } })
  | 0x0119 => some (0, { v with b := { v.b with r4 := x } })
  | _ => none

/-- The two-argument register functions: set a pair (R217). -/
def builtin2 (v : HostView) (x y : Word) : Nat → Option (Word × HostView)
  | 0x0114 => some (0, { v with a := { v.a with r1 := x, r2 := y } })
  | 0x0115 => some (0, { v with a := { v.a with r3 := x, r4 := y } })
  | 0x011a => some (0, { v with b := { v.b with r1 := x, r2 := y } })
  | 0x011b => some (0, { v with b := { v.b with r3 := x, r4 := y } })
  | _ => none

/-- The built-in keyed by the pair (shape, number), if there is one (R210, R212). -/
def builtin (v : HostView) : HostCall → Option (Word × HostView)
  | .host0 fn => builtin0 v fn.toNat
  | .host1 fn x => builtin1 v x fn.toNat
  | .host2 fn x y => builtin2 v x y fn.toNat

/-! The fixture side (R229 to R233). -/

/-- The key under which a call is looked up: its number as the stored 32-bit one (10_state.md R31). -/
def fixtureKey (c : HostCall) : BitVec 32 := c.fn.zeroExtend 32

/-- The entry of a function number (R230). -/
def findEntry (fix : List FixtureEntry) (key : BitVec 32) : Option FixtureEntry :=
  fix.find? (fun e => e.fn = key)

/-- The value at an entry's cursor, if the sequence has one there (R230). -/
def entryValue (e : FixtureEntry) : Option Word := e.values[e.cursor.toNat]?

/-- Move a cursor on by one: past the last value it returns to 0 or stays (R231). -/
def advanceCursor (e : FixtureEntry) : FixtureEntry :=
  if e.cursor.toNat + 1 < e.values.length then { e with cursor := e.cursor + 1 }
  else if e.loop then { e with cursor := 0 }
  else e

/-- The increment function: its first call moves nothing, a later one moves every other entry (R231). -/
def increment (key : BitVec 32) (ctx : HostCtx) : HostCtx :=
  if ctx.firstCall then { ctx with firstCall := false }
  else { ctx with fixture := ctx.fixture.map (fun e => if e.fn = key then e else advanceCursor e) }

/-- `Host1(1, x)`, the echo function, which changes no state of the block (R229). -/
def isEcho (c : HostCall) : Bool := c.arity == 1 && c.fn == 1

/-- The call clears the table: it is the balance-query variant and there are entries (R232, log entry 5).
Echo clears nothing (R229). -/
def clearsFixture (c : HostCall) (ctx : HostCtx) : Bool :=
  if isEcho c || ctx.fixture.isEmpty then false
  else Config.isBalanceQueryVariant c.arity c.fn ctx.incrFn

/-- The fixture knows the number although it has no entry: the echo function (R229) and the designated
increment function (R231). Their results are not stated. -/
def knownToFixture (c : HostCall) (ctx : HostCtx) : Bool :=
  isEcho c || fixtureKey c == ctx.incrFn

/-- What the spec says of a call's result: a value, or nothing (R212, R229, R230). -/
def statedResult (c : HostCall) (ctx : HostCtx) : Option Word :=
  if clearsFixture c ctx then none
  else
    match findEntry ctx.fixture (fixtureKey c) with
    | some e => entryValue e
    | none => if knownToFixture c ctx then none else some 0

/-- What a call does to the fixture's state: nothing for echo (R229), else R231 and then R232 (log
entry 6). -/
def fixtureEffect (c : HostCall) (ctx : HostCtx) : HostCtx :=
  let moved := if isEcho c = false ∧ fixtureKey c = ctx.incrFn then increment (fixtureKey c) ctx else ctx
  if clearsFixture c ctx then { moved with fixture := [] } else moved

/-- The fixture side of the host: a stated result as it is, the draw for an unstated one (log entry 4). A
and B are unchanged. -/
def fixtureSide (draw : Word) (c : HostCall) (v : HostView) : Word × HostView :=
  ((statedResult c v.ctx).getD draw, { v with ctx := fixtureEffect c v.ctx })

/-- The default instance of `HOSTFN` (R212): a built-in if there is one, else the fixture side. -/
def defaultHost : HostFn := fun draw c v =>
  match builtin v c with
  | some out => out
  | none => fixtureSide draw c v

/-- The host of R213's general treatment: a function that is no register transfer answers the draw and
leaves A and B. That it also leaves the whole host context (scratch values, fuel, `first_call`, `incr_fn`,
Fixture Table) is a DESIGN CHOICE (log entry 16), unsafe: R213 does not say, and R211 lets a host write
it. -/
def drawingHost : HostFn := fun draw c v =>
  match builtin v c with
  | some out => out
  | none => (draw, v)

/-- What a host call sees of a state (R211). -/
def State.hostView (s : State) : HostView := { a := s.a, b := s.b, ctx := s.host }

/-- The state with A, B and the host context as a host call leaves them (R211). -/
def setHostView (v : HostView) (s : State) : State := { s with a := v.a, b := v.b, host := v.ctx }

end Sys2Proof.Machine

/-- FREE VALUE (log entry 4), safe within one run: the draw of a host call (45_external.md R213), a 64-bit
value of which nothing is known. It may depend on everything the host sees and on the step count, which
moves on with every call, so that two calls of a run have two draws. -/
opaque Sys2Proof.Config.hostDraw (steps : Sys2Proof.Reg32) (c : Sys2Proof.Machine.HostCall)
  (v : Sys2Proof.Machine.HostView) : BitVec 64

namespace Sys2Proof.Machine

/-- What a host answers to a call in a state: the result, and A, B and the host context it leaves. -/
def hostAnswer (h : HostFn) (c : HostCall) (s : State) : Word × HostView :=
  h (Config.hostDraw s.steps c s.hostView) c s.hostView

/-- Call a host in a state: the result, and the state it leaves (R211). -/
def callHost (h : HostFn) (c : HostCall) (s : State) : Word × State :=
  ((hostAnswer h c s).1, setHostView (hostAnswer h c s).2 s)

end Sys2Proof.Machine
end

