-- ==== Sys2Proof/Machine/External.lean ====
section
/-! DEFINITION. The external-function instructions (45_external.md R223 to R228): read the inputs, call the
host, write the result, advance (decision D31). Each operation takes any host (R213) and `execWith` runs it
with any; each meaning takes the default one. Slot addresses are checked before the host is called. -/

namespace Sys2Proof.Machine

/-- `EXT_FUN fn` with host `h` (R223). -/
def extFun (h : HostFn) (f : FnNum) (s : State) : Result State :=
  .ok (advance 3 (callHost h (.host0 f) s).2)

/-- `EXT_FUN_DAT fn $a1` with host `h` (R224). -/
def extFunDat (h : HostFn) (f : FnNum) (a1 : SlotAddr) (s : State) : Result State := do
  let x ← readDirect s a1
  .ok (advance 7 (callHost h (.host1 f x) s).2)

/-- `EXT_FUN_DAT_2 fn $a1 $a2` with host `h` (R225). -/
def extFunDat2 (h : HostFn) (f : FnNum) (a1 a2 : SlotAddr) (s : State) : Result State := do
  let x ← readDirect s a1
  let y ← readDirect s a2
  .ok (advance 11 (callHost h (.host2 f x y) s).2)

/-- Call the host and store its result in `D[a1]`, the destination checked first (R226 to R228). -/
def storeResult (h : HostFn) (c : HostCall) (a1 : SlotAddr) (s : State) : Result State := do
  checkSlot s a1.toInt
  let out := callHost h c s
  writeDirect out.2 a1 out.1

/-- `EXT_FUN_RET fn @a1` with host `h` (R226). -/
def extFunRet (h : HostFn) (f : FnNum) (a1 : SlotAddr) (s : State) : Result State := do
  let t ← storeResult h (.host0 f) a1 s
  .ok (advance 7 t)

/-- `EXT_FUN_RET_DAT fn @a1 $a2` with host `h` (R227). -/
def extFunRetDat (h : HostFn) (f : FnNum) (a1 a2 : SlotAddr) (s : State) : Result State := do
  let x ← readDirect s a2
  let t ← storeResult h (.host1 f x) a1 s
  .ok (advance 11 t)

/-- `EXT_FUN_RET_DAT_2 fn @a1 $a2 $a3` with host `h` (R228). -/
def extFunRetDat2 (h : HostFn) (f : FnNum) (a1 a2 a3 : SlotAddr) (s : State) : Result State := do
  let x ← readDirect s a2
  let y ← readDirect s a3
  let t ← storeResult h (.host2 f x y) a1 s
  .ok (advance 15 t)

/-! The six meanings, each with the default host (R212, R214; log entry 3). -/

def execExtFun (f : FnNum) (s : State) : StepOutcome := commit s (extFun defaultHost f s)

def execExtFunDat (f : FnNum) (a1 : SlotAddr) (s : State) : StepOutcome :=
  commit s (extFunDat defaultHost f a1 s)

def execExtFunDat2 (f : FnNum) (a1 a2 : SlotAddr) (s : State) : StepOutcome :=
  commit s (extFunDat2 defaultHost f a1 a2 s)

def execExtFunRet (f : FnNum) (a1 : SlotAddr) (s : State) : StepOutcome :=
  commit s (extFunRet defaultHost f a1 s)

def execExtFunRetDat (f : FnNum) (a1 a2 : SlotAddr) (s : State) : StepOutcome :=
  commit s (extFunRetDat defaultHost f a1 a2 s)

def execExtFunRetDat2 (f : FnNum) (a1 a2 a3 : SlotAddr) (s : State) : StepOutcome :=
  commit s (extFunRetDat2 defaultHost f a1 a2 a3 s)

end Sys2Proof.Machine
end

