-- ==== Sys2Proof/Machine/Indirect.lean ====
section
/-! DEFINITION. Indirect and indexed loads and stores, and the user stack (42_indirect_stack.md R140 to
R146). -/

namespace Sys2Proof.Machine

/-- `SET_IND @a1 $($a2)` (R140): load through a computed address. -/
def execSetInd (a1 a2 : SlotAddr) (s : State) : StepOutcome :=
  commit s do
    let ea ← indirectAddr s a2
    let x ← readSlot s ea
    let t ← writeDirect s a1 x
    .ok (advance 9 t)

/-- `SET_IDX @a1 $($a2 + $a3)` (R141): load through an indexed address. -/
def execSetIdx (a1 a2 a3 : SlotAddr) (s : State) : StepOutcome :=
  commit s do
    let ea ← indexedAddr s a2 a3
    let x ← readSlot s ea
    let t ← writeDirect s a1 x
    .ok (advance 13 t)

/-- `IND_DAT @($a1) $a2` (R142): store through a computed address. -/
def execIndDat (a1 a2 : SlotAddr) (s : State) : StepOutcome :=
  commit s do
    let ea ← indirectAddr s a1
    let x ← readDirect s a2
    let t ← writeSlot s ea x
    .ok (advance 9 t)

/-- `IDX_DAT @($a1 + $a2) $a3` (R143): store through an indexed address. -/
def execIdxDat (a1 a2 a3 : SlotAddr) (s : State) : StepOutcome :=
  commit s do
    let ea ← indexedAddr s a1 a2
    let x ← readDirect s a3
    let t ← writeSlot s ea x
    .ok (advance 13 t)

/-- `PSH_DAT $a1` (R145). -/
def execPshDat (a1 : SlotAddr) (s : State) : StepOutcome :=
  commit s do
    let x ← readDirect s a1
    let t ← pushUser s x
    .ok (advance 5 t)

/-- `POP_DAT @a1` (R146): the popped bytes stay in memory. The destination is checked first, as its
decoding checks it. -/
def execPopDat (a1 : SlotAddr) (s : State) : StepOutcome :=
  commit s do
    checkSlot s a1.toInt
    let x ← topUser s
    let t ← writeDirect (dropUser s) a1 x
    .ok (advance 5 t)

end Sys2Proof.Machine
end

