-- ==== Sys2Proof/Machine/System.lean ====
section
/-! DEFINITION. Sleep, finish/stop, error-handler and prologue-mark instructions (44_system.md R190 to
R199). -/

namespace Sys2Proof.Machine

/-- `SLP_DAT $a1` (R190): the slot is checked (as every slot field is) and not read. -/
def execSlpDat (a1 : SlotAddr) (s : State) : StepOutcome :=
  commit s do
    checkSlot s a1.toInt
    .ok (advance 5 s)

/-- `SLP_IMD` (R191). -/
def execSlpImd (s : State) : StepOutcome := commit s (.ok (advance 1 s))

/-- `FIZ_DAT $a1` (R194). -/
def execFizDat (a1 : SlotAddr) (s : State) : StepOutcome :=
  commit s do
    let x ← readDirect s a1
    .ok (if isZero x then terminate s else advance 5 s)

/-- `FIN_IMD` (R195). -/
def execFinImd (s : State) : StepOutcome := commit s (.ok (terminate s))

/-- `STZ_DAT $a1` (R196). -/
def execStzDat (a1 : SlotAddr) (s : State) : StepOutcome :=
  commit s do
    let x ← readDirect s a1
    .ok (if isZero x then pause 5 s else advance 5 s)

/-- `STP_IMD` (R197). -/
def execStpImd (s : State) : StepOutcome := commit s (.ok (pause 1 s))

/-- `ERR_ADR :c` (R198): installs the handler; `c = 0` removes it. -/
def execErrAdr (c : CodeAddr) (s : State) : StepOutcome :=
  commit s do
    validate .invalidErrorHandler s c.toInt
    .ok (advance 5 (installHandler c s))

/-- `SET_PCS` (R199): records the address of the next instruction. -/
def execSetPcs (s : State) : StepOutcome :=
  commit s (.ok (advance 1 (markPrologue s)))

end Sys2Proof.Machine
end

