-- ==== Sys2Proof/Machine/Dispatch.lean ====
section
/-! DEFINITION. The one dispatch from an instruction to its meaning. -/

namespace Sys2Proof.Machine

def exec (i : Instr) (s : State) : Host.Outcome State Fault Refusal :=
  match i with
  | .nop n => Sys2Proof.Machine.execNop n s
  | .setVal a1 v => Sys2Proof.Machine.execSetVal a1 v s
  | .setDat a1 a2 => Sys2Proof.Machine.execSetDat a1 a2 s
  | .clrDat a1 => Sys2Proof.Machine.execClrDat a1 s
  | .incDat a1 => Sys2Proof.Machine.execIncDat a1 s
  | .decDat a1 => Sys2Proof.Machine.execDecDat a1 s
  | .notDat a1 => Sys2Proof.Machine.execNotDat a1 s
  | .addDat a1 a2 => Sys2Proof.Machine.execAddDat a1 a2 s
  | .subDat a1 a2 => Sys2Proof.Machine.execSubDat a1 a2 s
  | .mulDat a1 a2 => Sys2Proof.Machine.execMulDat a1 a2 s
  | .divDat a1 a2 => Sys2Proof.Machine.execDivDat a1 a2 s
  | .modDat a1 a2 => Sys2Proof.Machine.execModDat a1 a2 s
  | .borDat a1 a2 => Sys2Proof.Machine.execBorDat a1 a2 s
  | .andDat a1 a2 => Sys2Proof.Machine.execAndDat a1 a2 s
  | .xorDat a1 a2 => Sys2Proof.Machine.execXorDat a1 a2 s
  | .shlDat a1 a2 => Sys2Proof.Machine.execShlDat a1 a2 s
  | .shrDat a1 a2 => Sys2Proof.Machine.execShrDat a1 a2 s
  | .setInd a1 a2 => Sys2Proof.Machine.execSetInd a1 a2 s
  | .setIdx a1 a2 a3 => Sys2Proof.Machine.execSetIdx a1 a2 a3 s
  | .indDat a1 a2 => Sys2Proof.Machine.execIndDat a1 a2 s
  | .idxDat a1 a2 a3 => Sys2Proof.Machine.execIdxDat a1 a2 a3 s
  | .pshDat a1 => Sys2Proof.Machine.execPshDat a1 s
  | .popDat a1 => Sys2Proof.Machine.execPopDat a1 s
  | .jmpSub c => Sys2Proof.Machine.execJmpSub c s
  | .retSub => Sys2Proof.Machine.execRetSub s
  | .jmpAdr c => Sys2Proof.Machine.execJmpAdr c s
  | .bzrDat a1 d => Sys2Proof.Machine.execBzrDat a1 d s
  | .bnzDat a1 d => Sys2Proof.Machine.execBnzDat a1 d s
  | .bgtDat a1 a2 d => Sys2Proof.Machine.execBgtDat a1 a2 d s
  | .bltDat a1 a2 d => Sys2Proof.Machine.execBltDat a1 a2 d s
  | .bgeDat a1 a2 d => Sys2Proof.Machine.execBgeDat a1 a2 d s
  | .bleDat a1 a2 d => Sys2Proof.Machine.execBleDat a1 a2 d s
  | .beqDat a1 a2 d => Sys2Proof.Machine.execBeqDat a1 a2 d s
  | .bneDat a1 a2 d => Sys2Proof.Machine.execBneDat a1 a2 d s
  | .slpDat a1 => Sys2Proof.Machine.execSlpDat a1 s
  | .slpImd => Sys2Proof.Machine.execSlpImd s
  | .fizDat a1 => Sys2Proof.Machine.execFizDat a1 s
  | .finImd => Sys2Proof.Machine.execFinImd s
  | .stzDat a1 => Sys2Proof.Machine.execStzDat a1 s
  | .stpImd => Sys2Proof.Machine.execStpImd s
  | .errAdr c => Sys2Proof.Machine.execErrAdr c s
  | .setPcs => Sys2Proof.Machine.execSetPcs s
  | .extFun f => Sys2Proof.Machine.execExtFun f s
  | .extFunDat f a1 => Sys2Proof.Machine.execExtFunDat f a1 s
  | .extFunDat2 f a1 a2 => Sys2Proof.Machine.execExtFunDat2 f a1 a2 s
  | .extFunRet f a1 => Sys2Proof.Machine.execExtFunRet f a1 s
  | .extFunRetDat f a1 a2 => Sys2Proof.Machine.execExtFunRetDat f a1 a2 s
  | .extFunRetDat2 f a1 a2 a3 => Sys2Proof.Machine.execExtFunRetDat2 f a1 a2 a3 s

end Sys2Proof.Machine
end

