-- ==== Sys2Proof/Machine/JumpTable.lean ====
section
/-! DEFINITION. The Jump Table Builder: a linear decode sweep from offset 0 (47_jump_table_builder.md R250
to R257), under any opcode map. -/

namespace Sys2Proof.Machine

/-- The offsets the sweep records from `p` on, at most `room` of them: it records `p` when a whole valid
instruction decodes there and goes on after it, and halts otherwise, `p` not recorded (R250, R252). -/
def sweepFrom (opc : Mnemonic → Byte) (v : CodeView) : Nat → Nat → List Nat
  | 0, _ => []
  | room + 1, p =>
    match decodeWith opc v p with
    | .ok (_, len) => p :: sweepFrom opc v room (p + len)
    | .error _ => []

/-- The Jump Table of a code view (R250). Every instruction has at least one byte, so `codeSize` rounds
are enough (R257). -/
def jumpTable (opc : Mnemonic → Byte) (v : CodeView) : List Nat := sweepFrom opc v v.codeSize 0

/-- `rebuild_jump_table()` (R251): writes the table and its validity bit, nothing else (R254). -/
def rebuildJumpTable (opc : Mnemonic → Byte) (s : State) : State :=
  { s with jt := jumpTable opc s.codeView, jtValid := true }

end Sys2Proof.Machine
end

