-- ==== Sys2Proof/Machine/Params.lean ====
section
/-! DEFINITION. The two parameters of a run that are no data: the opcode map and the host (00_scope.md R6;
10_state.md R10). Every part of the machine takes them; the page counts are state, fuel and breakpoints are
given to the Run Driver. -/

namespace Sys2Proof.Machine

/-- An instance of `OPC` and of `HOSTFN` (R6). The opcode map comes with what 30_encoding.md R81 requires of
it. -/
structure Params where
  opc : Mnemonic → Byte
  opcOk : OpcOk opc
  host : HostFn

/-- The default instances (30_encoding.md R81, log entry 2; 45_external.md R212, R214, log entry 3). -/
def defaultParams : Params := { opc := opcDefault, opcOk := opcDefault_ok, host := defaultHost }

end Sys2Proof.Machine
end

