-- ==== Sys2Proof/Machine/Engine.lean ====
section
/-! DEFINITION. The Execution Engine's step under any opcode map and host (60_exceptions.md R315), its report
(48_run_driver.md R265), and the placing of one instruction at the program counter. -/

namespace Sys2Proof.Machine

/-- Execution with any host (45_external.md R213): the external-function instructions call it, and every
other instruction has the meaning `exec` gives it. -/
def execWith (h : HostFn) (i : Instr) (s : State) : StepOutcome :=
  match i with
  | .extFun f => commit s (extFun h f s)
  | .extFunDat f a1 => commit s (extFunDat h f a1 s)
  | .extFunDat2 f a1 a2 => commit s (extFunDat2 h f a1 a2 s)
  | .extFunRet f a1 => commit s (extFunRet h f a1 s)
  | .extFunRetDat f a1 a2 => commit s (extFunRetDat h f a1 a2 s)
  | .extFunRetDat2 f a1 a2 a3 => commit s (extFunRetDat2 h f a1 a2 a3 s)
  | .nop _ | .setVal _ _ | .setDat _ _ | .clrDat _ | .incDat _ | .decDat _ | .notDat _ | .addDat _ _
  | .subDat _ _ | .mulDat _ _ | .divDat _ _ | .modDat _ _ | .borDat _ _ | .andDat _ _ | .xorDat _ _
  | .shlDat _ _ | .shrDat _ _ | .setInd _ _ | .setIdx _ _ _ | .indDat _ _ | .idxDat _ _ _ | .pshDat _
  | .popDat _ | .jmpSub _ | .retSub | .jmpAdr _ | .bzrDat _ _ | .bnzDat _ _ | .bgtDat _ _ _
  | .bltDat _ _ _ | .bgeDat _ _ _ | .bleDat _ _ _ | .beqDat _ _ _ | .bneDat _ _ _ | .slpDat _ | .slpImd
  | .fizDat _ | .finImd | .stzDat _ | .stpImd | .errAdr _ | .setPcs => exec i s

/-- `step()` (R315): decode at `pc`, execute, and take whatever fault was raised. Refused while
`JT_VALID = 0` (70_reset_and_hazards.md R347). It reads neither the flags, nor the latch, nor the fuel. -/
def engineStep (P : Params) (s : State) : StepOutcome :=
  if s.jtValid then
    match decodeWith P.opc s.codeView s.pc.toInt with
    | .ok (i, _) => execWith P.host i s
    | .error f => commit s (raise f)
  else .refused .jumpTableInvalid

/-- `StepResult` (R265). -/
inductive StepResult where
  | advanced (n : Nat)
  | fault (f : FaultKind)
  deriving DecidableEq, Repr

/-- The length of the instruction at `pc`, 0 where none decodes. -/
def lengthAt (P : Params) (s : State) : Nat :=
  match decodeWith P.opc s.codeView s.pc.toInt with
  | .ok (_, len) => len
  | .error _ => 0

/-- What `step()` reports (R265, decision D33), read off its effect: a fatal fault sets the latch, a
completed instruction moves `steps`, an absorbed fault does neither. The latch is cleared first, which
`step()` does not read. -/
def stepResult (P : Params) (s : State) : Option StepResult :=
  match engineStep P { s with fault := none } with
  | .next t =>
    match t.fault with
    | some f => some (.fault f)
    | none => some (.advanced (if t.steps = s.steps then 0 else lengthAt P s))
  | .fault _ => none
  | .refused _ => none

/-- Place an instruction's bytes at `pc` and rebuild the Jump Table: the operator's `load_code` and
`rebuild_jump_table` in one (70_reset_and_hazards.md R344; log entry 9). Bytes past the end of the Code
Segment are not stored. -/
def placeAtPc (opc : Mnemonic → Byte) (s : State) (bytes : List Byte) : State :=
  let at_ := s.pc.toInt.toNat
  rebuildJumpTable opc { s with code := s.code.writeBytes at_ (bytes.take (s.pages.codeSize - at_)) }

end Sys2Proof.Machine
end

