-- ==== Sys2Proof/Machine/Step.lean ====
section
/-! DEFINITION. One step of the machine, and the placing of a table word where it fetches. -/

namespace Sys2Proof.Machine

/-- One step: the Execution Engine's `step()` (60_exceptions.md R315) with the default opcode map and host. -/
def step (s : State) : Host.Outcome State Fault Refusal := engineStep defaultParams s

/-- The state with the instruction of a table word stored at `pc` (log entry 9). -/
def State.withFetchWord (s : State) (nbits w : Nat) : State := placeAtPc opcDefault s (tableWordBytes nbits w)

end Sys2Proof.Machine
end

