-- ==== Sys2Proof/Machine/Driver.lean ====
section
/-! DEFINITION. The Run Driver: the sequencer around the engine's step, for any opcode map and host
(48_run_driver.md R265 to R276). -/

namespace Sys2Proof.Machine

/-- How a run ends (R272). -/
inductive RunEnd where
  | refused
  | finished
  | stopped
  | faulted (f : FaultKind)
  | outOfFuel
  | breakpoint
  | stepLimit
  /-- Not ended within the rounds given: the lifecycle's Running (R273). A run given one round for each unit
  of fuel ends so only where its host puts fuel back (R274, R276; log entry 14). -/
  | running
  /-- The MODEL's own: the engine made an access the spec does not define; no run from a state that meets
  the invariant ends so. -/
  | stuck (r : Fault)
  deriving DecidableEq, Repr

/-- Fuel is exhausted (R269, decision D23). -/
abbrev OutOfFuel (s : State) : Prop := s.host.fuel.toInt ≤ 0

/-- One unit of fuel, taken before a step whatever its outcome (R268). -/
def takeFuel (s : State) : State := { s with host := { s.host with fuel := s.host.fuel - 1 } }

/-- What the tests after a step say (R271): the fault, the flags, the fuel, the breakpoints, in this order;
nothing where the run goes on. -/
def endAfterStep (bps : List Int) (t : State) : Option RunEnd :=
  match t.fault with
  | some f => some (.faulted f)
  | none =>
    if t.finished then some .finished
    else if t.stopped then some .stopped
    else if OutOfFuel t then some .outOfFuel
    else if t.pc.toInt ∈ bps then some .breakpoint
    else none

/-- The loop of R271, for at most so many rounds. `limit` is how many steps may still be issued. -/
def driveLoop (P : Params) (bps : List Int) (rounds : Nat) (limit : Option Nat) (s : State) :
    RunEnd × State :=
  if OutOfFuel s then (.outOfFuel, s)
  else if limit = some 0 then (.stepLimit, s)
  else
    match rounds with
    | 0 => (.running, s)
    | rounds + 1 =>
      match engineStep P (takeFuel s) with
      | .refused _ => (.refused, s)
      | .fault r => (.stuck r, takeFuel s)
      | .next t =>
        match endAfterStep bps t with
        | some e => (e, t)
        | none => driveLoop P bps rounds (limit.map (· - 1)) t

/-- A run may start or go on (R266). -/
abbrev MayRun (s : State) : Prop := s.jtValid = true ∧ s.finished = false ∧ s.fault = none

/-- `drive(limit)` with a breakpoint set, for at most so many rounds (R271): refused with nothing changed, or
`stopped` cleared and the loop run. -/
def driveFor (P : Params) (bps : List Int) (rounds : Nat) (limit : Option Nat) (s : State) :
    RunEnd × State :=
  if MayRun s then driveLoop P bps rounds limit { s with stopped := false } else (.refused, s)

/-- `drive(limit)` with one round for each unit of fuel: enough, unless the host puts fuel back (R274). -/
def drive (P : Params) (bps : List Int) (limit : Option Nat) (s : State) : RunEnd × State :=
  driveFor P bps s.host.fuel.toInt.toNat limit s

/-- `run`: start a run (R266). -/
def run (P : Params) (bps : List Int) (s : State) : RunEnd × State := drive P bps none s

/-- `cont`: continue a run (R266). -/
def cont (P : Params) (bps : List Int) (s : State) : RunEnd × State := drive P bps none s

/-- `step n`: at most `n` steps (R271). -/
def stepN (P : Params) (bps : List Int) (n : Nat) (s : State) : RunEnd × State := drive P bps (some n) s

end Sys2Proof.Machine
end

