-- ==== Sys2Proof/Machine/Ctrl.lean ====
section
/-! DEFINITION. The operator's commands between runs: init, loads, resize, reset, fuel and fixture
(20_memory.md R60, R61; 48_run_driver.md R276; 70_reset_and_hazards.md R340, R341). `none` is a command
refused whole, with nothing changed. -/

namespace Sys2Proof.Machine

/-- The state `init` makes (R340): everything zero, the Jump Table empty and not valid. -/
def blankState (p : Pages) : State :=
  { pc := 0, pcs := 0, pce := 0, cs := 0, us := 0, steps := 0
    a := zeroGroup, b := zeroGroup
    stopped := false, finished := false, fault := none
    code := zeroMemory, data := zeroMemory, pages := p
    jt := [], jtValid := false
    host := initHost }

/-- `init` with four page counts, each within its bound (R340). -/
def initState (p : Pages) : Option State := if p.InBounds then some (blankState p) else none

/-- The host context after `reset` (R341, decision D20). -/
def resetHost (h : HostCtx) : HostCtx :=
  { h with scratch1 := 0, scratch2 := 0, firstCall := true
           fixture := h.fixture.map (fun e => { e with cursor := 0 }) }

/-- `reset` (R341): the only way out of Finished and Faulted. -/
def resetOp (opc : Mnemonic → Byte) (s : State) : State :=
  rebuildJumpTable opc
    { s with pc := s.pcs, pce := 0, cs := 0, us := 0, steps := 0
             a := zeroGroup, b := zeroGroup
             stopped := false, finished := false, fault := none
             data := zeroMemory, host := resetHost s.host }

/-- `load_code(off, bytes)` (R60): the table is no longer valid. -/
def loadCode (off : Nat) (bytes : List Byte) (s : State) : Option State :=
  if off + bytes.length ≤ s.pages.codeSize then
    some { s with code := s.code.writeBytes off bytes, jtValid := false }
  else none

/-- `load_data(off, bytes)` (R60): the table is untouched. -/
def loadData (off : Nat) (bytes : List Byte) (s : State) : Option State :=
  if off + bytes.length ≤ s.pages.segSize then some { s with data := s.data.writeBytes off bytes }
  else none

/-- The four regions whose page count `resize` sets (R61). -/
inductive Region where
  | code | data | call | user
  deriving DecidableEq, Repr

/-- The page counts with one of them replaced. -/
def Pages.set (p : Pages) (r : Region) (n : Nat) : Pages :=
  match r with
  | .code => { p with code := n }
  | .data => { p with data := n }
  | .call => { p with cs := n }
  | .user => { p with us := n }

/-- `resize(region, pages)` (R61): code keeps its common prefix, a Data Segment region empties the whole
Data Segment and both stacks; the table is no longer valid. Refused outside the bounds of R6 (log
entry 10). -/
def resize (r : Region) (n : Nat) (s : State) : Option State :=
  if (s.pages.set r n).InBounds then
    match r with
    | .code => some { s with pages := s.pages.set r n, jtValid := false
                             code := s.code.truncate (s.pages.set r n).codeSize }
    | _ => some { s with pages := s.pages.set r n, jtValid := false
                         data := zeroMemory, cs := 0, us := 0 }
  else none

/-- `set_fuel(v)` (R276). -/
def setFuel (v : Word) (s : State) : State := { s with host := { s.host with fuel := v } }

/-- The operator designates the increment function (R344; log entry 11). -/
def setIncrFn (f : BitVec 32) (s : State) : State := { s with host := { s.host with incrFn := f } }

/-- A cursor stands inside its sequence, or at 0 of an empty one (49_snapshot_codec.md R292). -/
abbrev CursorOk (e : FixtureEntry) : Prop :=
  e.cursor.toNat < e.values.length ∨ e.values = [] ∧ e.cursor = 0

/-- Put an entry in a table, in place of one with the same number (10_state.md R31). -/
def putEntry (e : FixtureEntry) : List FixtureEntry → List FixtureEntry
  | [] => [e]
  | x :: xs =>
    if e.fn.slt x.fn then e :: x :: xs
    else if e.fn = x.fn then e :: xs
    else x :: putEntry e xs

/-- The operator creates or edits an entry (R31, R344; log entry 11). -/
def defineFixture (e : FixtureEntry) (s : State) : Option State :=
  if CursorOk e ∧ e.values.length < 2 ^ 64 then
    some { s with host := { s.host with fixture := putEntry e s.host.fixture } }
  else none

end Sys2Proof.Machine
end

