-- ==== Sys2Proof/Machine/Snapshot.lean ====
section
/-! DEFINITION. The Snapshot Codec: the whole reproducible state as one little-endian byte stream and back
(49_snapshot_codec.md R285 to R297). -/

namespace Sys2Proof.Machine

/-! Writing (R286, R290). -/

/-- A 64-bit field. -/
def put64 (x : BitVec 64) : List Byte := bytesLE 8 x.toNat

/-- A 32-bit field. -/
def put32 (x : BitVec 32) : List Byte := bytesLE 4 x.toNat

/-- A flag: 0x01 for true, 0x00 for false (R290). -/
def putFlag (b : Bool) : List Byte := if b then [1] else [0]

/-- A register group, first register first. -/
def putGroup (g : RegGroup) : List Byte := put64 g.r1 ++ put64 g.r2 ++ put64 g.r3 ++ put64 g.r4

/-- One fixture entry (R286, field 27). -/
def putFixtureEntry (e : FixtureEntry) : List Byte :=
  put32 e.fn ++ putFlag e.loop ++ put64 e.cursor ++ bytesLE 8 e.values.length ++
    e.values.flatMap put64

/-- Fields 1 to 5: the host context but its table (R286). -/
def putHost (h : HostCtx) : List Byte :=
  put64 h.scratch1 ++ put64 h.scratch2 ++ put64 h.fuel ++ putFlag h.firstCall ++ put32 h.incrFn

/-- Fields 6 to 19: the registers (R286). -/
def putRegisters (s : State) : List Byte :=
  put32 s.pc ++ put32 s.cs ++ put32 s.us ++ put32 s.pce ++ put32 s.pcs ++ put32 s.steps ++
    putGroup s.a ++ putGroup s.b

/-- Fields 20 to 25: the page counts and the contents of both segments (R286). -/
def putSegments (p : Pages) (code data : Memory) : List Byte :=
  bytesLE 4 p.code ++ code.readBytes 0 p.codeSize ++
    bytesLE 4 p.data ++ bytesLE 4 p.cs ++ bytesLE 4 p.us ++ data.readBytes 0 p.segSize

/-- Fields 26 and 27: the Fixture Table. It is held in ascending order of function number, so its entries
are written in that order (R289). -/
def putFixture (fix : List FixtureEntry) : List Byte :=
  bytesLE 8 fix.length ++ fix.flatMap putFixtureEntry

/-- `save` (R286, R290). -/
def save (s : State) : List Byte :=
  putHost s.host ++ putRegisters s ++ putSegments s.pages s.code s.data ++ putFixture s.host.fixture

/-! Reading (R291, R292). A reader answers the field and the rest of the stream, or nothing where the
stream ends too early. -/

/-- The next `n` bytes. -/
def takeBytes : Nat → List Byte → Option (List Byte × List Byte)
  | 0, bs => some ([], bs)
  | _ + 1, [] => none
  | n + 1, b :: bs =>
    match takeBytes n bs with
    | some (xs, rest) => some (b :: xs, rest)
    | none => none

/-- A byte list as a little-endian number (20_memory.md R43). -/
def leValue : List Byte → Nat
  | [] => 0
  | b :: bs => b.toNat + 256 * leValue bs

/-- The next `n` bytes as a number. -/
def takeLE (n : Nat) (bs : List Byte) : Option (Nat × List Byte) := do
  let (xs, rest) ← takeBytes n bs
  some (leValue xs, rest)

def take64 (bs : List Byte) : Option (BitVec 64 × List Byte) := do
  let (x, rest) ← takeLE 8 bs
  some (BitVec.ofNat 64 x, rest)

def take32 (bs : List Byte) : Option (BitVec 32 × List Byte) := do
  let (x, rest) ← takeLE 4 bs
  some (BitVec.ofNat 32 x, rest)

/-- A flag byte: 0x00 is false, any other value true (R291). -/
def takeFlag (bs : List Byte) : Option (Bool × List Byte) := do
  let (x, rest) ← takeLE 1 bs
  some (x != 0, rest)

/-- A page count: 32 bits signed, refused when negative or above its bound (R292). Every bound is below
2^31, so a negative count reads as a number above it. -/
def takePages (bound : Nat) (bs : List Byte) : Option (Nat × List Byte) := do
  let (x, rest) ← takeLE 4 bs
  if x ≤ bound then some (x, rest) else none

def takeGroup (bs : List Byte) : Option (RegGroup × List Byte) := do
  let (r1, bs) ← take64 bs
  let (r2, bs) ← take64 bs
  let (r3, bs) ← take64 bs
  let (r4, bs) ← take64 bs
  some ({ r1 := r1, r2 := r2, r3 := r3, r4 := r4 }, bs)

/-- `n` 64-bit values. -/
def takeValues : Nat → List Byte → Option (List Word × List Byte)
  | 0, bs => some ([], bs)
  | n + 1, bs => do
    let (x, bs) ← take64 bs
    let (xs, bs) ← takeValues n bs
    some (x :: xs, bs)

/-- One fixture entry; an inconsistent cursor is refused (R292). -/
def takeFixtureEntry (bs : List Byte) : Option (FixtureEntry × List Byte) := do
  let (fn, bs) ← take32 bs
  let (loop, bs) ← takeFlag bs
  let (cursor, bs) ← take64 bs
  let (count, bs) ← takeLE 8 bs
  let (values, bs) ← takeValues count bs
  if CursorOk { fn := fn, loop := loop, cursor := cursor, values := values } then
    some ({ fn := fn, loop := loop, cursor := cursor, values := values }, bs)
  else none

/-- Put an entry in a table in ascending order; a repeated number is refused (R289, R292). -/
def insertEntry (e : FixtureEntry) : List FixtureEntry → Option (List FixtureEntry)
  | [] => some [e]
  | x :: xs =>
    if e.fn.slt x.fn then some (e :: x :: xs)
    else if e.fn = x.fn then none
    else
      match insertEntry e xs with
      | some ys => some (x :: ys)
      | none => none

/-- `n` fixture entries, accepted in any order (R289). -/
def takeEntries : Nat → List Byte → Option (List FixtureEntry × List Byte)
  | 0, bs => some ([], bs)
  | n + 1, bs => do
    let (e, bs) ← takeFixtureEntry bs
    let (es, bs) ← takeEntries n bs
    let table ← insertEntry e es
    some (table, bs)

/-- Fields 26 and 27: the Fixture Table. -/
def takeFixture (bs : List Byte) : Option (List FixtureEntry × List Byte) := do
  let (count, bs) ← takeLE 8 bs
  takeEntries count bs

/-- Fields 1 to 5 of a host context whose other fields are those of `h`. -/
def takeHost (h : HostCtx) (bs : List Byte) : Option (HostCtx × List Byte) := do
  let (scratch1, bs) ← take64 bs
  let (scratch2, bs) ← take64 bs
  let (fuel, bs) ← take64 bs
  let (firstCall, bs) ← takeFlag bs
  let (incrFn, bs) ← take32 bs
  some ({ h with scratch1 := scratch1, scratch2 := scratch2, fuel := fuel, firstCall := firstCall
                 incrFn := incrFn }, bs)

/-- Fields 6 to 19 of a state whose other fields are those of `s`. -/
def takeRegisters (s : State) (bs : List Byte) : Option (State × List Byte) := do
  let (pc, bs) ← take32 bs
  let (cs, bs) ← take32 bs
  let (us, bs) ← take32 bs
  let (pce, bs) ← take32 bs
  let (pcs, bs) ← take32 bs
  let (steps, bs) ← take32 bs
  let (a, bs) ← takeGroup bs
  let (b, bs) ← takeGroup bs
  some ({ s with pc := pc, cs := cs, us := us, pce := pce, pcs := pcs, steps := steps, a := a, b := b }, bs)

/-- Fields 20 to 25: the page counts, the code and the data. -/
def takeSegments (bs : List Byte) : Option ((Pages × Memory × Memory) × List Byte) := do
  let (cp, bs) ← takePages Config.maxCodePages bs
  let (code, bs) ← takeBytes (cp * Config.slotPageBytes) bs
  let (dp, bs) ← takePages Config.maxDataPages bs
  let (kp, bs) ← takePages Config.maxStackPages bs
  let (up, bs) ← takePages Config.maxStackPages bs
  let pages : Pages := { code := cp, data := dp, cs := kp, us := up }
  let (data, bs) ← takeBytes pages.segSize bs
  some ((pages, zeroMemory.writeBytes 0 code, zeroMemory.writeBytes 0 data), bs)

/-- A depth lies in its region (R292). -/
abbrev DepthOk (depth : Reg32) (cap : Nat) : Prop := 0 ≤ depth.toInt ∧ depth.toInt ≤ (cap : Int)

/-- `load` (R291 to R295): the state restored from a stream on the instance `s₀`, its Jump Table rebuilt
and its status cleared; none, with nothing changed, when the stream is malformed or inconsistent. Nothing
of the instance survives. -/
def load (opc : Mnemonic → Byte) (stream : List Byte) (s₀ : State) : Option State := do
  let (host, bs) ← takeHost s₀.host stream
  let (t, bs) ← takeRegisters s₀ bs
  let ((pages, code, data), bs) ← takeSegments bs
  let (fixture, bs) ← takeFixture bs
  if bs = [] ∧ DepthOk t.cs pages.csCap ∧ DepthOk t.us pages.usCap then
    some <| rebuildJumpTable opc
      { t with pages := pages, code := code, data := data, host := { host with fixture := fixture }
               stopped := false, finished := false, fault := none }
  else none

end Sys2Proof.Machine
end

