-- ==== Sys2Proof/Safety.lean ====
section
/-! DEFINITION. What a good state is, and the terms in which claims say what a step changed and what it
left alone. -/

namespace Sys2Proof.Machine

/-- The Fixture Table is a finite map in ascending order of the signed number, each entry small enough for
its snapshot fields and with its cursor inside its values (10_state.md R31; 49_snapshot_codec.md R286,
R292). -/
structure FixtureOk (fix : List FixtureEntry) : Prop where
  ascending : fix.Pairwise (fun x y => x.fn.slt y.fn = true)
  cursors : ∀ e ∈ fix, CursorOk e
  lengths : ∀ e ∈ fix, e.values.length < 2 ^ 64
  count : fix.length < 2 ^ 64

/-- The host leaves a well-formed Fixture Table well formed: it is a finite map whatever the host writes
(10_state.md R31). -/
def HostKeepsTable (h : HostFn) : Prop :=
  ∀ draw c v, FixtureOk v.ctx.fixture → FixtureOk (h draw c v).2.ctx.fixture

/-- The host puts no fuel back: the balance is monotonically decreasing (10_state.md R27; 48_run_driver.md
R268). -/
def HostPutsNoFuelBack (h : HostFn) : Prop :=
  ∀ draw c v, (h draw c v).2.ctx.fuel.toInt ≤ v.ctx.fuel.toInt

/-- The invariant of the machine under an opcode map: the page counts are within their bounds (00_scope.md
R6), both segments are canonical and inside their sizes (10_state.md R23, R24), the stack depths are inside
their regions (20_memory.md R62), a valid Jump Table is the sweep of the code (47_jump_table_builder.md
R250), and the Fixture Table is well formed. -/
structure State.Inv (s : State) (opc : Mnemonic → Byte) : Prop where
  pagesOk : s.pages.InBounds
  codeWf : s.code.wf = true
  codeWithin : s.code.within s.pages.codeSize = true
  dataWf : s.data.wf = true
  dataWithin : s.data.within s.pages.segSize = true
  csOk : DepthOk s.cs s.pages.csCap
  usOk : DepthOk s.us s.pages.usCap
  jtOk : s.jtValid = true → s.jt = jumpTable opc s.codeView
  fixtureOk : FixtureOk s.host.fixture

/-- Every byte of the Data Segment outside the 8 bytes from `off` reads as before. -/
def SameDataOutside (s t : State) (off : Nat) : Prop :=
  ∀ k : Nat, (k < off ∨ off + 8 ≤ k) → t.data.read k = s.data.read k

/-- `t` is `s` with at most `pc` and `steps` different: no register, flag, byte of memory, page count,
table or host state has changed. -/
def OnlyPcSteps (s t : State) : Prop := t = { s with pc := t.pc, steps := t.steps }

/-- `t` is `s` with at most the Data Segment, `pc` and `steps` different. -/
def OnlyDataPcSteps (s t : State) : Prop := t = { s with data := t.data, pc := t.pc, steps := t.steps }

/-- The instruction completed and went on `len` bytes further. -/
def WentOn (s t : State) (len : Nat) : Prop :=
  t.pc = s.pc + BitVec.ofNat 32 len ∧ t.steps = s.steps + 1

/-- A completed instruction of `len` bytes that writes `v` to slot `a` and nothing else. -/
def WroteSlot (s t : State) (a : Int) (v : Word) (len : Nat) : Prop :=
  t.slot a = v ∧ SameDataOutside s t (8 * a).toNat ∧ WentOn s t len ∧ OnlyDataPcSteps s t

/-- A completed instruction that moved `pc` to the code offset `target` and changed nothing else. -/
def WentTo (s t : State) (target : Int) : Prop :=
  t.pc = BitVec.ofInt 32 target ∧ t.steps = s.steps + 1 ∧ OnlyPcSteps s t

/-- The slot a field names passes the slot check. -/
abbrev FieldOk (s : State) (a : SlotAddr) : Prop := SlotOk s.pages.dataSize a.toInt

/-- The value of the slot a field names. -/
abbrev State.fieldSlot (s : State) (a : SlotAddr) : Word := s.slot a.toInt

/-- OVERFLOW is taken: redirected to the handler if one is installed, else latched, and nothing else
(60_exceptions.md R317, R318). -/
def TakesOverflow (o : StepOutcome) (s : State) : Prop :=
  o = .next (if s.pce ≠ 0 then { s with pc := s.pce } else { s with fault := some .overflow })

/-- A fatal fault is taken whatever handler is installed: the latch, and nothing else (R318). -/
def TakesFatal (o : StepOutcome) (s : State) (f : FaultKind) : Prop :=
  o = .next { s with fault := some f }

/-- What a conditional branch of `len` bytes does (43_control.md R172): it goes on when not taken, goes to
`pc + d` when taken and that is a Jump Table member, and otherwise raises INVALID_OP. -/
def BranchesAs (o : StepOutcome) (s : State) (d : Disp) (len : Nat) (taken : Prop) : Prop :=
  (¬taken → ∃ t, o = .next t ∧ WentOn s t len ∧ OnlyPcSteps s t) ∧
    (taken → InJT s (s.pc.toInt + d.toInt) →
      ∃ t, o = .next t ∧ WentTo s t (s.pc.toInt + d.toInt)) ∧
    (taken → ¬InJT s (s.pc.toInt + d.toInt) → TakesFatal o s .invalidOp)

/-- A completed external-function instruction of `len` bytes without a destination: A, B and the host
context are as the host left them, and nothing else changed. -/
def CalledHost (s t : State) (v : HostView) (len : Nat) : Prop :=
  t.a = v.a ∧ t.b = v.b ∧ t.host = v.ctx ∧ WentOn s t len ∧
    t = { s with pc := t.pc, steps := t.steps, a := t.a, b := t.b, host := t.host }

/-- The same with the result stored in slot `a`. -/
def CalledHostInto (s t : State) (out : Word × HostView) (a : Int) (len : Nat) : Prop :=
  t.slot a = out.1 ∧ SameDataOutside s t (8 * a).toNat ∧
    t.a = out.2.a ∧ t.b = out.2.b ∧ t.host = out.2.ctx ∧ WentOn s t len ∧
    t = { s with pc := t.pc, steps := t.steps, a := t.a, b := t.b, host := t.host, data := t.data }

/-- The offsets the decode sweep comes to: 0, and the offset after every instruction decoded at one
(47_jump_table_builder.md R250). -/
inductive SweepComesTo (opc : Mnemonic → Byte) (v : CodeView) : Nat → Prop where
  | start : SweepComesTo opc v 0
  | onward {o len : Nat} {i : Instr} (at_o : SweepComesTo opc v o) (ok : decodeWith opc v o = .ok (i, len)) :
      SweepComesTo opc v (o + len)

/-- Whole instructions decode at this offset. -/
def DecodesAt (opc : Mnemonic → Byte) (v : CodeView) (o : Nat) : Prop :=
  ∃ i len, decodeWith opc v o = .ok (i, len)

/-- The bytes of the Code Segment from `p` on begin with `bs`, inside the segment. -/
def CodeHolds (v : CodeView) (p : Nat) (bs : List Byte) : Prop :=
  p + bs.length ≤ v.codeSize ∧ v.code.readBytes p bs.length = bs

/-- Where `i` is a NOP run at `p`, it is maximal: the run ends the segment or another byte follows
(30_encoding.md R73). -/
def RunEndsAt (opc : Mnemonic → Byte) (v : CodeView) (p : Nat) (i : Instr) : Prop :=
  i.mnemonic = .nop → p + i.len = v.codeSize ∨ v.code.read (p + i.len) ≠ opc .nop

/-- The six instructions that call the host. -/
def hostCallers : List Mnemonic :=
  [.extFun, .extFunDat, .extFunDat2, .extFunRet, .extFunRetDat, .extFunRetDat2]

/-- So many rounds of the run loop lead from `s` to `u` (48_run_driver.md R268, R271): each begins with fuel
left, takes one unit and makes one step of the engine, and each but the last leaves a state at which the run
goes on: no fault, neither flag set, no breakpoint. -/
inductive TookRounds (P : Params) (bps : List Int) : Nat → State → State → Prop where
  | none (s : State) : TookRounds P bps 0 s s
  | more {n : Nat} {s t u : State} (fuel : 0 < s.host.fuel.toInt)
      (steps : engineStep P (takeFuel s) = .next t)
      (goesOn : 0 < n → t.fault = none ∧ t.finished = false ∧ t.stopped = false ∧ t.pc.toInt ∉ bps)
      (rest : TookRounds P bps n t u) : TookRounds P bps (n + 1) s u

/-- The next `n` fixture entries of a stream have a flag byte of 0 or 1, the fifth of the entry, and their
function numbers ascend from `last` on (49_snapshot_codec.md R286, R296). -/
def plainEntries : Option (BitVec 32) → Nat → List Byte → Bool
  | _, 0, _ => true
  | last, n + 1, bs =>
    match takeFixtureEntry bs with
    | .none => false
    | .some (e, rest) =>
      bs.getD 4 0 ≤ 1 && last.all (fun k => k.slt e.fn) && plainEntries (.some e.fn) n rest

/-- A stream with these page counts and so many fixture entries is written as `save` writes: its flag bytes
are 0 or 1 (`first_call_flag` at offset 24) and its entries, behind the segments and their count, ascend
(49_snapshot_codec.md R286, R296). -/
abbrev PlainStream (b : List Byte) (p : Pages) (entries : Nat) : Prop :=
  b.getD 24 0 ≤ 1 ∧ plainEntries .none entries (b.drop (141 + p.codeSize + p.segSize)) = true

end Sys2Proof.Machine
end

