-- ==== Sys2Proof/Certificates/Slice0/Obligations.lean ====
section
/-! DEFINITION. The statements for the provers. Each docstring names the rule of spec/ it rests on. -/

open Sys2Proof Sys2Proof.Machine

/-! Encoding. -/

/-- 30_encoding.md R87: decoding the bytes of a well-formed instruction gives it back with its length,
wherever they stand and under every injective opcode map (R81); a NOP run must be maximal. -/
def Obligations.DecodeOfEncodeIsTheInstruction : Prop :=
  ∀ (opc : Mnemonic → Byte) (v : CodeView) (p : Nat) (i : Instr),
    Function.Injective opc → i.wf v.dataSize = true →
    CodeHolds v p (encodeWith opc i) → RunEndsAt opc v p i →
    decodeWith opc v p = .ok (i, i.len)

/-- 30_encoding.md R73, R74, R76: under any opcode map, what decodes stands inside the Code Segment as exactly
the bytes of the instruction; its length is the sum of its opcode and operand bytes, the length of its
format, told by the opcode byte alone but for NOP; it is well formed; a NOP run is maximal. -/
def Obligations.DecodedBytesAreTheEncoding : Prop :=
  ∀ (opc : Mnemonic → Byte) (v : CodeView) (p : Int) (i : Instr) (len : Nat),
    decodeWith opc v p = .ok (i, len) →
    ∃ q : Nat, p = (q : Int) ∧ len = i.len ∧ 1 ≤ len ∧ (encodeWith opc i).length = len ∧
      i.wf v.dataSize = true ∧ CodeHolds v q (encodeWith opc i) ∧ RunEndsAt opc v q i ∧
      (i.mnemonic ≠ .nop → len = (formatOf i.mnemonic).bytes ∧
        ∀ (p' : Int) (i' : Instr) (len' : Nat), decodeWith opc v p' = .ok (i', len') →
          v.code.read p'.toNat = v.code.read q → len' = len)

/-- 30_encoding.md R75, R76, R82; 60_exceptions.md R319: under any opcode map, a decode failure is OVERFLOW at
an offset outside the Code Segment, INVALID_OP at a byte that is no opcode, and OVERFLOW for every other
reason. -/
def Obligations.DecodeFailureKinds : Prop :=
  ∀ (opc : Mnemonic → Byte) (v : CodeView) (p : Int),
    ((p < 0 ∨ (v.codeSize : Int) ≤ p) → decodeWith opc v p = .error .overflow) ∧
    ((0 ≤ p ∧ p < (v.codeSize : Int)) → (∀ m, opc m ≠ v.code.read p.toNat) →
      decodeWith opc v p = .error .invalidOp) ∧
    ((0 ≤ p ∧ p < (v.codeSize : Int)) → (∃ m, opc m = v.code.read p.toNat) →
      ∀ f, decodeWith opc v p = .error f → f = .overflow)

/-- 30_encoding.md R76, R83: under every injective opcode map, an instruction with an operand field past the
end of the Code Segment, or with a slot address that fails the slot check, decodes to OVERFLOW. -/
def Obligations.UnfittingFieldsAndBadSlotsOverflow : Prop :=
  ∀ opc : Mnemonic → Byte, Function.Injective opc →
    (∀ (v : CodeView) (p : Nat) (m : Mnemonic), p < v.codeSize → v.code.read p = opc m →
      v.codeSize < p + (formatOf m).bytes → decodeWith opc v p = .error .overflow) ∧
    (∀ (v : CodeView) (p : Nat) (i : Instr), CodeHolds v p (encodeWith opc i) →
      (∃ a ∈ i.slots, ¬SlotOk v.dataSize a.toInt) → decodeWith opc v p = .error .overflow)

/-- 30_encoding.md R81, R82: the default opcode map is injective, agrees with the three bytes the source
fixes, and leaves the listed 208 bytes illegal. The other 45 bytes are PRESUMED (log entry 2). -/
def Obligations.DefaultOpcodeMap : Prop :=
  OpcOk opcDefault ∧
  (∀ b : Byte, (∀ m, opcDefault m ≠ b) ↔
    b = 0x00 ∨ b = 0x19 ∨ b = 0x1c ∨ b = 0x1d ∨ (0x2c ≤ b ∧ b ≤ 0x2f) ∨ b = 0x31 ∨
      (0x38 ≤ b ∧ b ≤ 0x7e) ∨ 0x80 ≤ b)

/-- 95_test_vectors.md E1, V30.2, V30.9, V30.10: words written out from the encoding tables decode to the
instructions they stand for. The bytes 1b, 1a and 32 are PRESUMED, the spec's default (log entry 2). -/
def Obligations.SampleWordsDecode : Prop :=
  let at0 := fun bs : List Byte => decode (viewOfBytes bs) 0
  at0 [0x01, 0x00, 0x00, 0x00, 0x00, 0xb8, 0x22, 0, 0, 0, 0, 0, 0] = .ok (.setVal 0 0x22b8, 13) ∧
  at0 [0x33, 0x01, 0x00, 0x00, 0x00, 0x00, 0x00] = .ok (.extFunDat 1 0, 7) ∧
  at0 [0x28] = .ok (.finImd, 1) ∧
  at0 [0x1b, 0x03, 0x00, 0x00, 0x00, 0x80] = .ok (.bzrDat 3 (-128), 6) ∧
  at0 [0x1a, 0xfb, 0xff, 0xff, 0xff] = .ok (.jmpAdr (-5), 5) ∧
  at0 [0x32, 0xff, 0xff] = .ok (.extFun 65535, 3)

/-! The step. -/

/-- 60_exceptions.md R315; 00_scope.md R6: for every opcode map and host, when the bytes at `pc` decode to an
instruction, a step is that instruction's execution, with nothing added. The machine's `step` is the one
with the default parameters (log entries 2, 3): it runs `exec` of the decoded instruction. A host makes no
difference to the execution of an instruction that does not call it. -/
def Obligations.StepRunsTheDecodedInstruction : Prop :=
  (∀ (P : Params) (s : State) (i : Instr) (len : Nat), s.jtValid = true →
    decodeWith P.opc s.codeView s.pc.toInt = .ok (i, len) →
    engineStep P s = execWith P.host i s ∧
      (i.mnemonic ∉ hostCallers → engineStep P s = exec i s)) ∧
  (∀ (s : State) (i : Instr) (len : Nat), s.jtValid = true →
    decode s.codeView s.pc.toInt = .ok (i, len) → step s = exec i s) ∧
  (∀ s : State, step s = engineStep defaultParams s)

/-- 60_exceptions.md R315, R317, R318: for every opcode map and host, when nothing decodes at `pc`, the step
takes the decoder's fault: an OVERFLOW goes to the handler if one is installed, anything else sets the
latch, and nothing else changes. -/
def Obligations.StepTakesTheDecodeFault : Prop :=
  ∀ (P : Params) (s : State) (f : FaultKind), s.jtValid = true →
    decodeWith P.opc s.codeView s.pc.toInt = .error f →
    (f = .overflow → TakesOverflow (engineStep P s) s) ∧
      (f ≠ .overflow → TakesFatal (engineStep P s) s f)

/-- 70_reset_and_hazards.md R347: while `JT_VALID = 0` a step, a run, a continuation and `step n` are
refused and change nothing, for every opcode map and host. -/
def Obligations.RefusedWhileTheJumpTableIsInvalid : Prop :=
  ∀ (P : Params) (s : State), s.jtValid = false →
    engineStep P s = .refused .jumpTableInvalid ∧ step s = .refused .jumpTableInvalid ∧
    ∀ (bps : List Int) (n : Nat), run P bps s = (.refused, s) ∧ cont P bps s = (.refused, s) ∧
      stepN P bps n s = (.refused, s)

/-- 20_memory.md R43, R45: an 8-byte access is defined at a multiple of 8 inside the Data Segment and nowhere
else; a read is the little-endian sum of its bytes; a write stores the bytes of the value and no others; a
read after a write of the same place gives the value written. That an access R45 does not define is the
fault `memoryOutsideSegment` is the model's choice (log entry 7). -/
def Obligations.DataAccesses : Prop :=
  ∀ (s : State) (off : Int) (v : Word),
    let ok := 0 ≤ off ∧ off % 8 = 0 ∧ off + 8 ≤ (s.pages.segSize : Int)
    (ok → memRead s off = .ok (BitVec.ofNat 64
        (((List.range 8).map fun k => (s.data.read (off.toNat + k)).toNat * 256 ^ k).sum)) ∧
      ∃ t, memWrite s off v = .ok t ∧ t = { s with data := t.data } ∧ memRead t off = .ok v ∧
        (∀ k < 8, t.data.read (off.toNat + k) = BitVec.ofNat 8 (v.toNat / 256 ^ k)) ∧
        SameDataOutside s t off.toNat) ∧
    (¬ok → memRead s off = .error (.stuck .memoryOutsideSegment) ∧
      memWrite s off v = .error (.stuck .memoryOutsideSegment))

/-- 40_nop_copy_unary.md R101; 44_system.md R195: the two instructions whose opcode the source fixes, as
steps over the bytes at `pc`, for every opcode map that 30_encoding.md R81 allows and every host.
`01 a1[4] v[8]` writes `v` to slot `a1`, and takes OVERFLOW where the slot check fails or the bytes do not
fit; `28` terminates. -/
def Obligations.StepsOfTheSourceFixedBytes : Prop :=
  ∀ (P : Params) (s : State) (q : Nat), s.jtValid = true → s.pc.toInt = (q : Int) →
    (∀ (a1 : SlotAddr) (v : Imm),
      CodeHolds s.codeView q ((0x01 : Byte) :: (bytesLE 4 a1.toNat ++ bytesLE 8 v.toNat)) →
      (FieldOk s a1 → ∃ t, engineStep P s = .next t ∧ WroteSlot s t a1.toInt v 13) ∧
      (¬FieldOk s a1 → TakesOverflow (engineStep P s) s)) ∧
    (q < s.pages.codeSize → s.pages.codeSize < q + 13 → s.code.read q = 0x01 →
      TakesOverflow (engineStep P s) s) ∧
    (CodeHolds s.codeView q [0x28] →
      ∃ t, engineStep P s = .next t ∧ t.pc = s.pcs ∧ t.finished = true ∧ t.steps = s.steps + 1 ∧
        t = { s with pc := t.pc, steps := t.steps, finished := t.finished })

/-! Invariants. -/

/-- The state after reset meets the machine's invariant (20_memory.md R62, 10_state.md R33), and so does what
`init` makes and what `reset` makes of any good state, under any opcode map. -/
def Obligations.ResetMeetsTheInvariant : Prop :=
  State.reset.Inv opcDefault ∧
  ∀ opc : Mnemonic → Byte,
    (∀ (p : Pages) (s : State), initState p = some s → s.Inv opc) ∧
    (∀ (opc' : Mnemonic → Byte) (s : State), s.Inv opc' → (resetOp opc s).Inv opc)

/-- 20_memory.md R62: every step keeps the invariant: page counts in bounds, both segments canonical and
inside their sizes, stack depths inside their regions, the Jump Table the sweep of the code, the Fixture
Table well formed. So it is for `step`, and for every opcode map and every host that leaves the Fixture
Table a finite map (log entry 15). That the default host and the host of draws are such hosts rests on what
the model has them do to the table (log entries 6, 16). -/
def Obligations.EveryStepKeepsTheInvariant : Prop :=
  (∀ s t : State, s.Inv opcDefault → step s = .next t → t.Inv opcDefault) ∧
  (∀ (P : Params) (s t : State), HostKeepsTable P.host → s.Inv P.opc →
    engineStep P s = .next t → t.Inv P.opc) ∧
  HostKeepsTable defaultHost ∧ HostKeepsTable drawingHost

/-- 20_memory.md R62; 93_implementation_defined.md part 3: from a good state with a valid Jump Table a step
always has a next state, whatever the opcode map and the host: no access outside the segments, no behaviour
that is stuck. -/
def Obligations.GoodStatesAlwaysStep : Prop :=
  (∀ s : State, s.Inv opcDefault → s.jtValid = true → ∃ t, step s = .next t) ∧
  (∀ (P : Params) (s : State), s.Inv P.opc → s.jtValid = true → ∃ t, engineStep P s = .next t)

/-- 20_memory.md R62: every byte a completed or faulting instruction changes lies in the data slots, or in
the call stack for `JMP_SUB`, or in the user stack for `PSH_DAT`, whatever the host. -/
def Obligations.StoresStayInTheirRegion : Prop :=
  ∀ (h : HostFn) (opc : Mnemonic → Byte) (i : Instr) (s t : State), s.Inv opc →
    execWith h i s = .next t →
    ∀ k : Nat, t.data.read k ≠ s.data.read k →
      (k < s.pages.dataSize ∧ i.mnemonic ≠ .jmpSub ∧ i.mnemonic ≠ .pshDat) ∨
      (s.pages.dataSize ≤ k ∧ k < s.pages.dataSize + s.pages.csSize ∧ i.mnemonic = .jmpSub) ∨
      (s.pages.dataSize + s.pages.csSize ≤ k ∧ k < s.pages.segSize ∧ i.mnemonic = .pshDat)

/-! Initialization and reset. -/

/-- 70_reset_and_hazards.md R340: `init` within the bounds of R6 gives the zero state with the Jump Table
not valid, and outside them nothing (log entry 10). The reset state is `reset` of `init` at the page
counts of log entry 1: the model's choice. -/
def Obligations.InitializationValues : Prop :=
  (∀ p : Pages, p.InBounds → ∃ s, initState p = some s ∧ s.pages = p ∧
    s.pc = 0 ∧ s.pcs = 0 ∧ s.pce = 0 ∧ s.cs = 0 ∧ s.us = 0 ∧ s.steps = 0 ∧
    s.a = ⟨0, 0, 0, 0⟩ ∧ s.b = ⟨0, 0, 0, 0⟩ ∧ s.stopped = false ∧ s.finished = false ∧ s.faultCode = 0 ∧
    (∀ k, s.code.read k = 0 ∧ s.data.read k = 0) ∧ s.jt = [] ∧ s.jtValid = false ∧
    s.host.fuel = 0 ∧ s.host.scratch1 = 0 ∧ s.host.scratch2 = 0 ∧ s.host.firstCall = true ∧
    s.host.incrFn = 0 ∧ s.host.fixture = []) ∧
  (∀ p : Pages, ¬p.InBounds → initState p = none) ∧
  (initState ⟨1, 1, 1, 1⟩).map (resetOp opcDefault) = some State.reset

/-- 70_reset_and_hazards.md R341, R342: what `reset` sets and what it keeps, in every state; and it is
idempotent. So it is under every opcode map. -/
def Obligations.ResetSetsAndKeeps : Prop :=
  ∀ (opc : Mnemonic → Byte) (s : State), let t := resetOp opc s
    t.pc = s.pcs ∧ t.pcs = s.pcs ∧ t.pce = 0 ∧ t.cs = 0 ∧ t.us = 0 ∧ t.steps = 0 ∧
    t.a = ⟨0, 0, 0, 0⟩ ∧ t.b = ⟨0, 0, 0, 0⟩ ∧ t.stopped = false ∧ t.finished = false ∧ t.faultCode = 0 ∧
    (∀ k, t.data.read k = 0) ∧ t.code = s.code ∧ t.pages = s.pages ∧
    t.jt = jumpTable opc s.codeView ∧ t.jtValid = true ∧
    t.host.scratch1 = 0 ∧ t.host.scratch2 = 0 ∧ t.host.firstCall = true ∧
    t.host.fuel = s.host.fuel ∧ t.host.incrFn = s.host.incrFn ∧
    t.host.fixture = s.host.fixture.map (fun e => { e with cursor := 0 }) ∧
    resetOp opc t = t

/-! Faults. -/

/-- 60_exceptions.md R316, R317, R318: whatever the host, every instruction that ends in a next state
completed and counted a step with the latch as it was, or raised a fault of which nothing remains but
`pc <- pce` (with a handler installed) or the latch. -/
def Obligations.CompletesOrFaultsWhole : Prop :=
  ∀ (h : HostFn) (i : Instr) (s t : State), execWith h i s = .next t →
    (t.steps = s.steps + 1 ∧ t.fault = s.fault) ∨
    (s.pce ≠ 0 ∧ t = { s with pc := s.pce }) ∨
    (∃ f, (f = .overflow → s.pce = 0) ∧ t = { s with fault := some f })

/-- 10_state.md R32, R23, R25, R30: which instructions may write which piece of state, whatever the host; no
instruction writes the code, the sizes or the Jump Table. That the default host leaves the fuel as it is, is
the model's choice (log entry 4): R32 lets a host write it. -/
def Obligations.OnlyTheNamedInstructionsWrite : Prop :=
  (∀ (h : HostFn) (i : Instr) (s t : State), execWith h i s = .next t →
    t.code = s.code ∧ t.pages = s.pages ∧ t.jt = s.jt ∧ t.jtValid = s.jtValid ∧
    (t.pcs ≠ s.pcs → i.mnemonic = .setPcs) ∧
    (t.pce ≠ s.pce → i.mnemonic = .errAdr) ∧
    (t.cs ≠ s.cs → i.mnemonic = .jmpSub ∨ i.mnemonic = .retSub) ∧
    (t.us ≠ s.us → i.mnemonic = .pshDat ∨ i.mnemonic = .popDat) ∧
    (t.stopped ≠ s.stopped → t.stopped = true ∧ (i.mnemonic = .stzDat ∨ i.mnemonic = .stpImd)) ∧
    (t.finished ≠ s.finished → t.finished = true ∧ (i.mnemonic = .fizDat ∨ i.mnemonic = .finImd)) ∧
    ((t.a ≠ s.a ∨ t.b ≠ s.b ∨ t.host ≠ s.host) → i.mnemonic ∈ hostCallers)) ∧
  (∀ (i : Instr) (s t : State), exec i s = .next t → t.host.fuel = s.host.fuel)

/-- 20_memory.md R46; 60_exceptions.md R311 (c); log entry 12: executing an instruction one of whose slot
fields fails the slot check takes OVERFLOW, as its decoding does. -/
def Obligations.BadSlotFieldTakesOverflow : Prop :=
  ∀ (h : HostFn) (i : Instr) (s : State), (∃ a ∈ i.slots, ¬SlotOk s.pages.dataSize a.toInt) →
    TakesOverflow (execWith h i s) s

/-! No-op, copy and unary instructions. -/

/-- 40_nop_copy_unary.md R100; 44_system.md R190, R191: a NOP run of `n` bytes, SLP_DAT and SLP_IMD move `pc`
past themselves and count one step; nothing else changes. -/
def Obligations.NopAndSleepOnlyAdvance : Prop :=
  ∀ s : State,
    (∀ n, ∃ t, exec (.nop n) s = .next t ∧ WentOn s t n ∧ OnlyPcSteps s t) ∧
    (∀ a1, FieldOk s a1 → ∃ t, exec (.slpDat a1) s = .next t ∧ WentOn s t 5 ∧ OnlyPcSteps s t) ∧
    (∃ t, exec .slpImd s = .next t ∧ WentOn s t 1 ∧ OnlyPcSteps s t)

/-- 40_nop_copy_unary.md R101, R102, R103: SET_VAL, SET_DAT and CLR_DAT write the immediate, the source
slot's value and 0 to slot `a1`, and nothing else. -/
def Obligations.CopyInstructionsWriteTheSlot : Prop :=
  ∀ (s : State) (a1 : SlotAddr), FieldOk s a1 →
    (∀ v : Imm, ∃ t, exec (.setVal a1 v) s = .next t ∧ WroteSlot s t a1.toInt v 13) ∧
    (∀ a2, FieldOk s a2 →
      ∃ t, exec (.setDat a1 a2) s = .next t ∧ WroteSlot s t a1.toInt (s.fieldSlot a2) 9) ∧
    (∃ t, exec (.clrDat a1) s = .next t ∧ WroteSlot s t a1.toInt 0 5)

/-- 40_nop_copy_unary.md R104, R105, R106: INC_DAT, DEC_DAT and NOT_DAT replace the slot by `wrap64(x + 1)`,
`wrap64(x - 1)` and `-x - 1`, and change nothing else. -/
def Obligations.UnaryInstructionsUpdateTheSlot : Prop :=
  ∀ (s : State) (a1 : SlotAddr), FieldOk s a1 → let x := (s.fieldSlot a1).toInt
    (∃ t, exec (.incDat a1) s = .next t ∧ WroteSlot s t a1.toInt (wrap64 (x + 1)) 5) ∧
    (∃ t, exec (.decDat a1) s = .next t ∧ WroteSlot s t a1.toInt (wrap64 (x - 1)) 5) ∧
    (∃ t, exec (.notDat a1) s = .next t ∧ WroteSlot s t a1.toInt (wrap64 (-x - 1)) 5 ∧
      (t.fieldSlot a1).toInt = -x - 1)

/-! Arithmetic, bitwise and shift instructions. -/

/-- 41_arith_bitwise.md R120 to R123: ADD_DAT, SUB_DAT and MUL_DAT replace slot `a1` by the wrapped exact
result and change nothing else. -/
def Obligations.AddSubMulWrap : Prop :=
  ∀ (s : State) (a1 a2 : SlotAddr), FieldOk s a1 → FieldOk s a2 →
    let x := (s.fieldSlot a1).toInt
    let y := (s.fieldSlot a2).toInt
    (∃ t, exec (.addDat a1 a2) s = .next t ∧ WroteSlot s t a1.toInt (wrap64 (x + y)) 9) ∧
    (∃ t, exec (.subDat a1 a2) s = .next t ∧ WroteSlot s t a1.toInt (wrap64 (x - y)) 9) ∧
    (∃ t, exec (.mulDat a1 a2) s = .next t ∧ WroteSlot s t a1.toInt (wrap64 (x * y)) 9)

/-- 41_arith_bitwise.md R124, R125: with a divisor that is not zero, DIV_DAT writes the wrapped truncated
quotient and MOD_DAT the remainder `x - y * trunc(x / y)`, whose magnitude is below the divisor's and whose
sign is the dividend's, and `x = wrap64(y * quotient + remainder)`; nothing else changes. -/
def Obligations.DivModTruncate : Prop :=
  ∀ (s : State) (a1 a2 : SlotAddr), FieldOk s a1 → FieldOk s a2 → s.fieldSlot a2 ≠ 0 →
    let x := (s.fieldSlot a1).toInt
    let y := (s.fieldSlot a2).toInt
    (∃ t, exec (.divDat a1 a2) s = .next t ∧ WroteSlot s t a1.toInt (wrap64 (x.tdiv y)) 9) ∧
    (∃ t, exec (.modDat a1 a2) s = .next t ∧ WroteSlot s t a1.toInt (wrap64 (x - y * x.tdiv y)) 9 ∧
      (t.fieldSlot a1).toInt = x - y * x.tdiv y ∧ (t.fieldSlot a1).toInt.natAbs < y.natAbs ∧
      0 ≤ (t.fieldSlot a1).toInt * x) ∧
    (∀ q r, exec (.divDat a1 a2) s = .next q → exec (.modDat a1 a2) s = .next r →
      s.fieldSlot a1 = wrap64 (y * (q.fieldSlot a1).toInt + (r.fieldSlot a1).toInt))

/-- 41_arith_bitwise.md R124, R125; 60_exceptions.md R318: a zero divisor raises INVALID_OP in DIV_DAT and
MOD_DAT, never absorbed, with nothing written but the latch. -/
def Obligations.ZeroDivisorIsFatal : Prop :=
  ∀ (s : State) (a1 a2 : SlotAddr), FieldOk s a1 → FieldOk s a2 → s.fieldSlot a2 = 0 →
    TakesFatal (exec (.divDat a1 a2) s) s .invalidOp ∧
    TakesFatal (exec (.modDat a1 a2) s) s .invalidOp

/-- 41_arith_bitwise.md R126, R127, R128: BOR_DAT, AND_DAT and XOR_DAT combine the two slots bit by bit over
all 64 bits into slot `a1` and change nothing else. -/
def Obligations.BitwiseCombineEveryBit : Prop :=
  ∀ (s : State) (a1 a2 : SlotAddr), FieldOk s a1 → FieldOk s a2 →
    let x := s.fieldSlot a1
    let y := s.fieldSlot a2
    (∃ t v, exec (.borDat a1 a2) s = .next t ∧ WroteSlot s t a1.toInt v 9 ∧
      ∀ n < 64, v.getLsbD n = (x.getLsbD n || y.getLsbD n)) ∧
    (∃ t v, exec (.andDat a1 a2) s = .next t ∧ WroteSlot s t a1.toInt v 9 ∧
      ∀ n < 64, v.getLsbD n = (x.getLsbD n && y.getLsbD n)) ∧
    (∃ t v, exec (.xorDat a1 a2) s = .next t ∧ WroteSlot s t a1.toInt v 9 ∧
      ∀ n < 64, v.getLsbD n = (x.getLsbD n != y.getLsbD n))

/-- 41_arith_bitwise.md R129, R130: the shift count is the source slot modulo 64; SHL_DAT writes
`wrap64(x * 2^c)`, SHR_DAT the floor of `x / 2^c`, and nothing else changes. -/
def Obligations.ShiftsByTheLowSixBits : Prop :=
  ∀ (s : State) (a1 a2 : SlotAddr), FieldOk s a1 → FieldOk s a2 →
    let x := (s.fieldSlot a1).toInt
    let c := (s.fieldSlot a2).toNat % 64
    (∃ t, exec (.shlDat a1 a2) s = .next t ∧ WroteSlot s t a1.toInt (wrap64 (x * 2 ^ c)) 9) ∧
    (∃ t v, exec (.shrDat a1 a2) s = .next t ∧ WroteSlot s t a1.toInt v 9 ∧
      v.toInt = Int.fdiv x (2 ^ c))

/-! Indirect, indexed and stack instructions. -/

/-- 42_indirect_stack.md R140, R141, R144: SET_IND and SET_IDX load through the computed address, the value
of a slot or the exact sum of two, when it passes the slot check, and write only slot `a1`. -/
def Obligations.LoadsThroughAComputedAddress : Prop :=
  ∀ (s : State) (a1 a2 : SlotAddr), FieldOk s a1 → FieldOk s a2 →
    (let ea := (s.fieldSlot a2).toInt
     SlotOk s.pages.dataSize ea →
      ∃ t, exec (.setInd a1 a2) s = .next t ∧ WroteSlot s t a1.toInt (s.slot ea) 9) ∧
    (∀ a3, FieldOk s a3 →
      let ea := (s.fieldSlot a2).toInt + (s.fieldSlot a3).toInt
      SlotOk s.pages.dataSize ea →
        ∃ t, exec (.setIdx a1 a2 a3) s = .next t ∧ WroteSlot s t a1.toInt (s.slot ea) 13)

/-- 42_indirect_stack.md R142, R143, R144: IND_DAT and IDX_DAT store the last operand's slot through the
computed address, when it passes the slot check, and write nothing else. -/
def Obligations.StoresThroughAComputedAddress : Prop :=
  ∀ (s : State) (a1 a2 : SlotAddr), FieldOk s a1 → FieldOk s a2 →
    (let ea := (s.fieldSlot a1).toInt
     SlotOk s.pages.dataSize ea →
      ∃ t, exec (.indDat a1 a2) s = .next t ∧ WroteSlot s t ea (s.fieldSlot a2) 9) ∧
    (∀ a3, FieldOk s a3 →
      let ea := (s.fieldSlot a1).toInt + (s.fieldSlot a2).toInt
      SlotOk s.pages.dataSize ea →
        ∃ t, exec (.idxDat a1 a2 a3) s = .next t ∧ WroteSlot s t ea (s.fieldSlot a3) 13)

/-- 42_indirect_stack.md R144; 60_exceptions.md R311 (d): a computed address that fails the slot check
raises OVERFLOW in all four instructions, with nothing written. -/
def Obligations.BadComputedAddressOverflows : Prop :=
  ∀ (s : State) (a1 a2 : SlotAddr), FieldOk s a1 → FieldOk s a2 →
    (¬SlotOk s.pages.dataSize (s.fieldSlot a2).toInt → TakesOverflow (exec (.setInd a1 a2) s) s) ∧
    (¬SlotOk s.pages.dataSize (s.fieldSlot a1).toInt → TakesOverflow (exec (.indDat a1 a2) s) s) ∧
    (∀ a3, FieldOk s a3 →
      (¬SlotOk s.pages.dataSize ((s.fieldSlot a2).toInt + (s.fieldSlot a3).toInt) →
        TakesOverflow (exec (.setIdx a1 a2 a3) s) s) ∧
      (¬SlotOk s.pages.dataSize ((s.fieldSlot a1).toInt + (s.fieldSlot a2).toInt) →
        TakesOverflow (exec (.idxDat a1 a2 a3) s) s))

/-- 42_indirect_stack.md R145; 20_memory.md R51: PSH_DAT stores the slot at byte offset
`SEG_SIZE - 8 * (us + 1)`, counts the entry, and changes nothing else. -/
def Obligations.PushStoresTheNextUserEntry : Prop :=
  ∀ (s : State) (a1 : SlotAddr), FieldOk s a1 → 0 ≤ s.us.toInt → s.us.toInt < (s.pages.usCap : Int) →
    let off := (s.pages.segSize - 8 * (s.us.toInt + 1) : Int).toNat
    ∃ t, exec (.pshDat a1) s = .next t ∧ t.data.word off = s.fieldSlot a1 ∧ SameDataOutside s t off ∧
      t.us = s.us + 1 ∧ WentOn s t 5 ∧
      t = { s with data := t.data, us := t.us, pc := t.pc, steps := t.steps }

/-- 42_indirect_stack.md R146; 20_memory.md R51: POP_DAT writes the youngest user-stack entry, at byte offset
`SEG_SIZE - 8 * us`, to slot `a1`, counts it off, and changes nothing else. -/
def Obligations.PopLoadsTheYoungestUserEntry : Prop :=
  ∀ (s : State) (a1 : SlotAddr), FieldOk s a1 → 0 < s.us.toInt → s.us.toInt ≤ (s.pages.usCap : Int) →
    let off := (s.pages.segSize - 8 * s.us.toInt : Int).toNat
    ∃ t, exec (.popDat a1) s = .next t ∧ t.fieldSlot a1 = s.data.word off ∧
      SameDataOutside s t (8 * a1.toInt).toNat ∧ t.us = s.us - 1 ∧ WentOn s t 5 ∧
      t = { s with data := t.data, us := t.us, pc := t.pc, steps := t.steps }

/-- 42_indirect_stack.md R145, R146 (last in, first out): from a good state, a push and then a pop give the
pushed slot's value to the popped slot and the depth back, every other slot unchanged. -/
def Obligations.PopReturnsWhatPushStored : Prop :=
  ∀ (opc : Mnemonic → Byte) (s t u : State) (a b : SlotAddr), s.Inv opc → FieldOk s a → FieldOk s b →
    s.us.toInt < (s.pages.usCap : Int) →
    exec (.pshDat a) s = .next t → exec (.popDat b) t = .next u →
    u.fieldSlot b = s.fieldSlot a ∧ u.us = s.us ∧
      ∀ c : Int, SlotOk s.pages.dataSize c → c ≠ b.toInt → u.slot c = s.slot c

/-- 20_memory.md R50, R51; 60_exceptions.md R311 (e) to (h): a push or call on a full stack and a pop or
return on an empty one raise OVERFLOW with nothing written; for JMP_SUB whatever the target. -/
def Obligations.FullAndEmptyStacksOverflow : Prop :=
  ∀ s : State,
    (s.us.toInt = (s.pages.usCap : Int) → ∀ a, FieldOk s a → TakesOverflow (exec (.pshDat a) s) s) ∧
    (s.us = 0 → ∀ a, FieldOk s a → TakesOverflow (exec (.popDat a) s) s) ∧
    (s.cs.toInt = (s.pages.csCap : Int) → ∀ c, TakesOverflow (exec (.jmpSub c) s) s) ∧
    (s.cs = 0 → TakesOverflow (exec .retSub s) s)

/-! Control transfer. -/

/-- 43_control.md R161; 20_memory.md R50: with room on the call stack and a target in the Jump Table,
JMP_SUB stores `pc + 5` at byte offset `DATA_SIZE + CS_SIZE - 8 * (cs + 1)`, counts the entry, goes to the
target, and changes nothing else. -/
def Obligations.CallPushesTheReturnAddress : Prop :=
  ∀ (s : State) (c : CodeAddr), 0 ≤ s.cs.toInt → s.cs.toInt < (s.pages.csCap : Int) → InJT s c.toInt →
    let off := (s.pages.dataSize + s.pages.csSize - 8 * (s.cs.toInt + 1) : Int).toNat
    ∃ t, exec (.jmpSub c) s = .next t ∧ t.data.word off = wrap64 (s.pc.toInt + 5) ∧
      SameDataOutside s t off ∧ t.cs = s.cs + 1 ∧ t.pc = c ∧ t.steps = s.steps + 1 ∧
      t = { s with data := t.data, cs := t.cs, pc := t.pc, steps := t.steps }

/-- 43_control.md R162; 20_memory.md R50: with an entry whose address is in the Jump Table, RET_SUB goes to
it, counts it off, and changes nothing else, the entry's bytes included. -/
def Obligations.ReturnPopsTheReturnAddress : Prop :=
  ∀ s : State, 0 < s.cs.toInt → s.cs.toInt ≤ (s.pages.csCap : Int) →
    let r := (s.data.word (s.pages.dataSize + s.pages.csSize - 8 * s.cs.toInt : Int).toNat).toInt
    InJT s r →
    ∃ t, exec .retSub s = .next t ∧ t.pc = BitVec.ofInt 32 r ∧ t.cs = s.cs - 1 ∧
      t.steps = s.steps + 1 ∧ t = { s with cs := t.cs, pc := t.pc, steps := t.steps }

/-- 43_control.md R161, R162, R173: from a good state, a call and then a return come back to the instruction
after the call with the depth it had, when that instruction is in the Jump Table; the data slots are
unchanged. -/
def Obligations.ReturnComesBackAfterTheCall : Prop :=
  ∀ (opc : Mnemonic → Byte) (s t u : State) (c : CodeAddr), s.Inv opc → s.cs.toInt < (s.pages.csCap : Int) → InJT s c.toInt →
    InJT s (s.pc.toInt + 5) →
    exec (.jmpSub c) s = .next t → exec .retSub t = .next u →
    u.pc = BitVec.ofInt 32 (s.pc.toInt + 5) ∧ u.cs = s.cs ∧ u.fault = s.fault ∧
      u.steps = s.steps + 2 ∧ ∀ a : Int, SlotOk s.pages.dataSize a → u.slot a = s.slot a

/-- 43_control.md R160, R161, R162, R163; 44_system.md R198; 60_exceptions.md R312, R313: a target that is no
Jump Table member raises INVALID_OP in JMP_ADR, JMP_SUB and RET_SUB and INVALID_ERROR_HANDLER in ERR_ADR,
never absorbed, with nothing pushed, popped, installed or moved. -/
def Obligations.NonMemberTargetsAreFatal : Prop :=
  ∀ s : State,
    (∀ c : CodeAddr, ¬InJT s c.toInt →
      TakesFatal (exec (.jmpAdr c) s) s .invalidOp ∧
      (s.cs.toInt < (s.pages.csCap : Int) → TakesFatal (exec (.jmpSub c) s) s .invalidOp) ∧
      TakesFatal (exec (.errAdr c) s) s .invalidErrorHandler) ∧
    (0 < s.cs.toInt → s.cs.toInt ≤ (s.pages.csCap : Int) →
      ¬InJT s (s.data.word (s.pages.dataSize + s.pages.csSize - 8 * s.cs.toInt : Int).toNat).toInt →
      TakesFatal (exec .retSub s) s .invalidOp)

/-- 43_control.md R163: JMP_ADR goes to a target in the Jump Table and changes nothing else. -/
def Obligations.JumpGoesToAMember : Prop :=
  ∀ (s : State) (c : CodeAddr), InJT s c.toInt →
    ∃ t, exec (.jmpAdr c) s = .next t ∧ t.pc = c ∧ WentTo s t c.toInt

/-- 43_control.md R172, R164, R165: BZR_DAT is taken on a zero slot, BNZ_DAT on any other; taken, not taken
and taken to a non-member. -/
def Obligations.OneSlotBranches : Prop :=
  ∀ (s : State) (a1 : SlotAddr) (d : Disp), FieldOk s a1 → let x := (s.fieldSlot a1).toInt
    BranchesAs (exec (.bzrDat a1 d) s) s d 6 (x = 0) ∧
    BranchesAs (exec (.bnzDat a1 d) s) s d 6 (x ≠ 0)

/-- 43_control.md R172, R166 to R171: the six two-slot branches compare signed 64-bit values. -/
def Obligations.TwoSlotBranches : Prop :=
  ∀ (s : State) (a1 a2 : SlotAddr) (d : Disp), FieldOk s a1 → FieldOk s a2 →
    let x := (s.fieldSlot a1).toInt
    let y := (s.fieldSlot a2).toInt
    BranchesAs (exec (.bgtDat a1 a2 d) s) s d 10 (x > y) ∧
    BranchesAs (exec (.bltDat a1 a2 d) s) s d 10 (x < y) ∧
    BranchesAs (exec (.bgeDat a1 a2 d) s) s d 10 (x ≥ y) ∧
    BranchesAs (exec (.bleDat a1 a2 d) s) s d 10 (x ≤ y) ∧
    BranchesAs (exec (.beqDat a1 a2 d) s) s d 10 (x = y) ∧
    BranchesAs (exec (.bneDat a1 a2 d) s) s d 10 (x ≠ y)

/-! System instructions. -/

/-- 44_system.md R192, R194, R195: FIN_IMD, and FIZ_DAT on a zero slot, set `pc <- pcs` and `finished`;
FIZ_DAT on another slot goes on; nothing else changes. -/
def Obligations.FinishGoesToThePrologueAddress : Prop :=
  ∀ s : State,
    let done := fun t : State => t.pc = s.pcs ∧ t.finished = true ∧ t.steps = s.steps + 1 ∧
      t = { s with pc := t.pc, steps := t.steps, finished := t.finished }
    (∃ t, exec .finImd s = .next t ∧ done t) ∧
    (∀ a1, FieldOk s a1 →
      (s.fieldSlot a1 = 0 → ∃ t, exec (.fizDat a1) s = .next t ∧ done t) ∧
      (s.fieldSlot a1 ≠ 0 → ∃ t, exec (.fizDat a1) s = .next t ∧ WentOn s t 5 ∧ OnlyPcSteps s t))

/-- 44_system.md R193, R196, R197: STP_IMD, and STZ_DAT on a zero slot, advance and set `stopped`; STZ_DAT on
another slot only advances; nothing else changes. -/
def Obligations.StopAdvancesAndSetsStopped : Prop :=
  ∀ s : State,
    let paused := fun (t : State) (len : Nat) => WentOn s t len ∧ t.stopped = true ∧
      t = { s with pc := t.pc, steps := t.steps, stopped := t.stopped }
    (∃ t, exec .stpImd s = .next t ∧ paused t 1) ∧
    (∀ a1, FieldOk s a1 →
      (s.fieldSlot a1 = 0 → ∃ t, exec (.stzDat a1) s = .next t ∧ paused t 5) ∧
      (s.fieldSlot a1 ≠ 0 → ∃ t, exec (.stzDat a1) s = .next t ∧ WentOn s t 5 ∧ OnlyPcSteps s t))

/-- 44_system.md R198, R199: ERR_ADR with a target in the Jump Table installs it as `pce` and advances;
SET_PCS records the address of the next instruction as `pcs` and advances; nothing else changes. -/
def Obligations.ControlRegisterInstructions : Prop :=
  ∀ s : State,
    (∀ c : CodeAddr, InJT s c.toInt →
      ∃ t, exec (.errAdr c) s = .next t ∧ t.pce = c ∧ WentOn s t 5 ∧
        t = { s with pc := t.pc, steps := t.steps, pce := t.pce }) ∧
    (∃ t, exec .setPcs s = .next t ∧ t.pcs = s.pc + 1 ∧ WentOn s t 1 ∧
      t = { s with pc := t.pc, steps := t.steps, pcs := t.pcs })

/-! External functions. -/

/-- 45_external.md R223 to R228: each of the six instructions reads its input slots, calls the host in its
shape, stores the result where it has a destination, and advances; only A, B, the host context and the
destination slot change, as the host left them. The host is the default one (log entries 3, 4). -/
def Obligations.ExternalInstructionsCallTheHost : Prop :=
  ∀ (s : State) (f : FnNum),
    let host := fun c => hostAnswer defaultHost c s
    (∃ t, exec (.extFun f) s = .next t ∧ CalledHost s t (host (.host0 f)).2 3) ∧
    (∀ a1, FieldOk s a1 → let x := s.fieldSlot a1
      (∃ t, exec (.extFunDat f a1) s = .next t ∧ CalledHost s t (host (.host1 f x)).2 7) ∧
      (∃ t, exec (.extFunRet f a1) s = .next t ∧
        CalledHostInto s t (host (.host0 f)) a1.toInt 7) ∧
      (∀ a2, FieldOk s a2 → let y := s.fieldSlot a2
        (∃ t, exec (.extFunDat2 f a1 a2) s = .next t ∧ CalledHost s t (host (.host2 f x y)).2 11) ∧
        (∃ t, exec (.extFunRetDat f a1 a2) s = .next t ∧
          CalledHostInto s t (host (.host1 f y)) a1.toInt 11) ∧
        (∀ a3, FieldOk s a3 → let z := s.fieldSlot a3
          ∃ t, exec (.extFunRetDat2 f a1 a2 a3) s = .next t ∧
            CalledHostInto s t (host (.host2 f y z)) a1.toInt 15)))

/-- 45_external.md R210, R211, R213, R223 to R228: whatever the host is, each of the six instructions reads
its inputs, calls the host in its shape, and advances; A, B and the host context are as the host left them,
the three forms without `RET` change no byte of memory, the three with `RET` store the host's result in the
destination slot and change no other byte, and nothing else changes. Two points are the model's: the draw a
host is given is a function of the step count, the call and what the host sees (log entry 4); and executing
a term with a slot field that fails the slot check, which no decoding gives, takes OVERFLOW as its decoding
does and the host is not heard (log entry 12; 20_memory.md R46; 60_exceptions.md R311, R316). -/
def Obligations.AnyHostIsConfined : Prop :=
  ∀ (h : HostFn) (s : State) (f : FnNum),
    let host := fun c => h (Config.hostDraw s.steps c s.hostView) c s.hostView
    (∃ t, execWith h (.extFun f) s = .next t ∧ CalledHost s t (host (.host0 f)).2 3) ∧
    (∀ a1, FieldOk s a1 → let x := s.fieldSlot a1
      (∃ t, execWith h (.extFunDat f a1) s = .next t ∧ CalledHost s t (host (.host1 f x)).2 7) ∧
      (∃ t, execWith h (.extFunRet f a1) s = .next t ∧
        CalledHostInto s t (host (.host0 f)) a1.toInt 7) ∧
      (∀ a2, FieldOk s a2 → let y := s.fieldSlot a2
        (∃ t, execWith h (.extFunDat2 f a1 a2) s = .next t ∧
          CalledHost s t (host (.host2 f x y)).2 11) ∧
        (∃ t, execWith h (.extFunRetDat f a1 a2) s = .next t ∧
          CalledHostInto s t (host (.host1 f y)) a1.toInt 11) ∧
        (∀ a3, FieldOk s a3 → let z := s.fieldSlot a3
          ∃ t, execWith h (.extFunRetDat2 f a1 a2 a3) s = .next t ∧
            CalledHostInto s t (host (.host2 f y z)) a1.toInt 15))) ∧
    (∀ i : Instr, i.mnemonic ∈ hostCallers → (∃ a ∈ i.slots, ¬FieldOk s a) →
      TakesOverflow (execWith h i s) s)

/-- 45_external.md R215: the get functions return `A1..A4` and `B1..B4` and change no state; through
EXT_FUN_RET the value lands in the slot with the registers and the host context unchanged, through EXT_FUN
the call does nothing. The numbers are PRESUMED, the spec's default (log entry 3). -/
def Obligations.GetFunctionsReturnTheRegister : Prop :=
  ∀ (v : HostView) (fn : FnNum) (r : Word),
    (fn, r) ∈ [(0x0100, v.a.r1), (0x0101, v.a.r2), (0x0102, v.a.r3), (0x0103, v.a.r4),
               (0x0104, v.b.r1), (0x0105, v.b.r2), (0x0106, v.b.r3), (0x0107, v.b.r4)] →
    (∀ draw, defaultHost draw (.host0 fn) v = (r, v)) ∧
    ∀ s : State, s.hostView = v →
      (∃ t, exec (.extFun fn) s = .next t ∧ WentOn s t 3 ∧ OnlyPcSteps s t) ∧
      (∀ a1, FieldOk s a1 → ∃ t, exec (.extFunRet fn a1) s = .next t ∧ WroteSlot s t a1.toInt r 7)

/-- 45_external.md R216 to R222: the set functions write one register, or a pair, of one group; clear, copy and
swap; the compare functions answer 1 for true; the combine functions apply or, and, xor to each of the four
pairs in either direction. What is not named is unchanged, and a result not named is 0. The numbers and
conventions are PRESUMED, the spec's default for its parameter HOSTFN (log entry 3). -/
def Obligations.RegisterFunctions : Prop :=
  ∀ (draw : Word) (v : HostView) (x y : Word),
    let pairs := fun (op : Word → Word → Word) (p q : RegGroup) =>
      ({ r1 := op p.r1 q.r1, r2 := op p.r2 q.r2, r3 := op p.r3 q.r3, r4 := op p.r4 q.r4 } : RegGroup)
    (∀ (fn : FnNum) (g : RegGroup),
      (fn, g) ∈ [(0x0110, { v.a with r1 := x }), (0x0111, { v.a with r2 := x }),
                 (0x0112, { v.a with r3 := x }), (0x0113, { v.a with r4 := x })] →
      defaultHost draw (.host1 fn x) v = (0, { v with a := g })) ∧
    (∀ (fn : FnNum) (g : RegGroup),
      (fn, g) ∈ [(0x0116, { v.b with r1 := x }), (0x0117, { v.b with r2 := x }),
                 (0x0118, { v.b with r3 := x }), (0x0119, { v.b with r4 := x })] →
      defaultHost draw (.host1 fn x) v = (0, { v with b := g })) ∧
    defaultHost draw (.host2 0x0114 x y) v = (0, { v with a := { v.a with r1 := x, r2 := y } }) ∧
    defaultHost draw (.host2 0x0115 x y) v = (0, { v with a := { v.a with r3 := x, r4 := y } }) ∧
    defaultHost draw (.host2 0x011a x y) v = (0, { v with b := { v.b with r1 := x, r2 := y } }) ∧
    defaultHost draw (.host2 0x011b x y) v = (0, { v with b := { v.b with r3 := x, r4 := y } }) ∧
    defaultHost draw (.host0 0x0120) v = (0, { v with a := ⟨0, 0, 0, 0⟩ }) ∧
    defaultHost draw (.host0 0x0121) v = (0, { v with b := ⟨0, 0, 0, 0⟩ }) ∧
    defaultHost draw (.host0 0x0122) v = (0, { v with a := ⟨0, 0, 0, 0⟩, b := ⟨0, 0, 0, 0⟩ }) ∧
    defaultHost draw (.host0 0x0123) v = (0, { v with a := v.b }) ∧
    defaultHost draw (.host0 0x0124) v = (0, { v with b := v.a }) ∧
    defaultHost draw (.host0 0x0128) v = (0, { v with a := v.b, b := v.a }) ∧
    (∀ g fn, (g, fn) ∈ [(v.a, (0x0125 : FnNum)), (v.b, 0x0126)] →
      defaultHost draw (.host0 fn) v =
        (if g.r1 = 0 ∧ g.r2 = 0 ∧ g.r3 = 0 ∧ g.r4 = 0 then 1 else 0, v)) ∧
    defaultHost draw (.host0 0x0127) v =
      (if v.a.r1 = v.b.r1 ∧ v.a.r2 = v.b.r2 ∧ v.a.r3 = v.b.r3 ∧ v.a.r4 = v.b.r4 then 1 else 0, v) ∧
    (∀ (fnA fnB : FnNum) (op : Word → Word → Word),
      (fnA, fnB, op) ∈ [(0x0129, 0x012a, (· ||| ·)), (0x012b, 0x012c, (· &&& ·)),
                        (0x012d, 0x012e, (· ^^^ ·))] →
      defaultHost draw (.host0 fnA) v = (0, { v with a := pairs op v.a v.b }) ∧
      defaultHost draw (.host0 fnB) v = (0, { v with b := pairs op v.b v.a }))

/-- 45_external.md R212, R229: a function that is no built-in, has no fixture entry, and is neither the echo
function nor the designated increment function returns 0 and changes nothing, when its call is not the
clearing one of R232. Which numbers the fixture knows is the model's choice (log entries 5, 6). The echo
function changes nothing, whatever the table holds. -/
def Obligations.UnknownFunctionReturnsZero : Prop :=
  (∀ (draw : Word) (c : HostCall) (v : HostView), builtin v c = none →
    (∀ e ∈ v.ctx.fixture, e.fn ≠ c.fn.zeroExtend 32) →
    ¬(c.arity = 1 ∧ c.fn = 1) → c.fn.zeroExtend 32 ≠ v.ctx.incrFn → clearsFixture c v.ctx = false →
    defaultHost draw c v = (0, v)) ∧
  (∀ (draw x : Word) (v : HostView), (defaultHost draw (.host1 1 x) v).2 = v)

/-- 45_external.md R230, R231, R232: a call of the fixture side other than echo leaves A and B. If it is the
clearing call of a table with entries (log entry 5), the table is empty afterwards. If not, it returns the
value at the cursor of its entry if it has one, and a call of the increment function, with an entry of its
own or without, only clears `first_call` the first time, and afterwards moves the cursor of every other
entry on by one, looping or clamping at the end; any other call leaves the table. The key of a call and the
order of the effects are the model's choice (log entry 6). -/
def Obligations.FixtureLookupAndAdvance : Prop :=
  ∀ (draw : Word) (c : HostCall) (v : HostView),
    let key := c.fn.zeroExtend 32
    builtin v c = none → ¬(c.arity = 1 ∧ c.fn = 1) → FixtureOk v.ctx.fixture →
    let out := defaultHost draw c v
    out.2.a = v.a ∧ out.2.b = v.b ∧
    if !v.ctx.fixture.isEmpty && Config.isBalanceQueryVariant c.arity c.fn v.ctx.incrFn then
      out.2.ctx.fixture = []
    else
      (∀ e ∈ v.ctx.fixture, e.fn = key → ∀ hc : e.cursor.toNat < e.values.length,
        out.1 = e.values[e.cursor.toNat]) ∧
      (key ≠ v.ctx.incrFn → out.2 = v) ∧
      (key = v.ctx.incrFn → v.ctx.firstCall = true →
        out.2 = { v with ctx := { v.ctx with firstCall := false } }) ∧
      (key = v.ctx.incrFn → v.ctx.firstCall = false →
        ∃ moved : List FixtureEntry, out.2 = { v with ctx := { v.ctx with fixture := moved } } ∧
          moved.length = v.ctx.fixture.length ∧
          ∀ (n : Nat) (x y : FixtureEntry), v.ctx.fixture[n]? = some x → moved[n]? = some y →
            y = { x with cursor := y.cursor } ∧
            (x.fn = key → y.cursor = x.cursor) ∧
            (x.fn ≠ key → x.cursor.toNat + 1 < x.values.length →
              y.cursor.toNat = x.cursor.toNat + 1) ∧
            (x.fn ≠ key → x.cursor.toNat + 1 = x.values.length →
              y.cursor = if x.loop then 0 else x.cursor))

/-! The Jump Table. -/

/-- 47_jump_table_builder.md R250, R251, R254: after `rebuild_jump_table`, under any opcode map, a target is
accepted exactly when it is an offset the decode sweep from 0 comes to and at which a whole valid
instruction decodes; nothing but the table and its bit is written. -/
def Obligations.JumpTableIsTheSweep : Prop :=
  ∀ (opc : Mnemonic → Byte) (s : State), let t := rebuildJumpTable opc s
    t = { s with jt := t.jt, jtValid := true } ∧
    ∀ x : Int, InJT t x ↔
      ∃ o : Nat, x = (o : Int) ∧ SweepComesTo opc s.codeView o ∧ DecodesAt opc s.codeView o

/-- 47_jump_table_builder.md R257, under any opcode map: every member lies in the Code Segment; 0 is a member
of a table that is not empty, and the table is empty exactly when nothing decodes at 0; no member lies
strictly inside another member's instruction; what follows a member is a member or the offset where the
sweep halts; at most `CODE_SIZE` members. -/
def Obligations.JumpTableProperties : Prop :=
  ∀ (opc : Mnemonic → Byte) (v : CodeView),
    (∀ o ∈ jumpTable opc v, o < v.codeSize ∧ DecodesAt opc v o) ∧
    (jumpTable opc v ≠ [] → 0 ∈ jumpTable opc v) ∧
    (jumpTable opc v = [] ↔ ¬DecodesAt opc v 0) ∧
    (∀ o ∈ jumpTable opc v, ∀ i len, decodeWith opc v o = .ok (i, len) →
      (∀ m ∈ jumpTable opc v, ¬(o < m ∧ m < o + len)) ∧
      (o + len ∈ jumpTable opc v ∨ ¬DecodesAt opc v (o + len))) ∧
    (jumpTable opc v).length ≤ v.codeSize

/-! The operator, the Run Driver and the Snapshot Codec. -/

/-- 20_memory.md R60, R61; 10_state.md R25: a load or a resize is done exactly when it fits; what it makes is
good; a load writes its bytes and no others; code loads and every resize make the Jump Table invalid; a code
resize keeps the common prefix and zero-fills; a resize of the Data Segment zeroes it and empties both
stacks; every register, flag and the host context are as they were. The refusal of a page count outside its
bound is the model's (log entry 10). -/
def Obligations.OperatorLoadsAndResizes : Prop :=
  ∀ (opc : Mnemonic → Byte) (s : State), s.Inv opc →
    (∀ off bs, s.pages.codeSize < off + bs.length → loadCode off bs s = none) ∧
    (∀ off bs, off + bs.length ≤ s.pages.codeSize → ∃ t, loadCode off bs s = some t ∧ t.Inv opc ∧
      t.code.readBytes off bs.length = bs ∧
      (∀ k, (k < off ∨ off + bs.length ≤ k) → t.code.read k = s.code.read k) ∧
      t = { s with code := t.code, jtValid := false }) ∧
    (∀ off bs, s.pages.segSize < off + bs.length → loadData off bs s = none) ∧
    (∀ off bs, off + bs.length ≤ s.pages.segSize → ∃ t, loadData off bs s = some t ∧ t.Inv opc ∧
      t.data.readBytes off bs.length = bs ∧
      (∀ k, (k < off ∨ off + bs.length ≤ k) → t.data.read k = s.data.read k) ∧
      t = { s with data := t.data }) ∧
    (∀ r n, ¬(s.pages.set r n).InBounds → resize r n s = none) ∧
    (∀ r n, (s.pages.set r n).InBounds → ∃ t, resize r n s = some t ∧ t.Inv opc ∧
      t.pages = s.pages.set r n ∧
      (r = .code →
        (∀ k, k < s.pages.codeSize → k < t.pages.codeSize → t.code.read k = s.code.read k) ∧
        (∀ k, s.pages.codeSize ≤ k → t.code.read k = 0) ∧
        t = { s with code := t.code, pages := t.pages, jtValid := false }) ∧
      (r ≠ .code → (∀ k, t.data.read k = 0) ∧
        t = { s with data := t.data, pages := t.pages, jtValid := false, cs := 0, us := 0 }))

/-- 48_run_driver.md R266, R268, R269, R271: for every opcode map and host, a run or continuation is refused
exactly while the machine is finished, faulted or its table invalid, and then nothing changes; with no fuel
it executes nothing and only clears `stopped`; `step 0` with fuel does the same; with fuel left and a step
allowed it takes one unit, makes the engine's step, and ends there with what the tests after the step say. -/
def Obligations.RunsRefusedOrOutOfFuelAtOnce : Prop :=
  ∀ (P : Params) (bps : List Int) (limit : Option Nat) (s : State), s.Inv P.opc →
    let begun := { s with stopped := false }
    ((drive P bps limit s).1 = .refused ↔ s.jtValid = false ∨ s.finished = true ∨ s.faultCode ≠ 0) ∧
    ((drive P bps limit s).1 = .refused → (drive P bps limit s).2 = s) ∧
    (s.jtValid = true → s.finished = false → s.faultCode = 0 →
      (s.host.fuel.toInt ≤ 0 → drive P bps limit s = (.outOfFuel, begun)) ∧
      (0 < s.host.fuel.toInt → limit = some 0 → drive P bps limit s = (.stepLimit, begun)) ∧
      (0 < s.host.fuel.toInt → limit ≠ some 0 →
        ∃ t, engineStep P { begun with host := { s.host with fuel := s.host.fuel - 1 } } = .next t ∧
          (∀ f, t.fault = some f → drive P bps limit s = (.faulted f, t)) ∧
          (t.fault = none → t.finished = true → drive P bps limit s = (.finished, t)) ∧
          (t.fault = none → t.finished = false → t.stopped = true →
            drive P bps limit s = (.stopped, t)) ∧
          (t.fault = none → t.finished = false → t.stopped = false → t.host.fuel.toInt ≤ 0 →
            drive P bps limit s = (.outOfFuel, t)) ∧
          (t.fault = none → t.finished = false → t.stopped = false → 0 < t.host.fuel.toInt →
            t.pc.toInt ∈ bps → drive P bps limit s = (.breakpoint, t))))

/-- 48_run_driver.md R268, R271, R272, R274: for every opcode map and every host that leaves the Fixture Table
a finite map, a run from a good state that is not refused takes some number of rounds, each one unit of fuel
and one step of the engine, going on between them, and no more than its limit; and its outcome is what the
last state shows: the latch, the finished or stopped flag, no fuel, a breakpoint at `pc`, or the steps of
the limit taken; never stuck. Every run ends if the host puts no fuel back. With the default host the fuel
taken is the number of rounds: that the host leaves the fuel is the model's choice (log entry 4). -/
def Obligations.RunsEndAsTheirOutcomeSays : Prop :=
  ∀ (P : Params) (bps : List Int) (limit : Option Nat) (s t : State) (e : RunEnd),
    HostKeepsTable P.host → s.Inv P.opc → drive P bps limit s = (e, t) → e ≠ .refused →
    t.Inv P.opc ∧
    (HostPutsNoFuelBack P.host → e ≠ .running) ∧
    (∀ r, e ≠ .stuck r) ∧
    ∃ n : Nat, TookRounds P bps n { s with stopped := false } t ∧
      (∀ l, limit = some l → n ≤ l) ∧
      (P.host = defaultHost → s.host.fuel.toInt - t.host.fuel.toInt = (n : Int)) ∧
      (0 < s.host.fuel.toInt → limit ≠ some 0 → 1 ≤ n) ∧
      (e = .finished → t.fault = none ∧ t.finished = true ∧ t.pc = t.pcs) ∧
      (e = .stopped → t.fault = none ∧ t.finished = false ∧ t.stopped = true) ∧
      (∀ f, e = .faulted f → t.fault = some f) ∧
      ((∀ f, e ≠ .faulted f) → t.fault = none) ∧
      (e = .outOfFuel → t.host.fuel.toInt ≤ 0 ∧ t.finished = false ∧ t.stopped = false) ∧
      (e = .breakpoint → t.pc.toInt ∈ bps ∧ t.finished = false ∧ t.stopped = false) ∧
      (e = .stepLimit → limit = some n ∧ t.finished = false ∧ t.stopped = false)

/-- 49_snapshot_codec.md R287: the length of a snapshot. -/
def Obligations.SnapshotLength : Prop :=
  ∀ s : State,
    (save s).length = 121 + 512 * s.pages.code + 12 +
      (512 * s.pages.data + 256 * s.pages.cs + 256 * s.pages.us) + 8 +
      (s.host.fixture.map (fun e => 21 + 8 * e.values.length)).sum

/-- 49_snapshot_codec.md R294, R295, R296: a snapshot of a good state loads, on any instance, to that state
with `stopped`, `finished` and the latch cleared and the Jump Table rebuilt; and what `load` accepts, with
flag bytes of 0 or 1 and entries in ascending order, `save` writes again byte for byte. -/
def Obligations.LoadOfSaveIsTheState : Prop :=
  (∀ (opc opc' : Mnemonic → Byte) (s s₀ : State), s.Inv opc →
    load opc' (save s) s₀ = some
      { s with stopped := false, finished := false, fault := none
               jt := jumpTable opc' s.codeView, jtValid := true }) ∧
  (∀ (opc : Mnemonic → Byte) (b : List Byte) (s₀ t : State), load opc b s₀ = some t →
    PlainStream b t.pages t.host.fixture.length → save t = b)

/-- 49_snapshot_codec.md R292, R295: whatever stream `load` accepts, on whatever instance, leaves a good
state, runnable, with its status cleared and its Jump Table valid. -/
def Obligations.LoadAcceptsOnlyGoodStates : Prop :=
  ∀ (opc : Mnemonic → Byte) (stream : List Byte) (s₀ t : State), load opc stream s₀ = some t →
    t.Inv opc ∧ t.jtValid = true ∧ t.stopped = false ∧ t.finished = false ∧ t.faultCode = 0

/-- 49_snapshot_codec.md R297: a run that may be continued, saved, loaded on this or any other instance with
the same opcode map and host, given fuel if needed, and continued, ends as the continuation without the save
and the load, with the same outcome and the same state; so it does after any number of rounds and with any
limit. For a host that answers draws, that the two runs are given the same draws is the model's choice (log
entry 4): a draw is a function of the step count, the call and what the host sees, all of it in the
snapshot, where two runs of the hardware may be given two values. -/
def Obligations.ResumptionAfterReloadIsExact : Prop :=
  ∀ (P : Params) (bps : List Int) (s s₀ : State), s.Inv P.opc → s.jtValid = true →
    s.finished = false → s.fault = none →
    ∃ t, load P.opc (save s) s₀ = some t ∧
      cont P bps t = cont P bps s ∧
      (∀ fuel, cont P bps (setFuel fuel t) = cont P bps (setFuel fuel s)) ∧
      (∀ rounds limit fuel, driveFor P bps rounds limit (setFuel fuel t) =
        driveFor P bps rounds limit (setFuel fuel s)) ∧
      (s.stopped = false → t = s)
end

