-- ==== Sys2Proof/Laws/Memory.lean ====
section
/-! SUPPORT. The laws of byte memory: a read after a write, the canonical form kept by every operation,
equal reads make equal memories, and little-endian words. -/

namespace Sys2Proof.Machine

/-! Bytes. -/

theorem cellAt_putCell_same (off : Nat) (b : Byte) (cs : List Host.Cell) :
    cellAt (putCell off b cs) off = b := by
  induction cs with
  | nil => simp [putCell, cellAt]
  | cons c rest ih =>
    obtain ⟨k, x⟩ := c
    unfold putCell
    split
    · rename_i h; simp [cellAt, Nat.ne_of_lt h, ih]
    · split <;> simp [cellAt]

theorem cellAt_putCell_other {off a : Nat} (b : Byte) (cs : List Host.Cell) (h : a ≠ off) :
    cellAt (putCell off b cs) a = cellAt cs a := by
  induction cs with
  | nil => simp [putCell, cellAt, h.symm]
  | cons c rest ih =>
    obtain ⟨k, x⟩ := c
    unfold putCell
    split
    · simp only [cellAt, ih]
    · split
      · rename_i hk; subst hk; simp [cellAt, h.symm]
      · simp [cellAt, h.symm]

theorem cellAt_filter_same (off : Nat) (cs : List Host.Cell) :
    cellAt (cs.filter (fun c => c.1 ≠ off)) off = unlisted := by
  induction cs with
  | nil => rfl
  | cons c rest ih =>
    obtain ⟨k, x⟩ := c
    by_cases h : k = off
    · simpa [List.filter_cons, h] using ih
    · simpa [List.filter_cons, h, cellAt] using ih

/-- A filter that keeps the offset keeps what is read there. -/
theorem cellAt_filter_keeps (p : Nat → Bool) (a : Nat) (cs : List Host.Cell) (h : p a = true) :
    cellAt (cs.filter (fun c => p c.1)) a = cellAt cs a := by
  induction cs with
  | nil => rfl
  | cons c rest ih =>
    obtain ⟨k, x⟩ := c
    by_cases hk : p k = true
    · simp [hk, cellAt, ih]
    · have hne : k ≠ a := fun e => hk (e ▸ h)
      simp [hk, cellAt, ih, hne]

@[simp] theorem read_write_same (m : Memory) (off : Nat) (b : Byte) : (m.write off b).read off = b := by
  unfold Memory.write
  split
  · rename_i h; rw [h]; exact cellAt_filter_same off m.cells
  · exact cellAt_putCell_same off b m.cells

theorem read_write_other (m : Memory) {off a : Nat} (b : Byte) (h : a ≠ off) :
    (m.write off b).read a = m.read a := by
  unfold Memory.write
  split
  · exact cellAt_filter_keeps (fun k => decide (k ≠ off)) a m.cells (by simpa using h)
  · exact cellAt_putCell_other b m.cells h

@[simp] theorem read_zeroMemory (a : Nat) : zeroMemory.read a = unlisted := rfl

/-! The canonical form. -/

theorem cellsWf_weaken {lo hi : Nat} {cs : List Host.Cell} (h : lo ≤ hi) (w : cellsWf hi cs = true) :
    cellsWf lo cs = true := by
  cases cs with
  | nil => rfl
  | cons c rest =>
    obtain ⟨k, x⟩ := c
    simp only [cellsWf, Bool.and_eq_true, decide_eq_true_eq] at w ⊢
    exact ⟨⟨h.trans w.1.1, w.1.2⟩, w.2⟩

theorem cellsWf_putCell {lo off : Nat} {b : Byte} {cs : List Host.Cell} (hlo : lo ≤ off)
    (hb : b ≠ unlisted) (w : cellsWf lo cs = true) : cellsWf lo (putCell off b cs) = true := by
  induction cs generalizing lo with
  | nil => simp [putCell, cellsWf, hlo, hb]
  | cons c rest ih =>
    obtain ⟨k, x⟩ := c
    simp only [cellsWf, Bool.and_eq_true, decide_eq_true_eq] at w
    unfold putCell
    split
    · rename_i h
      simp only [cellsWf, Bool.and_eq_true, decide_eq_true_eq]
      exact ⟨w.1, ih h w.2⟩
    · split
      · rename_i h; subst h
        simp only [cellsWf, Bool.and_eq_true, decide_eq_true_eq]
        exact ⟨⟨hlo, hb⟩, w.2⟩
      · rename_i h1 h2
        simp only [cellsWf, Bool.and_eq_true, decide_eq_true_eq]
        exact ⟨⟨hlo, hb⟩, ⟨by omega, w.1.2⟩, w.2⟩

theorem cellsWf_filter {lo : Nat} (p : Nat → Bool) {cs : List Host.Cell} (w : cellsWf lo cs = true) :
    cellsWf lo (cs.filter (fun c => p c.1)) = true := by
  induction cs generalizing lo with
  | nil => rfl
  | cons c rest ih =>
    obtain ⟨k, x⟩ := c
    simp only [cellsWf, Bool.and_eq_true, decide_eq_true_eq] at w
    by_cases hk : p k = true
    · simp only [List.filter_cons, hk, if_true, cellsWf, Bool.and_eq_true, decide_eq_true_eq]
      exact ⟨w.1, ih w.2⟩
    · simp only [List.filter_cons, hk]
      exact cellsWf_weaken (by omega) (ih w.2)

/-- A byte write keeps the canonical form. -/
theorem wf_write {m : Memory} (off : Nat) (b : Byte) (w : m.wf = true) : (m.write off b).wf = true := by
  unfold Memory.write
  split
  · exact cellsWf_filter (fun k => decide (k ≠ off)) w
  · rename_i hb; exact cellsWf_putCell (Nat.zero_le _) hb w

/-- A store of bytes keeps the canonical form. -/
theorem wf_writeBytes {m : Memory} (off : Nat) (bs : List Byte) (w : m.wf = true) :
    (m.writeBytes off bs).wf = true := by
  induction bs generalizing m off with
  | nil => exact w
  | cons b bs ih => exact ih (off + 1) (wf_write off b w)

/-- A store of a word keeps the canonical form. -/
theorem wf_setWord {m : Memory} (off : Nat) (v : Word) (w : m.wf = true) : (m.setWord off v).wf = true :=
  wf_writeBytes off _ w

/-- Truncation keeps the canonical form. -/
theorem wf_truncate {m : Memory} (size : Nat) (w : m.wf = true) : (m.truncate size).wf = true :=
  cellsWf_filter (fun k => decide (k < size)) w

theorem wf_zeroMemory : zeroMemory.wf = true := rfl

/-! Memory inside a segment. -/

theorem mem_putCell {c : Host.Cell} {off : Nat} {b : Byte} {cs : List Host.Cell}
    (h : c ∈ putCell off b cs) : c = (off, b) ∨ c ∈ cs := by
  induction cs with
  | nil => simpa [putCell] using h
  | cons d rest ih =>
    obtain ⟨k, x⟩ := d
    unfold putCell at h
    split at h
    · rcases List.mem_cons.mp h with h | h
      · exact .inr (h ▸ List.mem_cons_self ..)
      · exact (ih h).imp id (List.mem_cons_of_mem _)
    · split at h
      · exact (List.mem_cons.mp h).imp id (List.mem_cons_of_mem _)
      · exact List.mem_cons.mp h

theorem within_write {m : Memory} {size off : Nat} (b : Byte) (h : off < size)
    (w : m.within size = true) : (m.write off b).within size = true := by
  simp only [Memory.within, List.all_eq_true, decide_eq_true_eq] at w ⊢
  intro c hc
  unfold Memory.write at hc
  split at hc
  · exact w c (List.mem_filter.mp hc).1
  · rcases mem_putCell hc with rfl | hc
    · exact h
    · exact w c hc

theorem within_writeBytes {m : Memory} {size : Nat} (off : Nat) (bs : List Byte)
    (h : off + bs.length ≤ size) (w : m.within size = true) : (m.writeBytes off bs).within size = true := by
  induction bs generalizing m off with
  | nil => exact w
  | cons b bs ih =>
    simp only [List.length_cons] at h
    exact ih (off + 1) (by omega) (within_write b (by omega) w)

theorem within_truncate (m : Memory) (size : Nat) : (m.truncate size).within size = true := by
  simp [Memory.within, Memory.truncate]

theorem within_zeroMemory (size : Nat) : zeroMemory.within size = true := rfl

theorem cellAt_of_all_lt {size a : Nat} {cs : List Host.Cell} (h : ∀ c ∈ cs, c.1 < size) (ha : size ≤ a) :
    cellAt cs a = unlisted := by
  induction cs with
  | nil => rfl
  | cons c rest ih =>
    obtain ⟨k, x⟩ := c
    have hk := h (k, x) (List.mem_cons_self ..)
    simp only at hk
    simp only [cellAt, show k ≠ a by omega, if_false]
    exact ih (fun d hd => h d (List.mem_cons_of_mem _ hd))

/-- Past the end of its segment a memory reads as unlisted. -/
theorem read_past {m : Memory} {size a : Nat} (w : m.within size = true) (h : size ≤ a) :
    m.read a = unlisted := by
  simp only [Memory.within, List.all_eq_true, decide_eq_true_eq] at w
  exact cellAt_of_all_lt w h

/-! Equal reads make equal canonical memories. -/

theorem cellAt_below {lo a : Nat} {cs : List Host.Cell} (w : cellsWf lo cs = true) (h : a < lo) :
    cellAt cs a = unlisted := by
  induction cs generalizing lo with
  | nil => rfl
  | cons c rest ih =>
    obtain ⟨k, x⟩ := c
    simp only [cellsWf, Bool.and_eq_true, decide_eq_true_eq] at w
    simp only [cellAt, show k ≠ a by omega, if_false]
    exact ih w.2 (by omega)

theorem cells_ext {lo : Nat} {cs ds : List Host.Cell} (wc : cellsWf lo cs = true)
    (wd : cellsWf lo ds = true) (h : ∀ a, cellAt cs a = cellAt ds a) : cs = ds := by
  induction cs generalizing lo ds with
  | nil =>
    cases ds with
    | nil => rfl
    | cons d rest =>
      obtain ⟨k, x⟩ := d
      simp only [cellsWf, Bool.and_eq_true, decide_eq_true_eq] at wd
      have := h k
      simp only [cellAt, if_true] at this
      exact absurd this.symm wd.1.2
  | cons c rest ih =>
    obtain ⟨k, x⟩ := c
    simp only [cellsWf, Bool.and_eq_true, decide_eq_true_eq] at wc
    cases ds with
    | nil =>
      have := h k
      simp only [cellAt, if_true] at this
      exact absurd this wc.1.2
    | cons d rest' =>
      obtain ⟨k', x'⟩ := d
      simp only [cellsWf, Bool.and_eq_true, decide_eq_true_eq] at wd
      have hk : k = k' := by
        rcases Nat.lt_trichotomy k k' with hlt | heq | hgt
        · have := h k
          rw [cellAt, if_pos rfl, cellAt, if_neg (by omega), cellAt_below wd.2 (by omega)] at this
          exact absurd this wc.1.2
        · exact heq
        · have := h k'
          rw [cellAt, if_neg (by omega), cellAt_below wc.2 (by omega), cellAt, if_pos rfl] at this
          exact absurd this.symm wd.1.2
      subst hk
      have hx : x = x' := by simpa [cellAt] using h k
      subst hx
      refine congrArg _ (ih wc.2 wd.2 fun a => ?_)
      by_cases ha : a < k + 1
      · rw [cellAt_below wc.2 ha, cellAt_below wd.2 ha]
      · have := h a
        rwa [cellAt, if_neg (by omega), cellAt, if_neg (by omega)] at this

/-- Two canonical memories that read the same everywhere are the same data. -/
theorem memory_ext {m n : Memory} (wm : m.wf = true) (wn : n.wf = true) (h : ∀ a, m.read a = n.read a) :
    m = n := by
  cases m; cases n
  exact congrArg Memory.mk (cells_ext wm wn h)

/-! Stores of several bytes, and little-endian words. -/

@[simp] theorem length_bytesLE (n v : Nat) : (bytesLE n v).length = n := by
  induction n generalizing v with
  | zero => rfl
  | succ n ih => simp [bytesLE, ih]

theorem read_writeBytes_outside (m : Memory) {off a : Nat} (bs : List Byte)
    (h : a < off ∨ off + bs.length ≤ a) : (m.writeBytes off bs).read a = m.read a := by
  induction bs generalizing m off with
  | nil => rfl
  | cons b bs ih =>
    simp only [List.length_cons] at h
    rw [Memory.writeBytes, ih (m.write off b) (by omega), read_write_other m b (by omega)]

theorem read_writeBytes_inside (m : Memory) {off k : Nat} (bs : List Byte) (h : k < bs.length) :
    (m.writeBytes off bs).read (off + k) = bs[k] := by
  induction bs generalizing m off k with
  | nil => simp at h
  | cons b bs ih =>
    rw [Memory.writeBytes]
    cases k with
    | zero => rw [Nat.add_zero, read_writeBytes_outside _ bs (by omega)]; simp
    | succ k =>
      rw [show off + (k + 1) = off + 1 + k by omega, ih (m.write off b) (by simpa using h)]
      simp

@[simp] theorem length_readBytes (m : Memory) (off n : Nat) : (m.readBytes off n).length = n := by
  induction n generalizing off with
  | zero => rfl
  | succ n ih => simp [Memory.readBytes, ih]

theorem getElem_readBytes (m : Memory) (off n k : Nat) (h : k < (m.readBytes off n).length) :
    (m.readBytes off n)[k] = m.read (off + k) := by
  induction n generalizing off k with
  | zero => simp [Memory.readBytes] at h
  | succ n ih =>
    cases k with
    | zero => rfl
    | succ k =>
      simp only [Memory.readBytes, List.getElem_cons_succ]
      rw [ih, show off + 1 + k = off + (k + 1) by omega]

/-- Reading back the bytes just stored. -/
theorem readBytes_writeBytes (m : Memory) (off : Nat) (bs : List Byte) :
    (m.writeBytes off bs).readBytes off bs.length = bs := by
  apply List.ext_getElem (by simp)
  intro k h1 h2
  rw [getElem_readBytes, read_writeBytes_inside m bs h2]

/-- A number read little-endian depends only on the bytes read. -/
theorem readLE_congr {m m' : Memory} {off n : Nat} (h : ∀ k < n, m.read (off + k) = m'.read (off + k)) :
    m.readLE off n = m'.readLE off n := by
  induction n generalizing off with
  | zero => rfl
  | succ n ih =>
    simp only [Memory.readLE]
    rw [show m.read off = m'.read off from h 0 (by omega),
      ih (fun k hk => by rw [show off + 1 + k = off + (k + 1) by omega]; exact h (k + 1) (by omega))]

/-- A number read from bytes that are the little-endian bytes of `v` is `v`, cut to their count. -/
theorem readLE_of_bytesLE {m : Memory} {off n v : Nat} (h : m.readBytes off n = bytesLE n v) :
    m.readLE off n = v % 256 ^ n := by
  induction n generalizing off v with
  | zero => simp [Memory.readLE, Nat.mod_one]
  | succ n ih =>
    simp only [Memory.readBytes, bytesLE, List.cons.injEq] at h
    rw [Memory.readLE, h.1, ih h.2, Nat.pow_succ, Nat.mul_comm (256 ^ n) 256, Nat.mod_mul]
    simp

theorem readLE_lt (m : Memory) (off n : Nat) : m.readLE off n < 256 ^ n := by
  induction n generalizing off with
  | zero => simp [Memory.readLE]
  | succ n ih =>
    have h1 := ih (off + 1)
    have h2 := (m.read off).isLt
    simp only [Memory.readLE, Nat.pow_succ]
    omega

/-- The bytes read are the little-endian bytes of the number read. -/
theorem bytesLE_readLE (m : Memory) (off n : Nat) : bytesLE n (m.readLE off n) = m.readBytes off n := by
  induction n generalizing off with
  | zero => rfl
  | succ n ih =>
    have h2 := (m.read off).isLt
    have hb : BitVec.ofNat 8 ((m.read off).toNat + 256 * m.readLE (off + 1) n) = m.read off := by
      apply BitVec.eq_of_toNat_eq
      simp only [BitVec.toNat_ofNat]
      omega
    simp only [Memory.readLE, bytesLE, Memory.readBytes, hb]
    rw [show ((m.read off).toNat + 256 * m.readLE (off + 1) n) / 256 = m.readLE (off + 1) n by omega, ih]

/-- The word just stored is read back. -/
@[simp] theorem word_setWord_same (m : Memory) (off : Nat) (v : Word) : (m.setWord off v).word off = v := by
  have h : (m.setWord off v).readBytes off 8 = bytesLE 8 v.toNat := by
    have := readBytes_writeBytes m off (bytesLE 8 v.toNat)
    rwa [length_bytesLE] at this
  unfold Memory.word
  rw [readLE_of_bytesLE h]
  apply BitVec.eq_of_toNat_eq
  simpa using v.isLt

/-- A store of a word leaves every byte outside its 8 bytes. -/
theorem read_setWord_outside (m : Memory) {off a : Nat} (v : Word) (h : a < off ∨ off + 8 ≤ a) :
    (m.setWord off v).read a = m.read a :=
  read_writeBytes_outside m _ (by simpa using h)

/-- A store of a word leaves every word that does not overlap it. -/
theorem word_setWord_apart (m : Memory) {off a : Nat} (v : Word) (h : a + 8 ≤ off ∨ off + 8 ≤ a) :
    (m.setWord off v).word a = m.word a := by
  unfold Memory.word
  rw [readLE_congr fun k hk => read_setWord_outside m v (by omega)]

/-- Bytes kept by truncation. -/
theorem read_truncate (m : Memory) {size a : Nat} (h : a < size) : (m.truncate size).read a = m.read a :=
  cellAt_filter_keeps (fun k => decide (k < size)) a m.cells (by simpa using h)

end Sys2Proof.Machine
end

