-- ==== Sys2Proof/Laws/Decode.lean ====
section
/-! SUPPORT. What each part of the decoder and the encoder does, said once. -/

namespace Sys2Proof

open Machine (readLE_lt bytesLE_readLE readLE_of_bytesLE length_bytesLE SlotOk)

/-! Opcodes. -/

theorem Mnemonic.mem_all (m : Mnemonic) : m ∈ Mnemonic.all := by cases m <;> decide

/-- No mnemonic is found for a byte that is no opcode, and only then (30_encoding.md R82). -/
theorem mnemonicOf_none {opc : Mnemonic → Byte} {b : Byte} : mnemonicOf opc b = none ↔ ∀ m, opc m ≠ b := by
  simp [mnemonicOf, List.find?_eq_none, Mnemonic.mem_all]

/-- Under an injective map the mnemonic is the one with that opcode (30_encoding.md R81). -/
theorem mnemonicOf_opc {opc : Mnemonic → Byte} (inj : Function.Injective opc) (m : Mnemonic) :
    mnemonicOf opc (opc m) = some m := by
  cases h : mnemonicOf opc (opc m) with
  | none => exact absurd rfl (mnemonicOf_none.mp h m)
  | some n => rw [inj (mnemonicOf_some h)]

/-! Fields. -/

theorem fieldRaw_cases (v : CodeView) (q n : Nat) :
    (q + n ≤ v.codeSize ∧ fieldRaw v q n = .ok (v.code.readLE q n)) ∨
      (v.codeSize < q + n ∧ fieldRaw v q n = .error .overflow) := by
  by_cases h : q + n ≤ v.codeSize
  · exact .inl ⟨h, if_pos h⟩
  · exact .inr ⟨by omega, if_neg h⟩

/-- A field that fits has the bytes of its value in the segment. -/
theorem bytes_of_field {w n : Nat} (hw : 256 ^ n = 2 ^ w) (m : Machine.Memory) (q : Nat) :
    Machine.bytesLE n (BitVec.ofNat w (m.readLE q n)).toNat = m.readBytes q n := by
  rw [BitVec.toNat_ofNat, Nat.mod_eq_of_lt (hw ▸ readLE_lt m q n), bytesLE_readLE]

/-- A value whose bytes stand in the segment is what the field reads. -/
theorem field_of_bytes {w n : Nat} (hw : 256 ^ n = 2 ^ w) {m : Machine.Memory} {q : Nat} {x : BitVec w}
    (h : m.readBytes q n = Machine.bytesLE n x.toNat) : BitVec.ofNat w (m.readLE q n) = x := by
  rw [readLE_of_bytesLE h, hw, Nat.mod_eq_of_lt x.isLt, BitVec.ofNat_toNat, BitVec.setWidth_eq]

/-- All a slot-address field can do (30_encoding.md R76). -/
theorem fieldSA_cases (v : CodeView) (q : Nat) :
    (∃ a, fieldSA v q = .ok a ∧ q + 4 ≤ v.codeSize ∧ SlotOk v.dataSize a.toInt ∧
        v.code.readBytes q 4 = encAddr a) ∨
      (fieldSA v q = .error .overflow ∧
        (v.codeSize < q + 4 ∨ ¬SlotOk v.dataSize (BitVec.ofNat 32 (v.code.readLE q 4)).toInt)) := by
  obtain ⟨h, e⟩ | ⟨h, e⟩ := fieldRaw_cases v q 4
  · by_cases ok : SlotOk v.dataSize (BitVec.ofNat 32 (v.code.readLE q 4)).toInt
    · exact .inl ⟨_, by simp only [fieldSA, e]; exact if_pos ok, h, ok,
        (bytes_of_field (by decide) v.code q).symm⟩
    · exact .inr ⟨by simp only [fieldSA, e]; exact if_neg ok, .inr ok⟩
  · exact .inr ⟨by simp only [fieldSA, e]; rfl, .inl h⟩

/-- All a code-address field can do. -/
theorem fieldCA_cases (v : CodeView) (q : Nat) :
    (∃ c, fieldCA v q = .ok c ∧ q + 4 ≤ v.codeSize ∧ v.code.readBytes q 4 = encAddr c) ∨
      (fieldCA v q = .error .overflow ∧ v.codeSize < q + 4) := by
  obtain ⟨h, e⟩ | ⟨h, e⟩ := fieldRaw_cases v q 4
  · exact .inl ⟨_, by simp only [fieldCA, e]; rfl, h, (bytes_of_field (by decide) v.code q).symm⟩
  · exact .inr ⟨by simp only [fieldCA, e]; rfl, h⟩

/-- All an immediate field can do. -/
theorem fieldImm_cases (v : CodeView) (q : Nat) :
    (∃ x, fieldImm v q = .ok x ∧ q + 8 ≤ v.codeSize ∧ v.code.readBytes q 8 = encImm x) ∨
      (fieldImm v q = .error .overflow ∧ v.codeSize < q + 8) := by
  obtain ⟨h, e⟩ | ⟨h, e⟩ := fieldRaw_cases v q 8
  · exact .inl ⟨_, by simp only [fieldImm, e]; rfl, h, (bytes_of_field (by decide) v.code q).symm⟩
  · exact .inr ⟨by simp only [fieldImm, e]; rfl, h⟩

/-- All a displacement field can do. -/
theorem fieldDisp_cases (v : CodeView) (q : Nat) :
    (∃ d, fieldDisp v q = .ok d ∧ q + 1 ≤ v.codeSize ∧ v.code.readBytes q 1 = encDisp d) ∨
      (fieldDisp v q = .error .overflow ∧ v.codeSize < q + 1) := by
  obtain ⟨h, e⟩ | ⟨h, e⟩ := fieldRaw_cases v q 1
  · exact .inl ⟨_, by simp only [fieldDisp, e]; rfl, h, (bytes_of_field (by decide) v.code q).symm⟩
  · exact .inr ⟨by simp only [fieldDisp, e]; rfl, h⟩

/-- All a function-number field can do. -/
theorem fieldFn_cases (v : CodeView) (q : Nat) :
    (∃ f, fieldFn v q = .ok f ∧ q + 2 ≤ v.codeSize ∧ v.code.readBytes q 2 = encFn f) ∨
      (fieldFn v q = .error .overflow ∧ v.codeSize < q + 2) := by
  obtain ⟨h, e⟩ | ⟨h, e⟩ := fieldRaw_cases v q 2
  · exact .inl ⟨_, by simp only [fieldFn, e]; rfl, h, (bytes_of_field (by decide) v.code q).symm⟩
  · exact .inr ⟨by simp only [fieldFn, e]; rfl, h⟩

/-! Fields whose bytes are known. -/

theorem fieldSA_of_bytes {v : CodeView} {q : Nat} {a : SlotAddr} (fits : q + 4 ≤ v.codeSize)
    (ok : SlotOk v.dataSize a.toInt) (h : v.code.readBytes q 4 = encAddr a) : fieldSA v q = .ok a := by
  have e : BitVec.ofNat 32 (v.code.readLE q 4) = a := field_of_bytes (by decide) h
  have f : fieldRaw v q 4 = .ok (v.code.readLE q 4) := if_pos fits
  simp only [fieldSA, f, ok_bind', e]
  exact if_pos ok
where
  ok_bind' {α β : Type} (x : α) (k : α → Except FaultKind β) : ((.ok x : Except FaultKind α) >>= k) = k x := rfl

theorem fieldCA_of_bytes {v : CodeView} {q : Nat} {c : CodeAddr} (fits : q + 4 ≤ v.codeSize)
    (h : v.code.readBytes q 4 = encAddr c) : fieldCA v q = .ok c := by
  have e : BitVec.ofNat 32 (v.code.readLE q 4) = c := field_of_bytes (by decide) h
  have f : fieldRaw v q 4 = .ok (v.code.readLE q 4) := if_pos fits
  simp only [fieldCA, f]
  exact congrArg Except.ok e

theorem fieldImm_of_bytes {v : CodeView} {q : Nat} {x : Imm} (fits : q + 8 ≤ v.codeSize)
    (h : v.code.readBytes q 8 = encImm x) : fieldImm v q = .ok x := by
  have e : BitVec.ofNat 64 (v.code.readLE q 8) = x := field_of_bytes (by decide) h
  have f : fieldRaw v q 8 = .ok (v.code.readLE q 8) := if_pos fits
  simp only [fieldImm, f]
  exact congrArg Except.ok e

theorem fieldDisp_of_bytes {v : CodeView} {q : Nat} {d : Disp} (fits : q + 1 ≤ v.codeSize)
    (h : v.code.readBytes q 1 = encDisp d) : fieldDisp v q = .ok d := by
  have e : BitVec.ofNat 8 (v.code.readLE q 1) = d := field_of_bytes (by decide) h
  have f : fieldRaw v q 1 = .ok (v.code.readLE q 1) := if_pos fits
  simp only [fieldDisp, f]
  exact congrArg Except.ok e

theorem fieldFn_of_bytes {v : CodeView} {q : Nat} {x : FnNum} (fits : q + 2 ≤ v.codeSize)
    (h : v.code.readBytes q 2 = encFn x) : fieldFn v q = .ok x := by
  have e : BitVec.ofNat 16 (v.code.readLE q 2) = x := field_of_bytes (by decide) h
  have f : fieldRaw v q 2 = .ok (v.code.readLE q 2) := if_pos fits
  simp only [fieldFn, f]
  exact congrArg Except.ok e

/-! NOP runs. -/

/-- What `runLength` counts: that many bytes are `b`, and the next is not, unless there was no more room. -/
theorem runLength_spec (code : Machine.Memory) (b : Byte) (q room : Nat) :
    runLength code b q room ≤ room ∧
      (∀ k < runLength code b q room, code.read (q + k) = b) ∧
      (runLength code b q room < room → code.read (q + runLength code b q room) ≠ b) := by
  induction room generalizing q with
  | zero => simp [runLength]
  | succ n ih =>
    by_cases h : code.read q = b
    · obtain ⟨h1, h2, h3⟩ := ih (q + 1)
      simp only [runLength, h, if_true]
      refine ⟨by omega, fun k hk => ?_, fun hl => ?_⟩
      · cases k with
        | zero => exact h
        | succ k => have := h2 k (by omega); rwa [show q + 1 + k = q + (k + 1) by omega] at this
      · have := h3 (by omega)
        rwa [show q + 1 + runLength code b (q + 1) n = q + (runLength code b (q + 1) n + 1) by omega] at this
    · simp [runLength, h]

/-- The run length is the one number with those properties. -/
theorem runLength_eq {code : Machine.Memory} {b : Byte} {q room n : Nat} (le : n ≤ room)
    (all : ∀ k < n, code.read (q + k) = b) (ends : n < room → code.read (q + n) ≠ b) :
    runLength code b q room = n := by
  obtain ⟨h1, h2, h3⟩ := runLength_spec code b q room
  rcases Nat.lt_trichotomy (runLength code b q room) n with h | h | h
  · exact absurd (all _ h) (h3 (by omega))
  · exact h
  · exact absurd (h2 n h) (ends (by omega))

/-! The decoder. -/

/-- All a decode can do: it ends outside the segment, at an unknown byte, or in the fields of the mnemonic
whose opcode stands there (30_encoding.md R76). -/
theorem decodeWith_cases (opc : Mnemonic → Byte) (v : CodeView) (p : Int) :
    ((p < 0 ∨ (v.codeSize : Int) ≤ p) ∧ decodeWith opc v p = .error .overflow) ∨
      ((0 ≤ p ∧ p < (v.codeSize : Int)) ∧ (∀ m, opc m ≠ v.code.read p.toNat) ∧
        decodeWith opc v p = .error .invalidOp) ∨
      ((0 ≤ p ∧ p < (v.codeSize : Int)) ∧ ∃ m, opc m = v.code.read p.toNat ∧
        decodeWith opc v p = decodeFields opc v p.toNat m) := by
  by_cases h : p < 0 ∨ (v.codeSize : Int) ≤ p
  · exact .inl ⟨h, if_pos h⟩
  · have e : decodeWith opc v p = match mnemonicOf opc (v.code.read p.toNat) with
        | none => .error .invalidOp
        | some m => decodeFields opc v p.toNat m := if_neg h
    cases hm : mnemonicOf opc (v.code.read p.toNat) with
    | none => exact .inr (.inl ⟨by omega, mnemonicOf_none.mp hm, by rw [e, hm]⟩)
    | some m => exact .inr (.inr ⟨by omega, m, mnemonicOf_some hm, by rw [e, hm]⟩)

/-! Bytes of a list laid out one part after another. -/

theorem readBytes_append (m : Machine.Memory) (q a b : Nat) :
    m.readBytes q (a + b) = m.readBytes q a ++ m.readBytes (q + a) b := by
  induction a generalizing q with
  | zero => simp [Machine.Memory.readBytes]
  | succ a ih =>
    rw [show a + 1 + b = (a + b) + 1 by omega]
    simp [Machine.Memory.readBytes, ih, show q + 1 + a = q + (a + 1) by omega]

/-- A list stands at `q` exactly when its first part does and its second part follows. -/
theorem readBytes_eq_append {m : Machine.Memory} {q : Nat} {xs ys : List Byte} :
    m.readBytes q (xs ++ ys).length = xs ++ ys ↔
      m.readBytes q xs.length = xs ∧ m.readBytes (q + xs.length) ys.length = ys := by
  rw [List.length_append, readBytes_append]
  constructor
  · intro h; exact List.append_inj h (by simp)
  · rintro ⟨h1, h2⟩; rw [h1, h2]

/-- The same for a first byte. -/
theorem readBytes_eq_cons {m : Machine.Memory} {q : Nat} {b : Byte} {bs : List Byte} :
    m.readBytes q (b :: bs).length = b :: bs ↔ m.read q = b ∧ m.readBytes (q + 1) bs.length = bs := by
  simp [Machine.Memory.readBytes]

end Sys2Proof
end

