-- ==== Sys2Proof/Laws/State.lean ====
section
/-! SUPPORT. One lemma per field per named update: what each update writes and what it leaves. -/

namespace Sys2Proof.Machine

variable (s : State)

/-! `storeWord` -/

@[simp] theorem storeWord_pc (off : Nat) (v : Word) : (storeWord off v s).pc = s.pc := rfl
@[simp] theorem storeWord_pcs (off : Nat) (v : Word) : (storeWord off v s).pcs = s.pcs := rfl
@[simp] theorem storeWord_pce (off : Nat) (v : Word) : (storeWord off v s).pce = s.pce := rfl
@[simp] theorem storeWord_cs (off : Nat) (v : Word) : (storeWord off v s).cs = s.cs := rfl
@[simp] theorem storeWord_us (off : Nat) (v : Word) : (storeWord off v s).us = s.us := rfl
@[simp] theorem storeWord_steps (off : Nat) (v : Word) : (storeWord off v s).steps = s.steps := rfl
@[simp] theorem storeWord_a (off : Nat) (v : Word) : (storeWord off v s).a = s.a := rfl
@[simp] theorem storeWord_b (off : Nat) (v : Word) : (storeWord off v s).b = s.b := rfl
@[simp] theorem storeWord_stopped (off : Nat) (v : Word) : (storeWord off v s).stopped = s.stopped := rfl
@[simp] theorem storeWord_finished (off : Nat) (v : Word) : (storeWord off v s).finished = s.finished := rfl
@[simp] theorem storeWord_fault (off : Nat) (v : Word) : (storeWord off v s).fault = s.fault := rfl
@[simp] theorem storeWord_code (off : Nat) (v : Word) : (storeWord off v s).code = s.code := rfl
@[simp] theorem storeWord_data (off : Nat) (v : Word) : (storeWord off v s).data = s.data.setWord off v := rfl
@[simp] theorem storeWord_pages (off : Nat) (v : Word) : (storeWord off v s).pages = s.pages := rfl
@[simp] theorem storeWord_jt (off : Nat) (v : Word) : (storeWord off v s).jt = s.jt := rfl
@[simp] theorem storeWord_jtValid (off : Nat) (v : Word) : (storeWord off v s).jtValid = s.jtValid := rfl
@[simp] theorem storeWord_host (off : Nat) (v : Word) : (storeWord off v s).host = s.host := rfl
@[simp] theorem storeWord_codeView (off : Nat) (v : Word) : (storeWord off v s).codeView = s.codeView := rfl

/-! `countCall` -/

@[simp] theorem countCall_pc : (countCall s).pc = s.pc := rfl
@[simp] theorem countCall_pcs : (countCall s).pcs = s.pcs := rfl
@[simp] theorem countCall_pce : (countCall s).pce = s.pce := rfl
@[simp] theorem countCall_cs : (countCall s).cs = s.cs + 1 := rfl
@[simp] theorem countCall_us : (countCall s).us = s.us := rfl
@[simp] theorem countCall_steps : (countCall s).steps = s.steps := rfl
@[simp] theorem countCall_a : (countCall s).a = s.a := rfl
@[simp] theorem countCall_b : (countCall s).b = s.b := rfl
@[simp] theorem countCall_stopped : (countCall s).stopped = s.stopped := rfl
@[simp] theorem countCall_finished : (countCall s).finished = s.finished := rfl
@[simp] theorem countCall_fault : (countCall s).fault = s.fault := rfl
@[simp] theorem countCall_code : (countCall s).code = s.code := rfl
@[simp] theorem countCall_data : (countCall s).data = s.data := rfl
@[simp] theorem countCall_pages : (countCall s).pages = s.pages := rfl
@[simp] theorem countCall_jt : (countCall s).jt = s.jt := rfl
@[simp] theorem countCall_jtValid : (countCall s).jtValid = s.jtValid := rfl
@[simp] theorem countCall_host : (countCall s).host = s.host := rfl
@[simp] theorem countCall_codeView : (countCall s).codeView = s.codeView := rfl
@[simp] theorem countCall_slot (x : Int) : (countCall s).slot x = s.slot x := rfl

/-! `dropCall` -/

@[simp] theorem dropCall_pc : (dropCall s).pc = s.pc := rfl
@[simp] theorem dropCall_pcs : (dropCall s).pcs = s.pcs := rfl
@[simp] theorem dropCall_pce : (dropCall s).pce = s.pce := rfl
@[simp] theorem dropCall_cs : (dropCall s).cs = s.cs - 1 := rfl
@[simp] theorem dropCall_us : (dropCall s).us = s.us := rfl
@[simp] theorem dropCall_steps : (dropCall s).steps = s.steps := rfl
@[simp] theorem dropCall_a : (dropCall s).a = s.a := rfl
@[simp] theorem dropCall_b : (dropCall s).b = s.b := rfl
@[simp] theorem dropCall_stopped : (dropCall s).stopped = s.stopped := rfl
@[simp] theorem dropCall_finished : (dropCall s).finished = s.finished := rfl
@[simp] theorem dropCall_fault : (dropCall s).fault = s.fault := rfl
@[simp] theorem dropCall_code : (dropCall s).code = s.code := rfl
@[simp] theorem dropCall_data : (dropCall s).data = s.data := rfl
@[simp] theorem dropCall_pages : (dropCall s).pages = s.pages := rfl
@[simp] theorem dropCall_jt : (dropCall s).jt = s.jt := rfl
@[simp] theorem dropCall_jtValid : (dropCall s).jtValid = s.jtValid := rfl
@[simp] theorem dropCall_host : (dropCall s).host = s.host := rfl
@[simp] theorem dropCall_codeView : (dropCall s).codeView = s.codeView := rfl
@[simp] theorem dropCall_slot (x : Int) : (dropCall s).slot x = s.slot x := rfl

/-! `countUser` -/

@[simp] theorem countUser_pc : (countUser s).pc = s.pc := rfl
@[simp] theorem countUser_pcs : (countUser s).pcs = s.pcs := rfl
@[simp] theorem countUser_pce : (countUser s).pce = s.pce := rfl
@[simp] theorem countUser_cs : (countUser s).cs = s.cs := rfl
@[simp] theorem countUser_us : (countUser s).us = s.us + 1 := rfl
@[simp] theorem countUser_steps : (countUser s).steps = s.steps := rfl
@[simp] theorem countUser_a : (countUser s).a = s.a := rfl
@[simp] theorem countUser_b : (countUser s).b = s.b := rfl
@[simp] theorem countUser_stopped : (countUser s).stopped = s.stopped := rfl
@[simp] theorem countUser_finished : (countUser s).finished = s.finished := rfl
@[simp] theorem countUser_fault : (countUser s).fault = s.fault := rfl
@[simp] theorem countUser_code : (countUser s).code = s.code := rfl
@[simp] theorem countUser_data : (countUser s).data = s.data := rfl
@[simp] theorem countUser_pages : (countUser s).pages = s.pages := rfl
@[simp] theorem countUser_jt : (countUser s).jt = s.jt := rfl
@[simp] theorem countUser_jtValid : (countUser s).jtValid = s.jtValid := rfl
@[simp] theorem countUser_host : (countUser s).host = s.host := rfl
@[simp] theorem countUser_codeView : (countUser s).codeView = s.codeView := rfl
@[simp] theorem countUser_slot (x : Int) : (countUser s).slot x = s.slot x := rfl

/-! `dropUser` -/

@[simp] theorem dropUser_pc : (dropUser s).pc = s.pc := rfl
@[simp] theorem dropUser_pcs : (dropUser s).pcs = s.pcs := rfl
@[simp] theorem dropUser_pce : (dropUser s).pce = s.pce := rfl
@[simp] theorem dropUser_cs : (dropUser s).cs = s.cs := rfl
@[simp] theorem dropUser_us : (dropUser s).us = s.us - 1 := rfl
@[simp] theorem dropUser_steps : (dropUser s).steps = s.steps := rfl
@[simp] theorem dropUser_a : (dropUser s).a = s.a := rfl
@[simp] theorem dropUser_b : (dropUser s).b = s.b := rfl
@[simp] theorem dropUser_stopped : (dropUser s).stopped = s.stopped := rfl
@[simp] theorem dropUser_finished : (dropUser s).finished = s.finished := rfl
@[simp] theorem dropUser_fault : (dropUser s).fault = s.fault := rfl
@[simp] theorem dropUser_code : (dropUser s).code = s.code := rfl
@[simp] theorem dropUser_data : (dropUser s).data = s.data := rfl
@[simp] theorem dropUser_pages : (dropUser s).pages = s.pages := rfl
@[simp] theorem dropUser_jt : (dropUser s).jt = s.jt := rfl
@[simp] theorem dropUser_jtValid : (dropUser s).jtValid = s.jtValid := rfl
@[simp] theorem dropUser_host : (dropUser s).host = s.host := rfl
@[simp] theorem dropUser_codeView : (dropUser s).codeView = s.codeView := rfl
@[simp] theorem dropUser_slot (x : Int) : (dropUser s).slot x = s.slot x := rfl

/-! `advance` -/

@[simp] theorem advance_pc (len : Nat) : (advance len s).pc = s.pc + BitVec.ofNat 32 len := rfl
@[simp] theorem advance_pcs (len : Nat) : (advance len s).pcs = s.pcs := rfl
@[simp] theorem advance_pce (len : Nat) : (advance len s).pce = s.pce := rfl
@[simp] theorem advance_cs (len : Nat) : (advance len s).cs = s.cs := rfl
@[simp] theorem advance_us (len : Nat) : (advance len s).us = s.us := rfl
@[simp] theorem advance_steps (len : Nat) : (advance len s).steps = s.steps := rfl
@[simp] theorem advance_a (len : Nat) : (advance len s).a = s.a := rfl
@[simp] theorem advance_b (len : Nat) : (advance len s).b = s.b := rfl
@[simp] theorem advance_stopped (len : Nat) : (advance len s).stopped = s.stopped := rfl
@[simp] theorem advance_finished (len : Nat) : (advance len s).finished = s.finished := rfl
@[simp] theorem advance_fault (len : Nat) : (advance len s).fault = s.fault := rfl
@[simp] theorem advance_code (len : Nat) : (advance len s).code = s.code := rfl
@[simp] theorem advance_data (len : Nat) : (advance len s).data = s.data := rfl
@[simp] theorem advance_pages (len : Nat) : (advance len s).pages = s.pages := rfl
@[simp] theorem advance_jt (len : Nat) : (advance len s).jt = s.jt := rfl
@[simp] theorem advance_jtValid (len : Nat) : (advance len s).jtValid = s.jtValid := rfl
@[simp] theorem advance_host (len : Nat) : (advance len s).host = s.host := rfl
@[simp] theorem advance_codeView (len : Nat) : (advance len s).codeView = s.codeView := rfl
@[simp] theorem advance_slot (len : Nat) (x : Int) : (advance len s).slot x = s.slot x := rfl

/-! `jumpTo` -/

@[simp] theorem jumpTo_pc (t : Int) : (jumpTo t s).pc = BitVec.ofInt 32 t := rfl
@[simp] theorem jumpTo_pcs (t : Int) : (jumpTo t s).pcs = s.pcs := rfl
@[simp] theorem jumpTo_pce (t : Int) : (jumpTo t s).pce = s.pce := rfl
@[simp] theorem jumpTo_cs (t : Int) : (jumpTo t s).cs = s.cs := rfl
@[simp] theorem jumpTo_us (t : Int) : (jumpTo t s).us = s.us := rfl
@[simp] theorem jumpTo_steps (t : Int) : (jumpTo t s).steps = s.steps := rfl
@[simp] theorem jumpTo_a (t : Int) : (jumpTo t s).a = s.a := rfl
@[simp] theorem jumpTo_b (t : Int) : (jumpTo t s).b = s.b := rfl
@[simp] theorem jumpTo_stopped (t : Int) : (jumpTo t s).stopped = s.stopped := rfl
@[simp] theorem jumpTo_finished (t : Int) : (jumpTo t s).finished = s.finished := rfl
@[simp] theorem jumpTo_fault (t : Int) : (jumpTo t s).fault = s.fault := rfl
@[simp] theorem jumpTo_code (t : Int) : (jumpTo t s).code = s.code := rfl
@[simp] theorem jumpTo_data (t : Int) : (jumpTo t s).data = s.data := rfl
@[simp] theorem jumpTo_pages (t : Int) : (jumpTo t s).pages = s.pages := rfl
@[simp] theorem jumpTo_jt (t : Int) : (jumpTo t s).jt = s.jt := rfl
@[simp] theorem jumpTo_jtValid (t : Int) : (jumpTo t s).jtValid = s.jtValid := rfl
@[simp] theorem jumpTo_host (t : Int) : (jumpTo t s).host = s.host := rfl
@[simp] theorem jumpTo_codeView (t : Int) : (jumpTo t s).codeView = s.codeView := rfl
@[simp] theorem jumpTo_slot (t : Int) (x : Int) : (jumpTo t s).slot x = s.slot x := rfl

/-! `countStep` -/

@[simp] theorem countStep_pc : (countStep s).pc = s.pc := rfl
@[simp] theorem countStep_pcs : (countStep s).pcs = s.pcs := rfl
@[simp] theorem countStep_pce : (countStep s).pce = s.pce := rfl
@[simp] theorem countStep_cs : (countStep s).cs = s.cs := rfl
@[simp] theorem countStep_us : (countStep s).us = s.us := rfl
@[simp] theorem countStep_steps : (countStep s).steps = s.steps + 1 := rfl
@[simp] theorem countStep_a : (countStep s).a = s.a := rfl
@[simp] theorem countStep_b : (countStep s).b = s.b := rfl
@[simp] theorem countStep_stopped : (countStep s).stopped = s.stopped := rfl
@[simp] theorem countStep_finished : (countStep s).finished = s.finished := rfl
@[simp] theorem countStep_fault : (countStep s).fault = s.fault := rfl
@[simp] theorem countStep_code : (countStep s).code = s.code := rfl
@[simp] theorem countStep_data : (countStep s).data = s.data := rfl
@[simp] theorem countStep_pages : (countStep s).pages = s.pages := rfl
@[simp] theorem countStep_jt : (countStep s).jt = s.jt := rfl
@[simp] theorem countStep_jtValid : (countStep s).jtValid = s.jtValid := rfl
@[simp] theorem countStep_host : (countStep s).host = s.host := rfl
@[simp] theorem countStep_codeView : (countStep s).codeView = s.codeView := rfl
@[simp] theorem countStep_slot (x : Int) : (countStep s).slot x = s.slot x := rfl

/-! `enterHandler` -/

@[simp] theorem enterHandler_pc : (enterHandler s).pc = s.pce := rfl
@[simp] theorem enterHandler_pcs : (enterHandler s).pcs = s.pcs := rfl
@[simp] theorem enterHandler_pce : (enterHandler s).pce = s.pce := rfl
@[simp] theorem enterHandler_cs : (enterHandler s).cs = s.cs := rfl
@[simp] theorem enterHandler_us : (enterHandler s).us = s.us := rfl
@[simp] theorem enterHandler_steps : (enterHandler s).steps = s.steps := rfl
@[simp] theorem enterHandler_a : (enterHandler s).a = s.a := rfl
@[simp] theorem enterHandler_b : (enterHandler s).b = s.b := rfl
@[simp] theorem enterHandler_stopped : (enterHandler s).stopped = s.stopped := rfl
@[simp] theorem enterHandler_finished : (enterHandler s).finished = s.finished := rfl
@[simp] theorem enterHandler_fault : (enterHandler s).fault = s.fault := rfl
@[simp] theorem enterHandler_code : (enterHandler s).code = s.code := rfl
@[simp] theorem enterHandler_data : (enterHandler s).data = s.data := rfl
@[simp] theorem enterHandler_pages : (enterHandler s).pages = s.pages := rfl
@[simp] theorem enterHandler_jt : (enterHandler s).jt = s.jt := rfl
@[simp] theorem enterHandler_jtValid : (enterHandler s).jtValid = s.jtValid := rfl
@[simp] theorem enterHandler_host : (enterHandler s).host = s.host := rfl
@[simp] theorem enterHandler_codeView : (enterHandler s).codeView = s.codeView := rfl
@[simp] theorem enterHandler_slot (x : Int) : (enterHandler s).slot x = s.slot x := rfl

/-! `latchFault` -/

@[simp] theorem latchFault_pc (f : FaultKind) : (latchFault f s).pc = s.pc := rfl
@[simp] theorem latchFault_pcs (f : FaultKind) : (latchFault f s).pcs = s.pcs := rfl
@[simp] theorem latchFault_pce (f : FaultKind) : (latchFault f s).pce = s.pce := rfl
@[simp] theorem latchFault_cs (f : FaultKind) : (latchFault f s).cs = s.cs := rfl
@[simp] theorem latchFault_us (f : FaultKind) : (latchFault f s).us = s.us := rfl
@[simp] theorem latchFault_steps (f : FaultKind) : (latchFault f s).steps = s.steps := rfl
@[simp] theorem latchFault_a (f : FaultKind) : (latchFault f s).a = s.a := rfl
@[simp] theorem latchFault_b (f : FaultKind) : (latchFault f s).b = s.b := rfl
@[simp] theorem latchFault_stopped (f : FaultKind) : (latchFault f s).stopped = s.stopped := rfl
@[simp] theorem latchFault_finished (f : FaultKind) : (latchFault f s).finished = s.finished := rfl
@[simp] theorem latchFault_fault (f : FaultKind) : (latchFault f s).fault = some f := rfl
@[simp] theorem latchFault_code (f : FaultKind) : (latchFault f s).code = s.code := rfl
@[simp] theorem latchFault_data (f : FaultKind) : (latchFault f s).data = s.data := rfl
@[simp] theorem latchFault_pages (f : FaultKind) : (latchFault f s).pages = s.pages := rfl
@[simp] theorem latchFault_jt (f : FaultKind) : (latchFault f s).jt = s.jt := rfl
@[simp] theorem latchFault_jtValid (f : FaultKind) : (latchFault f s).jtValid = s.jtValid := rfl
@[simp] theorem latchFault_host (f : FaultKind) : (latchFault f s).host = s.host := rfl
@[simp] theorem latchFault_codeView (f : FaultKind) : (latchFault f s).codeView = s.codeView := rfl
@[simp] theorem latchFault_slot (f : FaultKind) (x : Int) : (latchFault f s).slot x = s.slot x := rfl

/-! `installHandler` -/

@[simp] theorem installHandler_pc (c : CodeAddr) : (installHandler c s).pc = s.pc := rfl
@[simp] theorem installHandler_pcs (c : CodeAddr) : (installHandler c s).pcs = s.pcs := rfl
@[simp] theorem installHandler_pce (c : CodeAddr) : (installHandler c s).pce = c := rfl
@[simp] theorem installHandler_cs (c : CodeAddr) : (installHandler c s).cs = s.cs := rfl
@[simp] theorem installHandler_us (c : CodeAddr) : (installHandler c s).us = s.us := rfl
@[simp] theorem installHandler_steps (c : CodeAddr) : (installHandler c s).steps = s.steps := rfl
@[simp] theorem installHandler_a (c : CodeAddr) : (installHandler c s).a = s.a := rfl
@[simp] theorem installHandler_b (c : CodeAddr) : (installHandler c s).b = s.b := rfl
@[simp] theorem installHandler_stopped (c : CodeAddr) : (installHandler c s).stopped = s.stopped := rfl
@[simp] theorem installHandler_finished (c : CodeAddr) : (installHandler c s).finished = s.finished := rfl
@[simp] theorem installHandler_fault (c : CodeAddr) : (installHandler c s).fault = s.fault := rfl
@[simp] theorem installHandler_code (c : CodeAddr) : (installHandler c s).code = s.code := rfl
@[simp] theorem installHandler_data (c : CodeAddr) : (installHandler c s).data = s.data := rfl
@[simp] theorem installHandler_pages (c : CodeAddr) : (installHandler c s).pages = s.pages := rfl
@[simp] theorem installHandler_jt (c : CodeAddr) : (installHandler c s).jt = s.jt := rfl
@[simp] theorem installHandler_jtValid (c : CodeAddr) : (installHandler c s).jtValid = s.jtValid := rfl
@[simp] theorem installHandler_host (c : CodeAddr) : (installHandler c s).host = s.host := rfl
@[simp] theorem installHandler_codeView (c : CodeAddr) : (installHandler c s).codeView = s.codeView := rfl
@[simp] theorem installHandler_slot (c : CodeAddr) (x : Int) : (installHandler c s).slot x = s.slot x := rfl

/-! `markPrologue` -/

@[simp] theorem markPrologue_pc : (markPrologue s).pc = s.pc := rfl
@[simp] theorem markPrologue_pcs : (markPrologue s).pcs = s.pc + 1 := rfl
@[simp] theorem markPrologue_pce : (markPrologue s).pce = s.pce := rfl
@[simp] theorem markPrologue_cs : (markPrologue s).cs = s.cs := rfl
@[simp] theorem markPrologue_us : (markPrologue s).us = s.us := rfl
@[simp] theorem markPrologue_steps : (markPrologue s).steps = s.steps := rfl
@[simp] theorem markPrologue_a : (markPrologue s).a = s.a := rfl
@[simp] theorem markPrologue_b : (markPrologue s).b = s.b := rfl
@[simp] theorem markPrologue_stopped : (markPrologue s).stopped = s.stopped := rfl
@[simp] theorem markPrologue_finished : (markPrologue s).finished = s.finished := rfl
@[simp] theorem markPrologue_fault : (markPrologue s).fault = s.fault := rfl
@[simp] theorem markPrologue_code : (markPrologue s).code = s.code := rfl
@[simp] theorem markPrologue_data : (markPrologue s).data = s.data := rfl
@[simp] theorem markPrologue_pages : (markPrologue s).pages = s.pages := rfl
@[simp] theorem markPrologue_jt : (markPrologue s).jt = s.jt := rfl
@[simp] theorem markPrologue_jtValid : (markPrologue s).jtValid = s.jtValid := rfl
@[simp] theorem markPrologue_host : (markPrologue s).host = s.host := rfl
@[simp] theorem markPrologue_codeView : (markPrologue s).codeView = s.codeView := rfl
@[simp] theorem markPrologue_slot (x : Int) : (markPrologue s).slot x = s.slot x := rfl

/-! `terminate` -/

@[simp] theorem terminate_pc : (terminate s).pc = s.pcs := rfl
@[simp] theorem terminate_pcs : (terminate s).pcs = s.pcs := rfl
@[simp] theorem terminate_pce : (terminate s).pce = s.pce := rfl
@[simp] theorem terminate_cs : (terminate s).cs = s.cs := rfl
@[simp] theorem terminate_us : (terminate s).us = s.us := rfl
@[simp] theorem terminate_steps : (terminate s).steps = s.steps := rfl
@[simp] theorem terminate_a : (terminate s).a = s.a := rfl
@[simp] theorem terminate_b : (terminate s).b = s.b := rfl
@[simp] theorem terminate_stopped : (terminate s).stopped = s.stopped := rfl
@[simp] theorem terminate_finished : (terminate s).finished = true := rfl
@[simp] theorem terminate_fault : (terminate s).fault = s.fault := rfl
@[simp] theorem terminate_code : (terminate s).code = s.code := rfl
@[simp] theorem terminate_data : (terminate s).data = s.data := rfl
@[simp] theorem terminate_pages : (terminate s).pages = s.pages := rfl
@[simp] theorem terminate_jt : (terminate s).jt = s.jt := rfl
@[simp] theorem terminate_jtValid : (terminate s).jtValid = s.jtValid := rfl
@[simp] theorem terminate_host : (terminate s).host = s.host := rfl
@[simp] theorem terminate_codeView : (terminate s).codeView = s.codeView := rfl
@[simp] theorem terminate_slot (x : Int) : (terminate s).slot x = s.slot x := rfl

/-! `pause` -/

@[simp] theorem pause_pc (len : Nat) : (pause len s).pc = s.pc + BitVec.ofNat 32 len := rfl
@[simp] theorem pause_pcs (len : Nat) : (pause len s).pcs = s.pcs := rfl
@[simp] theorem pause_pce (len : Nat) : (pause len s).pce = s.pce := rfl
@[simp] theorem pause_cs (len : Nat) : (pause len s).cs = s.cs := rfl
@[simp] theorem pause_us (len : Nat) : (pause len s).us = s.us := rfl
@[simp] theorem pause_steps (len : Nat) : (pause len s).steps = s.steps := rfl
@[simp] theorem pause_a (len : Nat) : (pause len s).a = s.a := rfl
@[simp] theorem pause_b (len : Nat) : (pause len s).b = s.b := rfl
@[simp] theorem pause_stopped (len : Nat) : (pause len s).stopped = true := rfl
@[simp] theorem pause_finished (len : Nat) : (pause len s).finished = s.finished := rfl
@[simp] theorem pause_fault (len : Nat) : (pause len s).fault = s.fault := rfl
@[simp] theorem pause_code (len : Nat) : (pause len s).code = s.code := rfl
@[simp] theorem pause_data (len : Nat) : (pause len s).data = s.data := rfl
@[simp] theorem pause_pages (len : Nat) : (pause len s).pages = s.pages := rfl
@[simp] theorem pause_jt (len : Nat) : (pause len s).jt = s.jt := rfl
@[simp] theorem pause_jtValid (len : Nat) : (pause len s).jtValid = s.jtValid := rfl
@[simp] theorem pause_host (len : Nat) : (pause len s).host = s.host := rfl
@[simp] theorem pause_codeView (len : Nat) : (pause len s).codeView = s.codeView := rfl
@[simp] theorem pause_slot (len : Nat) (x : Int) : (pause len s).slot x = s.slot x := rfl

/-! `setHostView` -/

@[simp] theorem setHostView_pc (v : HostView) : (setHostView v s).pc = s.pc := rfl
@[simp] theorem setHostView_pcs (v : HostView) : (setHostView v s).pcs = s.pcs := rfl
@[simp] theorem setHostView_pce (v : HostView) : (setHostView v s).pce = s.pce := rfl
@[simp] theorem setHostView_cs (v : HostView) : (setHostView v s).cs = s.cs := rfl
@[simp] theorem setHostView_us (v : HostView) : (setHostView v s).us = s.us := rfl
@[simp] theorem setHostView_steps (v : HostView) : (setHostView v s).steps = s.steps := rfl
@[simp] theorem setHostView_a (v : HostView) : (setHostView v s).a = v.a := rfl
@[simp] theorem setHostView_b (v : HostView) : (setHostView v s).b = v.b := rfl
@[simp] theorem setHostView_stopped (v : HostView) : (setHostView v s).stopped = s.stopped := rfl
@[simp] theorem setHostView_finished (v : HostView) : (setHostView v s).finished = s.finished := rfl
@[simp] theorem setHostView_fault (v : HostView) : (setHostView v s).fault = s.fault := rfl
@[simp] theorem setHostView_code (v : HostView) : (setHostView v s).code = s.code := rfl
@[simp] theorem setHostView_data (v : HostView) : (setHostView v s).data = s.data := rfl
@[simp] theorem setHostView_pages (v : HostView) : (setHostView v s).pages = s.pages := rfl
@[simp] theorem setHostView_jt (v : HostView) : (setHostView v s).jt = s.jt := rfl
@[simp] theorem setHostView_jtValid (v : HostView) : (setHostView v s).jtValid = s.jtValid := rfl
@[simp] theorem setHostView_host (v : HostView) : (setHostView v s).host = v.ctx := rfl
@[simp] theorem setHostView_codeView (v : HostView) : (setHostView v s).codeView = s.codeView := rfl
@[simp] theorem setHostView_slot (v : HostView) (x : Int) : (setHostView v s).slot x = s.slot x := rfl

/-! `takeFuel` -/

@[simp] theorem takeFuel_pc : (takeFuel s).pc = s.pc := rfl
@[simp] theorem takeFuel_pcs : (takeFuel s).pcs = s.pcs := rfl
@[simp] theorem takeFuel_pce : (takeFuel s).pce = s.pce := rfl
@[simp] theorem takeFuel_cs : (takeFuel s).cs = s.cs := rfl
@[simp] theorem takeFuel_us : (takeFuel s).us = s.us := rfl
@[simp] theorem takeFuel_steps : (takeFuel s).steps = s.steps := rfl
@[simp] theorem takeFuel_a : (takeFuel s).a = s.a := rfl
@[simp] theorem takeFuel_b : (takeFuel s).b = s.b := rfl
@[simp] theorem takeFuel_stopped : (takeFuel s).stopped = s.stopped := rfl
@[simp] theorem takeFuel_finished : (takeFuel s).finished = s.finished := rfl
@[simp] theorem takeFuel_fault : (takeFuel s).fault = s.fault := rfl
@[simp] theorem takeFuel_code : (takeFuel s).code = s.code := rfl
@[simp] theorem takeFuel_data : (takeFuel s).data = s.data := rfl
@[simp] theorem takeFuel_pages : (takeFuel s).pages = s.pages := rfl
@[simp] theorem takeFuel_jt : (takeFuel s).jt = s.jt := rfl
@[simp] theorem takeFuel_jtValid : (takeFuel s).jtValid = s.jtValid := rfl
@[simp] theorem takeFuel_host : (takeFuel s).host = { s.host with fuel := s.host.fuel - 1 } := rfl
@[simp] theorem takeFuel_codeView : (takeFuel s).codeView = s.codeView := rfl
@[simp] theorem takeFuel_slot (x : Int) : (takeFuel s).slot x = s.slot x := rfl

/-! `rebuildJumpTable` -/

@[simp] theorem rebuildJumpTable_pc (opc : Mnemonic → Byte) : (rebuildJumpTable opc s).pc = s.pc := rfl
@[simp] theorem rebuildJumpTable_pcs (opc : Mnemonic → Byte) : (rebuildJumpTable opc s).pcs = s.pcs := rfl
@[simp] theorem rebuildJumpTable_pce (opc : Mnemonic → Byte) : (rebuildJumpTable opc s).pce = s.pce := rfl
@[simp] theorem rebuildJumpTable_cs (opc : Mnemonic → Byte) : (rebuildJumpTable opc s).cs = s.cs := rfl
@[simp] theorem rebuildJumpTable_us (opc : Mnemonic → Byte) : (rebuildJumpTable opc s).us = s.us := rfl
@[simp] theorem rebuildJumpTable_steps (opc : Mnemonic → Byte) : (rebuildJumpTable opc s).steps = s.steps := rfl
@[simp] theorem rebuildJumpTable_a (opc : Mnemonic → Byte) : (rebuildJumpTable opc s).a = s.a := rfl
@[simp] theorem rebuildJumpTable_b (opc : Mnemonic → Byte) : (rebuildJumpTable opc s).b = s.b := rfl
@[simp] theorem rebuildJumpTable_stopped (opc : Mnemonic → Byte) : (rebuildJumpTable opc s).stopped = s.stopped := rfl
@[simp] theorem rebuildJumpTable_finished (opc : Mnemonic → Byte) : (rebuildJumpTable opc s).finished = s.finished := rfl
@[simp] theorem rebuildJumpTable_fault (opc : Mnemonic → Byte) : (rebuildJumpTable opc s).fault = s.fault := rfl
@[simp] theorem rebuildJumpTable_code (opc : Mnemonic → Byte) : (rebuildJumpTable opc s).code = s.code := rfl
@[simp] theorem rebuildJumpTable_data (opc : Mnemonic → Byte) : (rebuildJumpTable opc s).data = s.data := rfl
@[simp] theorem rebuildJumpTable_pages (opc : Mnemonic → Byte) : (rebuildJumpTable opc s).pages = s.pages := rfl
@[simp] theorem rebuildJumpTable_jt (opc : Mnemonic → Byte) : (rebuildJumpTable opc s).jt = jumpTable opc s.codeView := rfl
@[simp] theorem rebuildJumpTable_jtValid (opc : Mnemonic → Byte) : (rebuildJumpTable opc s).jtValid = true := rfl
@[simp] theorem rebuildJumpTable_host (opc : Mnemonic → Byte) : (rebuildJumpTable opc s).host = s.host := rfl
@[simp] theorem rebuildJumpTable_codeView (opc : Mnemonic → Byte) : (rebuildJumpTable opc s).codeView = s.codeView := rfl
@[simp] theorem rebuildJumpTable_slot (x : Int) : (rebuildJumpTable opc s).slot x = s.slot x := rfl

end Sys2Proof.Machine
end

