-- ==== Sys2Proof/Laws/Ops.lean ====
section
/-! SUPPORT. What each shared operation can do, said once: its result where its check passes, its trap
where it fails, and the inversion "if it answers a state, then …". -/

namespace Sys2Proof.Machine

/-! Results. -/

@[simp] theorem ok_bind {α β : Type} (x : α) (f : α → Result β) : ((.ok x : Result α) >>= f) = f x := rfl

@[simp] theorem error_bind {α β : Type} (e : Trap) (f : α → Result β) :
    ((.error e : Result α) >>= f) = .error e := rfl

@[simp] theorem raise_bind {α β : Type} (k : FaultKind) (f : α → Result β) :
    ((raise k : Result α) >>= f) = raise k := rfl

/-- A sequence answers a value only if its first part did. -/
theorem bind_ok {α β : Type} {r : Result α} {f : α → Result β} {y : β} (h : (r >>= f) = .ok y) :
    ∃ x, r = .ok x ∧ f x = .ok y := by
  cases r with
  | ok x => exact ⟨x, rfl, h⟩
  | error e => cases h

/-- A sequence traps in its first part, or in the rest on the first part's value. -/
theorem bind_error {α β : Type} {r : Result α} {f : α → Result β} {e : Trap} (h : (r >>= f) = .error e) :
    r = .error e ∨ ∃ x, r = .ok x ∧ f x = .error e := by
  cases r with
  | ok x => exact .inr ⟨x, rfl, h⟩
  | error e' => cases h; exact .inl rfl

/-! Slots. -/

/-- A slot that passes the check lies inside the Data Segment, aligned (20_memory.md R47). -/
theorem accessOk_of_slotOk {s : State} {a : Int} (h : SlotOk s.pages.dataSize a) : AccessOk s (8 * a) := by
  obtain ⟨h0, -, h2⟩ := h
  have : (s.pages.segSize : Int) = s.pages.dataSize + s.pages.csSize + s.pages.usSize := by
    simp [Pages.segSize]
  exact ⟨by omega, by omega, by omega⟩

theorem checkSlot_ok {s : State} {a : Int} (h : SlotOk s.pages.dataSize a) : checkSlot s a = .ok () :=
  if_pos h

theorem checkSlot_bad {s : State} {a : Int} (h : ¬SlotOk s.pages.dataSize a) :
    checkSlot s a = raise .overflow := if_neg h

theorem memRead_ok {s : State} {off : Int} (h : AccessOk s off) :
    memRead s off = .ok (s.data.word off.toNat) := if_pos h

theorem memWrite_ok {s : State} {off : Int} (v : Word) (h : AccessOk s off) :
    memWrite s off v = .ok (storeWord off.toNat v s) := if_pos h

/-- A slot read succeeds where the check passes (R46, R47). -/
theorem readSlot_ok {s : State} {a : Int} (h : SlotOk s.pages.dataSize a) : readSlot s a = .ok (s.slot a) := by
  simp [readSlot, checkSlot_ok h, memRead_ok (accessOk_of_slotOk h), State.slot]

/-- A slot read raises OVERFLOW where the check fails (R46). -/
theorem readSlot_bad {s : State} {a : Int} (h : ¬SlotOk s.pages.dataSize a) :
    readSlot s a = raise .overflow := by
  simp [readSlot, checkSlot_bad h]

/-- A slot write succeeds where the check passes (R46, R47). -/
theorem writeSlot_ok {s : State} {a : Int} (v : Word) (h : SlotOk s.pages.dataSize a) :
    writeSlot s a v = .ok (storeWord (8 * a).toNat v s) := by
  simp [writeSlot, checkSlot_ok h, memWrite_ok v (accessOk_of_slotOk h)]

/-- A slot write raises OVERFLOW where the check fails (R46). -/
theorem writeSlot_bad {s : State} {a : Int} (v : Word) (h : ¬SlotOk s.pages.dataSize a) :
    writeSlot s a v = raise .overflow := by
  simp [writeSlot, checkSlot_bad h]

/-- All a slot read can do. -/
theorem readSlot_cases (s : State) (a : Int) :
    (SlotOk s.pages.dataSize a ∧ readSlot s a = .ok (s.slot a)) ∨
      (¬SlotOk s.pages.dataSize a ∧ readSlot s a = raise .overflow) := by
  by_cases h : SlotOk s.pages.dataSize a
  · exact .inl ⟨h, readSlot_ok h⟩
  · exact .inr ⟨h, readSlot_bad h⟩

/-- All a slot write can do. -/
theorem writeSlot_cases (s : State) (a : Int) (v : Word) :
    (SlotOk s.pages.dataSize a ∧ writeSlot s a v = .ok (storeWord (8 * a).toNat v s)) ∨
      (¬SlotOk s.pages.dataSize a ∧ writeSlot s a v = raise .overflow) := by
  by_cases h : SlotOk s.pages.dataSize a
  · exact .inl ⟨h, writeSlot_ok v h⟩
  · exact .inr ⟨h, writeSlot_bad v h⟩

@[simp] theorem storeWord_slot_same (s : State) (a : Int) (v : Word) :
    (storeWord (8 * a).toNat v s).slot a = v := by
  simp [State.slot]

/-- A store to one slot leaves every other slot. -/
theorem storeWord_slot_other (s : State) {a b : Int} (v : Word) (ha : 0 ≤ a) (hb : 0 ≤ b) (h : b ≠ a) :
    (storeWord (8 * a).toNat v s).slot b = s.slot b := by
  simp only [State.slot, storeWord_data]
  exact word_setWord_apart _ v (by omega)

/-- A store leaves every byte outside its word. -/
theorem storeWord_outside (s : State) (off : Nat) (v : Word) :
    SameDataOutside s (storeWord off v s) off :=
  fun _ h => read_setWord_outside _ v h

/-! Stacks. -/

/-- The entry offsets of a depth inside its region are accesses the spec defines (20_memory.md R50). -/
theorem accessOk_csOff {s : State} {k : Int} (h1 : 1 ≤ k) (h2 : k ≤ (s.pages.csCap : Int)) :
    AccessOk s (csOff s k) := by
  have e1 : (s.pages.segSize : Int) = s.pages.dataSize + s.pages.csSize + s.pages.usSize := by
    simp [Pages.segSize]
  have e2 : s.pages.csSize = s.pages.cs * 256 := rfl
  have e3 : s.pages.dataSize = s.pages.data * 512 := rfl
  have e4 : s.pages.csCap = s.pages.csSize / 8 := rfl
  refine ⟨?_, ?_, ?_⟩ <;> simp only [csOff] <;> omega

/-- The same for the user stack (R51). -/
theorem accessOk_usOff {s : State} {k : Int} (h1 : 1 ≤ k) (h2 : k ≤ (s.pages.usCap : Int)) :
    AccessOk s (usOff s k) := by
  have e1 : s.pages.segSize = s.pages.dataSize + s.pages.csSize + s.pages.usSize := rfl
  have e2 : s.pages.csSize = s.pages.cs * 256 := rfl
  have e3 : s.pages.dataSize = s.pages.data * 512 := rfl
  have e4 : s.pages.usSize = s.pages.us * 256 := rfl
  have e5 : s.pages.usCap = s.pages.usSize / 8 := rfl
  refine ⟨?_, ?_, ?_⟩ <;> simp only [usOff] <;> omega

/-- If a push on the call stack answers a state, the entry was stored and counted. -/
theorem pushCall_next {s t : State} {v : Word} (h : pushCall s v = .ok t) :
    AccessOk s (csOff s (s.cs.toInt + 1)) ∧
      t = countCall (storeWord (csOff s (s.cs.toInt + 1)).toNat v s) := by
  obtain ⟨u, hu, ht⟩ := bind_ok h
  by_cases ha : AccessOk s (csOff s (s.cs.toInt + 1))
  · rw [memWrite_ok v ha] at hu
    cases hu; cases ht
    exact ⟨ha, rfl⟩
  · simp [memWrite, ha] at hu

/-- If the top of the call stack is read, the stack was not empty. -/
theorem topCall_value {s : State} {x : Word} (h : topCall s = .ok x) :
    0 < s.cs.toInt ∧ x = s.data.word (csOff s s.cs.toInt).toNat := by
  unfold topCall at h
  split at h
  · rename_i hc
    unfold memRead at h
    split at h
    · cases h; exact ⟨hc, rfl⟩
    · cases h
  · cases h

/-- If a push on the user stack answers a state, there was room, and the entry was stored and counted. -/
theorem pushUser_next {s t : State} {v : Word} (h : pushUser s v = .ok t) :
    s.us.toInt < (s.pages.usCap : Int) ∧
      t = countUser (storeWord (usOff s (s.us.toInt + 1)).toNat v s) := by
  unfold pushUser at h
  split at h
  · rename_i hc
    obtain ⟨u, hu, ht⟩ := bind_ok h
    unfold memWrite at hu
    split at hu
    · cases hu; cases ht; exact ⟨hc, rfl⟩
    · cases hu
  · cases h

/-- If the top of the user stack is read, the stack was not empty. -/
theorem topUser_value {s : State} {x : Word} (h : topUser s = .ok x) :
    0 < s.us.toInt ∧ x = s.data.word (usOff s s.us.toInt).toNat := by
  unfold topUser at h
  split at h
  · rename_i hc
    unfold memRead at h
    split at h
    · cases h; exact ⟨hc, rfl⟩
    · cases h
  · cases h

/-! Transfers. -/

theorem validate_ok {f : FaultKind} {s : State} {t : Int} (h : InJT s t) : validate f s t = .ok () :=
  if_pos h

theorem validate_bad {f : FaultKind} {s : State} {t : Int} (h : ¬InJT s t) : validate f s t = raise f :=
  if_neg h

/-- All a validated transfer can do. -/
theorem transfer_cases (s : State) (t : Int) :
    (InJT s t ∧ transfer s t = .ok (jumpTo t s)) ∨ (¬InJT s t ∧ transfer s t = raise .invalidOp) := by
  by_cases h : InJT s t
  · exact .inl ⟨h, by simp [transfer, validate_ok h]⟩
  · exact .inr ⟨h, by simp [transfer, validate_bad h]⟩

/-- All the end of a branch can do. -/
theorem branch_cases (taken : Bool) (d : Disp) (len : Nat) (s : State) :
    (taken = false ∧ branch taken d len s = .ok (advance len s)) ∨
      (taken = true ∧ InJT s (branchTarget s d) ∧
        branch taken d len s = .ok (jumpTo (branchTarget s d) s)) ∨
      (taken = true ∧ ¬InJT s (branchTarget s d) ∧ branch taken d len s = raise .invalidOp) := by
  cases taken with
  | false => exact .inl ⟨rfl, rfl⟩
  | true =>
    rcases transfer_cases s (branchTarget s d) with ⟨h, e⟩ | ⟨h, e⟩
    · exact .inr (.inl ⟨rfl, h, e⟩)
    · exact .inr (.inr ⟨rfl, h, e⟩)

/-! Taking a fault. -/

/-- All that taking a fault can do (60_exceptions.md R317, R318). -/
theorem takeFault_cases (f : FaultKind) (s : State) :
    (f = .overflow ∧ s.pce ≠ 0 ∧ takeFault f s = enterHandler s) ∨
      ((f = .overflow → s.pce = 0) ∧ takeFault f s = latchFault f s) := by
  by_cases h : Absorbs s f
  · exact .inl ⟨h.1, h.2, if_pos h⟩
  · refine .inr ⟨fun hf => ?_, if_neg h⟩
    by_contra hp
    exact h ⟨hf, hp⟩

@[simp] theorem commit_ok (s t : State) : commit s (.ok t) = .next (countStep t) := rfl

@[simp] theorem commit_raise (s : State) (f : FaultKind) :
    commit s (raise f) = .next (takeFault f s) := rfl

@[simp] theorem commit_error (s : State) (f : FaultKind) :
    commit s (.error (.raise f)) = .next (takeFault f s) := rfl

/-- If an instruction ends in a next state, it completed, or it raised a fault that was taken. -/
theorem commit_next {s t : State} {r : Result State} (h : commit s r = .next t) :
    (∃ u, r = .ok u ∧ t = countStep u) ∨ (∃ f, r = .error (.raise f) ∧ t = takeFault f s) := by
  cases r with
  | ok u => cases h; exact .inl ⟨u, rfl, rfl⟩
  | error e =>
    cases e with
    | raise f => cases h; exact .inr ⟨f, rfl, rfl⟩
    | stuck r => cases h

end Sys2Proof.Machine
end

