-- ==== Sys2Proof/Laws/Operands.lean ====
section
/-! SUPPORT. What each shared operand shape and each call of the host can do, said once. -/

namespace Sys2Proof.Machine

/-! Operand shapes. -/

/-- All a unary instruction's operation can do (40_nop_copy_unary.md R104 to R106). -/
theorem unaryOp_cases (f : Word → Word) (a1 : SlotAddr) (s : State) :
    (FieldOk s a1 ∧
        unaryOp f a1 s = .ok (advance 5 (storeWord (8 * a1.toInt).toNat (f (s.fieldSlot a1)) s))) ∨
      (¬FieldOk s a1 ∧ unaryOp f a1 s = raise .overflow) := by
  by_cases h : FieldOk s a1
  · exact .inl ⟨h, by simp [unaryOp, readDirect, writeDirect, readSlot_ok h, writeSlot_ok _ h]⟩
  · exact .inr ⟨h, by simp [unaryOp, readDirect, readSlot_bad h]⟩

/-- All a binary instruction's operation can do, by what its function answers (41_arith_bitwise.md R120). -/
theorem binaryOp_cases (f : Word → Word → Result Word) (a1 a2 : SlotAddr) (s : State) :
    (FieldOk s a1 ∧ FieldOk s a2 ∧
        (∀ r, f (s.fieldSlot a1) (s.fieldSlot a2) = .ok r →
          binaryOp f a1 a2 s = .ok (advance 9 (storeWord (8 * a1.toInt).toNat r s))) ∧
        (∀ e, f (s.fieldSlot a1) (s.fieldSlot a2) = .error e → binaryOp f a1 a2 s = .error e)) ∨
      (¬(FieldOk s a1 ∧ FieldOk s a2) ∧ binaryOp f a1 a2 s = raise .overflow) := by
  by_cases h1 : FieldOk s a1
  · by_cases h2 : FieldOk s a2
    · refine .inl ⟨h1, h2, fun r hr => ?_, fun e he => ?_⟩
      · simp [binaryOp, readDirect, writeDirect, readSlot_ok h1, readSlot_ok h2, hr, writeSlot_ok _ h1]
      · simp [binaryOp, readDirect, readSlot_ok h1, readSlot_ok h2, he]
    · exact .inr ⟨fun h => h2 h.2, by simp [binaryOp, readDirect, readSlot_ok h1, readSlot_bad h2]⟩
  · exact .inr ⟨fun h => h1 h.1, by simp [binaryOp, readDirect, readSlot_bad h1]⟩

/-- A branch on one slot reads it and ends as a branch (43_control.md R172). -/
theorem branchOne_cases (cond : Word → Bool) (a1 : SlotAddr) (d : Disp) (s : State) :
    (FieldOk s a1 ∧ branchOne cond a1 d s = branch (cond (s.fieldSlot a1)) d 6 s) ∨
      (¬FieldOk s a1 ∧ branchOne cond a1 d s = raise .overflow) := by
  by_cases h : FieldOk s a1
  · exact .inl ⟨h, by simp [branchOne, readDirect, readSlot_ok h]⟩
  · exact .inr ⟨h, by simp [branchOne, readDirect, readSlot_bad h]⟩

/-- A branch on two slots reads them and ends as a branch (43_control.md R172). -/
theorem branchTwo_cases (cond : Word → Word → Bool) (a1 a2 : SlotAddr) (d : Disp) (s : State) :
    (FieldOk s a1 ∧ FieldOk s a2 ∧
        branchTwo cond a1 a2 d s = branch (cond (s.fieldSlot a1) (s.fieldSlot a2)) d 10 s) ∨
      (¬(FieldOk s a1 ∧ FieldOk s a2) ∧ branchTwo cond a1 a2 d s = raise .overflow) := by
  by_cases h1 : FieldOk s a1
  · by_cases h2 : FieldOk s a2
    · exact .inl ⟨h1, h2, by simp [branchTwo, readDirect, readSlot_ok h1, readSlot_ok h2]⟩
    · exact .inr ⟨fun h => h2 h.2, by simp [branchTwo, readDirect, readSlot_ok h1, readSlot_bad h2]⟩
  · exact .inr ⟨fun h => h1 h.1, by simp [branchTwo, readDirect, readSlot_bad h1]⟩

/-- An indirect address is the slot's signed value (42_indirect_stack.md R144). -/
theorem indirectAddr_ok {s : State} {b : SlotAddr} (h : FieldOk s b) :
    indirectAddr s b = .ok (s.fieldSlot b).toInt := by
  simp [indirectAddr, readDirect, readSlot_ok h]

/-- An indexed address is the exact sum of the two slots' signed values (R144). -/
theorem indexedAddr_ok {s : State} {b i : SlotAddr} (hb : FieldOk s b) (hi : FieldOk s i) :
    indexedAddr s b i = .ok ((s.fieldSlot b).toInt + (s.fieldSlot i).toInt) := by
  simp [indexedAddr, readDirect, readSlot_ok hb, readSlot_ok hi]

/-! The host. -/

/-- A host call changes A, B and the host context, as the host answered (45_external.md R211). -/
theorem callHost_eq (h : HostFn) (c : HostCall) (s : State) :
    callHost h c s = ((hostAnswer h c s).1, setHostView (hostAnswer h c s).2 s) := rfl

/-- All a call with a destination can do (45_external.md R226 to R228). -/
theorem storeResult_cases (h : HostFn) (c : HostCall) (a1 : SlotAddr) (s : State) :
    (FieldOk s a1 ∧
        storeResult h c a1 s =
          .ok (storeWord (8 * a1.toInt).toNat (hostAnswer h c s).1 (setHostView (hostAnswer h c s).2 s))) ∨
      (¬FieldOk s a1 ∧ storeResult h c a1 s = raise .overflow) := by
  by_cases hf : FieldOk s a1
  · refine .inl ⟨hf, ?_⟩
    have hs : SlotOk (setHostView (hostAnswer h c s).2 s).pages.dataSize a1.toInt := hf
    simp [storeResult, checkSlot_ok hf, callHost, writeDirect, writeSlot_ok _ hs]
  · exact .inr ⟨hf, by simp [storeResult, checkSlot_bad hf]⟩

/-- No register function touches the host context (45_external.md R214). -/
theorem builtin_ctx {v : HostView} {c : HostCall} {out : Word × HostView} (h : builtin v c = some out) :
    out.2.ctx = v.ctx := by
  cases c with
  | host0 fn => simp only [builtin] at h; unfold builtin0 at h; split at h <;> cases h <;> rfl
  | host1 fn x => simp only [builtin] at h; unfold builtin1 at h; split at h <;> cases h <;> rfl
  | host2 fn x y => simp only [builtin] at h; unfold builtin2 at h; split at h <;> cases h <;> rfl

/-- Moving a cursor keeps the entry's number, loop flag and values (45_external.md R231). -/
theorem advanceCursor_keeps (e : FixtureEntry) :
    (advanceCursor e).fn = e.fn ∧ (advanceCursor e).loop = e.loop ∧ (advanceCursor e).values = e.values := by
  unfold advanceCursor
  split
  · exact ⟨rfl, rfl, rfl⟩
  · split <;> exact ⟨rfl, rfl, rfl⟩

/-- A moved cursor still stands inside its values (45_external.md R231). -/
theorem advanceCursor_ok {e : FixtureEntry} (h : CursorOk e) (short : e.values.length < 2 ^ 64) :
    CursorOk (advanceCursor e) := by
  unfold advanceCursor
  split
  · left
    rename_i hlt
    have : (e.cursor + 1).toNat = e.cursor.toNat + 1 := by
      rw [BitVec.toNat_add]; exact Nat.mod_eq_of_lt (by simp; omega)
    show (e.cursor + 1).toNat < e.values.length
    rw [this]; exact hlt
  · split
    · rcases h with h | h
      · exact .inl (Nat.lt_of_le_of_lt (Nat.zero_le _) h)
      · exact .inr ⟨h.1, rfl⟩
    · exact h

/-- The fixture's effect leaves everything of the host context but `first_call` and the table
(45_external.md R231, R232). -/
theorem fixtureEffect_keeps (c : HostCall) (ctx : HostCtx) :
    fixtureEffect c ctx =
      { ctx with firstCall := (fixtureEffect c ctx).firstCall, fixture := (fixtureEffect c ctx).fixture } := by
  unfold fixtureEffect increment
  split <;> split <;> (try split) <;> rfl

/-- The fixture table after a call: empty, or every entry as it was or moved on (45_external.md R231,
R232). -/
theorem fixtureEffect_table (c : HostCall) (ctx : HostCtx) :
    (fixtureEffect c ctx).fixture = [] ∨ (fixtureEffect c ctx).fixture = ctx.fixture ∨
      (fixtureEffect c ctx).fixture =
        ctx.fixture.map (fun e => if e.fn = fixtureKey c then e else advanceCursor e) := by
  unfold fixtureEffect increment
  split <;> split <;> (try split) <;> simp

/-- Echo has no effect on the fixture's state (45_external.md R229). -/
theorem fixtureEffect_echo {c : HostCall} (ctx : HostCtx) (h : isEcho c = true) : fixtureEffect c ctx = ctx := by
  simp [fixtureEffect, clearsFixture, h]

/-- All the default host can do: a register function with the context as it was, or the fixture side, which
leaves A and B (45_external.md R212). -/
theorem defaultHost_cases (draw : Word) (c : HostCall) (v : HostView) :
    (∃ out, builtin v c = some out ∧ defaultHost draw c v = out) ∨
      (builtin v c = none ∧
        defaultHost draw c v =
          ((statedResult c v.ctx).getD draw, { v with ctx := fixtureEffect c v.ctx })) := by
  cases hb : builtin v c with
  | some out => exact .inl ⟨out, rfl, by simp [defaultHost, hb]⟩
  | none => exact .inr ⟨rfl, by simp [defaultHost, hb, fixtureSide]⟩

/-- With the default host the fuel is never touched (10_state.md R27; log entry 4). -/
theorem defaultHost_fuel (draw : Word) (c : HostCall) (v : HostView) :
    (defaultHost draw c v).2.ctx.fuel = v.ctx.fuel := by
  have hk : (fixtureEffect c v.ctx).fuel = v.ctx.fuel := by rw [fixtureEffect_keeps]
  rcases defaultHost_cases draw c v with ⟨out, hb, e⟩ | ⟨-, e⟩
  · rw [e, builtin_ctx hb]
  · rw [e]; exact hk

/-- A table in order stays in order when its entries keep their numbers. -/
theorem fixtureOk_map {fix : List FixtureEntry} {f : FixtureEntry → FixtureEntry} (h : FixtureOk fix)
    (keeps : ∀ e, (f e).fn = e.fn ∧ (f e).values = e.values)
    (ok : ∀ e ∈ fix, CursorOk (f e)) : FixtureOk (fix.map f) where
  ascending := by
    rw [List.pairwise_map]
    exact h.ascending.imp fun hxy => by rwa [(keeps _).1, (keeps _).1]
  cursors := by
    intro e he
    obtain ⟨x, hx, rfl⟩ := List.mem_map.mp he
    exact ok x hx
  lengths := by
    intro e he
    obtain ⟨x, hx, rfl⟩ := List.mem_map.mp he
    rw [(keeps x).2]
    exact h.lengths x hx
  count := by simpa using h.count

/-- No call of the default host spoils the Fixture Table. -/
theorem fixtureEffect_ok (c : HostCall) {ctx : HostCtx} (h : FixtureOk ctx.fixture) :
    FixtureOk (fixtureEffect c ctx).fixture := by
  rcases fixtureEffect_table c ctx with e | e | e
  · rw [e]; exact ⟨.nil, by simp, by simp, by simp⟩
  · rw [e]; exact h
  · rw [e]
    refine fixtureOk_map h (fun x => ?_) fun x hx => ?_
    · split
      · exact ⟨rfl, rfl⟩
      · exact ⟨(advanceCursor_keeps x).1, (advanceCursor_keeps x).2.2⟩
    · split
      · exact h.cursors x hx
      · exact advanceCursor_ok (h.cursors x hx) (h.lengths x hx)

end Sys2Proof.Machine
end

