-- ==== Sys2Proof/Laws/Engine.lean ====
section
/-! SUPPORT. What a step, a sweep and a snapshot reader can do, said once. -/

namespace Sys2Proof.Machine

/-! The step. -/

/-- With the default host, execution is `exec`. -/
theorem execWith_default (i : Instr) (s : State) : execWith defaultHost i s = exec i s := by
  cases i <;> rfl

/-- An instruction that does not call the host has the meaning `exec` gives it, whatever the host. -/
theorem execWith_other {i : Instr} (h : HostFn) (s : State) (other : i.mnemonic ∉ hostCallers) :
    execWith h i s = exec i s := by
  cases i <;> first | rfl | exact absurd (by simp [Instr.mnemonic, hostCallers]) other

/-- The machine's `step` is the engine's with the default parameters. -/
theorem step_eq (s : State) : step s = engineStep defaultParams s := rfl

/-- All a step of the engine can do (60_exceptions.md R315; 70_reset_and_hazards.md R347). -/
theorem engineStep_cases (P : Params) (s : State) :
    (s.jtValid = false ∧ engineStep P s = .refused .jumpTableInvalid) ∨
      (s.jtValid = true ∧ ∃ i len, decodeWith P.opc s.codeView s.pc.toInt = .ok (i, len) ∧
        engineStep P s = execWith P.host i s) ∨
      (s.jtValid = true ∧ ∃ f, decodeWith P.opc s.codeView s.pc.toInt = .error f ∧
        engineStep P s = .next (takeFault f s)) := by
  cases hv : s.jtValid with
  | false => exact .inl ⟨rfl, by simp [engineStep, hv]⟩
  | true =>
    cases hd : decodeWith P.opc s.codeView s.pc.toInt with
    | ok r => exact .inr (.inl ⟨rfl, r.1, r.2, rfl, by simp [engineStep, hv, hd]⟩)
    | error f => exact .inr (.inr ⟨rfl, f, rfl, by simp [engineStep, hv, hd]⟩)

/-! The sweep (47_jump_table_builder.md R250). -/

theorem sweepFrom_ok {opc : Mnemonic → Byte} {v : CodeView} {room p len : Nat} {i : Instr}
    (h : decodeWith opc v p = .ok (i, len)) :
    sweepFrom opc v (room + 1) p = p :: sweepFrom opc v room (p + len) := by
  simp [sweepFrom, h]

theorem sweepFrom_halts {opc : Mnemonic → Byte} {v : CodeView} {room p : Nat} {f : FaultKind}
    (h : decodeWith opc v p = .error f) : sweepFrom opc v (room + 1) p = [] := by
  simp [sweepFrom, h]

/-- Whole instructions decode at every offset the sweep records, and none is before its start. -/
theorem mem_sweepFrom {opc : Mnemonic → Byte} {v : CodeView} {room p o : Nat}
    (h : o ∈ sweepFrom opc v room p) : p ≤ o ∧ DecodesAt opc v o := by
  induction room generalizing p with
  | zero => cases h
  | succ n ih =>
    cases hd : decodeWith opc v p with
    | ok r =>
      rw [sweepFrom_ok (i := r.1) (len := r.2) hd] at h
      rcases List.mem_cons.mp h with rfl | h
      · exact ⟨le_refl _, r.1, r.2, hd⟩
      · exact ⟨by have := (ih h).1; omega, (ih h).2⟩
    | error f => rw [sweepFrom_halts hd] at h; cases h

/-! The run loop (48_run_driver.md R271). -/

/-- All one turn of the loop can do. -/
theorem driveLoop_cases (P : Params) (bps : List Int) (rounds : Nat) (limit : Option Nat) (s : State) :
    (OutOfFuel s ∧ driveLoop P bps rounds limit s = (.outOfFuel, s)) ∨
      (¬OutOfFuel s ∧ limit = some 0 ∧ driveLoop P bps rounds limit s = (.stepLimit, s)) ∨
      (¬OutOfFuel s ∧ limit ≠ some 0 ∧ rounds = 0 ∧ driveLoop P bps rounds limit s = (.running, s)) ∨
      (¬OutOfFuel s ∧ limit ≠ some 0 ∧ ∃ n, rounds = n + 1 ∧
        ((∃ r, engineStep P (takeFuel s) = .refused r ∧ driveLoop P bps rounds limit s = (.refused, s)) ∨
         (∃ r, engineStep P (takeFuel s) = .fault r ∧
           driveLoop P bps rounds limit s = (.stuck r, takeFuel s)) ∨
         (∃ t e, engineStep P (takeFuel s) = .next t ∧ endAfterStep bps t = some e ∧
           driveLoop P bps rounds limit s = (e, t)) ∨
         (∃ t, engineStep P (takeFuel s) = .next t ∧ endAfterStep bps t = none ∧
           driveLoop P bps rounds limit s = driveLoop P bps n (limit.map (· - 1)) t))) := by
  by_cases hf : OutOfFuel s
  · exact .inl ⟨hf, by unfold driveLoop; exact if_pos hf⟩
  by_cases hl : limit = some 0
  · exact .inr (.inl ⟨hf, hl, by unfold driveLoop; rw [if_neg hf, if_pos hl]⟩)
  cases rounds with
  | zero => exact .inr (.inr (.inl ⟨hf, hl, rfl, by unfold driveLoop; rw [if_neg hf, if_neg hl]⟩))
  | succ n =>
    refine .inr (.inr (.inr ⟨hf, hl, n, rfl, ?_⟩))
    rw [driveLoop, if_neg hf, if_neg hl]
    cases hs : engineStep P (takeFuel s) with
    | refused r => exact .inl ⟨r, rfl, rfl⟩
    | fault r => exact .inr (.inl ⟨r, rfl, rfl⟩)
    | next t =>
      cases he : endAfterStep bps t with
      | some e => exact .inr (.inr (.inl ⟨t, e, rfl, he, by simp [he]⟩))
      | none => exact .inr (.inr (.inr ⟨t, rfl, he, by simp [he]⟩))

/-- What each outcome of the tests after a step shows. -/
theorem endAfterStep_cases (bps : List Int) (t : State) :
    (∃ f, t.fault = some f ∧ endAfterStep bps t = some (.faulted f)) ∨
      (t.fault = none ∧ t.finished = true ∧ endAfterStep bps t = some .finished) ∨
      (t.fault = none ∧ t.finished = false ∧ t.stopped = true ∧ endAfterStep bps t = some .stopped) ∨
      (t.fault = none ∧ t.finished = false ∧ t.stopped = false ∧ OutOfFuel t ∧
        endAfterStep bps t = some .outOfFuel) ∨
      (t.fault = none ∧ t.finished = false ∧ t.stopped = false ∧ ¬OutOfFuel t ∧ t.pc.toInt ∈ bps ∧
        endAfterStep bps t = some .breakpoint) ∨
      (t.fault = none ∧ t.finished = false ∧ t.stopped = false ∧ ¬OutOfFuel t ∧ t.pc.toInt ∉ bps ∧
        endAfterStep bps t = none) := by
  unfold endAfterStep
  cases hf : t.fault with
  | some f => simp
  | none =>
    cases h1 : t.finished <;> cases h2 : t.stopped <;> by_cases h3 : OutOfFuel t <;>
      by_cases h4 : t.pc.toInt ∈ bps <;> simp [h3, h4]

/-! Snapshot readers undo the writers (49_snapshot_codec.md R286, R291). -/

@[simp] theorem takeBytes_append (xs rest : List Byte) : takeBytes xs.length (xs ++ rest) = some (xs, rest) := by
  induction xs with
  | nil => rfl
  | cons x xs ih => simp [takeBytes, ih]

theorem leValue_bytesLE (n v : Nat) : leValue (bytesLE n v) = v % 256 ^ n := by
  induction n generalizing v with
  | zero => simp [leValue, bytesLE, Nat.mod_one]
  | succ n ih =>
    rw [bytesLE, leValue, ih, BitVec.toNat_ofNat, show 256 ^ (n + 1) = 256 * 256 ^ n from Nat.pow_succ', Nat.mod_mul]

theorem takeLE_bytesLE {n v : Nat} (h : v < 256 ^ n) (rest : List Byte) :
    takeLE n (bytesLE n v ++ rest) = some (v, rest) := by
  have e := takeBytes_append (bytesLE n v) rest
  rw [length_bytesLE] at e
  simp [takeLE, e, leValue_bytesLE, Nat.mod_eq_of_lt h]

@[simp] theorem take64_put64 (x : BitVec 64) (rest : List Byte) : take64 (put64 x ++ rest) = some (x, rest) := by
  simp [take64, put64, takeLE_bytesLE (n := 8) (v := x.toNat) (by have := x.isLt; omega)]

@[simp] theorem take32_put32 (x : BitVec 32) (rest : List Byte) : take32 (put32 x ++ rest) = some (x, rest) := by
  simp [take32, put32, takeLE_bytesLE (n := 4) (v := x.toNat) (by have := x.isLt; omega)]

@[simp] theorem takeFlag_putFlag (b : Bool) (rest : List Byte) :
    takeFlag (putFlag b ++ rest) = some (b, rest) := by
  cases b <;> rfl

@[simp] theorem takeGroup_putGroup (g : RegGroup) (rest : List Byte) :
    takeGroup (putGroup g ++ rest) = some (g, rest) := by
  simp [takeGroup, putGroup, List.append_assoc]

theorem takePages_bytesLE {bound x : Nat} (h : x ≤ bound) (hb : bound < 2 ^ 32) (rest : List Byte) :
    takePages bound (bytesLE 4 x ++ rest) = some (x, rest) := by
  simp [takePages, takeLE_bytesLE (n := 4) (v := x) (by omega), h]

theorem takeValues_put (xs : List Word) (rest : List Byte) :
    takeValues xs.length (xs.flatMap put64 ++ rest) = some (xs, rest) := by
  induction xs with
  | nil => rfl
  | cons x xs ih => simp [takeValues, List.flatMap_cons, List.append_assoc, ih]

theorem takeFixtureEntry_put {e : FixtureEntry} (ok : CursorOk e) (short : e.values.length < 2 ^ 64)
    (rest : List Byte) : takeFixtureEntry (putFixtureEntry e ++ rest) = some (e, rest) := by
  have hv := takeLE_bytesLE (n := 8) (v := e.values.length) (by omega) (e.values.flatMap put64 ++ rest)
  simp only [takeFixtureEntry, putFixtureEntry, List.append_assoc, take32_put32, takeFlag_putFlag,
    take64_put64, hv, takeValues_put, Option.bind_eq_bind, Option.bind_some]
  exact if_pos ok

/-- Fields read whole: the code and data bytes of a state fill a zero memory to the memory they came from. -/
theorem fill_readBytes {m : Memory} {size : Nat} (wf : m.wf = true) (within : m.within size = true) :
    zeroMemory.writeBytes 0 (m.readBytes 0 size) = m := by
  refine memory_ext (wf_writeBytes 0 _ wf_zeroMemory) wf fun a => ?_
  by_cases h : a < size
  · have hl : a < (m.readBytes 0 size).length := by simpa using h
    have := read_writeBytes_inside zeroMemory (off := 0) (m.readBytes 0 size) hl
    rw [getElem_readBytes] at this
    simpa using this
  · rw [read_writeBytes_outside _ _ (.inr (by simp; omega)), read_past within (by omega)]
    rfl

theorem takeHost_put (h h₀ : HostCtx) (rest : List Byte) :
    takeHost h₀ (putHost h ++ rest) =
      some ({ h with fixture := h₀.fixture }, rest) := by
  simp [takeHost, putHost, List.append_assoc]

theorem takeRegisters_put (s s₀ : State) (rest : List Byte) :
    takeRegisters s₀ (putRegisters s ++ rest) =
      some ({ s₀ with pc := s.pc, cs := s.cs, us := s.us, pce := s.pce, pcs := s.pcs
                      steps := s.steps, a := s.a, b := s.b }, rest) := by
  simp [takeRegisters, putRegisters, List.append_assoc]

theorem takeBytes_readBytes (m : Memory) (off n : Nat) (rest : List Byte) :
    takeBytes n (m.readBytes off n ++ rest) = some (m.readBytes off n, rest) := by
  have := takeBytes_append (m.readBytes off n) rest
  rwa [length_readBytes] at this

/-- The segments come back, where the page counts are within their bounds and the memories canonical. -/
theorem takeSegments_put {p : Pages} {code data : Memory} (hp : p.InBounds) (cw : code.wf = true)
    (ci : code.within p.codeSize = true) (dw : data.wf = true) (di : data.within p.segSize = true)
    (rest : List Byte) :
    takeSegments (putSegments p code data ++ rest) = some ((p, code, data), rest) := by
  obtain ⟨h1, h2, h3, h4⟩ := hp
  have e : p.code * Config.slotPageBytes = p.codeSize := rfl
  simp [takeSegments, putSegments, List.append_assoc, takePages_bytesLE h1 (by decide),
    takePages_bytesLE h2 (by decide), takePages_bytesLE h3 (by decide), takePages_bytesLE h4 (by decide),
    e, takeBytes_readBytes, fill_readBytes cw ci, fill_readBytes dw di]

/-- A table in order comes back entry by entry. -/
theorem takeEntries_put {fix : List FixtureEntry} (asc : fix.Pairwise (fun x y => x.fn.slt y.fn = true))
    (ok : ∀ e ∈ fix, CursorOk e ∧ e.values.length < 2 ^ 64) (rest : List Byte) :
    takeEntries fix.length (fix.flatMap putFixtureEntry ++ rest) = some (fix, rest) := by
  induction fix with
  | nil => rfl
  | cons e es ih =>
    obtain ⟨first, asc⟩ := List.pairwise_cons.mp asc
    have ih := ih asc fun x hx => ok x (List.mem_cons_of_mem e hx)
    have he := ok e List.mem_cons_self
    have hi : insertEntry e es = some (e :: es) := by
      cases es with
      | nil => rfl
      | cons x xs => simp [insertEntry, first x List.mem_cons_self]
    simp [takeEntries, List.flatMap_cons, List.append_assoc, takeFixtureEntry_put he.1 he.2, ih, hi]

/-- The Fixture Table comes back. -/
theorem takeFixture_put {fix : List FixtureEntry} (h : FixtureOk fix) (rest : List Byte) :
    takeFixture (putFixture fix ++ rest) = some (fix, rest) := by
  have hn := takeLE_bytesLE (n := 8) (v := fix.length) (by have := h.count; omega)
  simp [takeFixture, putFixture, List.append_assoc, hn,
    takeEntries_put h.ascending fun e he => ⟨h.cursors e he, h.lengths e he⟩]

end Sys2Proof.Machine
end

