-- ==== Sys2Proof/Laws/Exec.lean ====
section
/-! SUPPORT. What every instruction keeps before its outcome is committed, and what that says of a step. -/

namespace Sys2Proof.Machine

/-- What no operation inside an instruction writes: the code, the sizes, the Jump Table, the latch and the
step count (10_state.md R32). -/
structure Kept (s u : State) : Prop where
  code : u.code = s.code
  pages : u.pages = s.pages
  jt : u.jt = s.jt
  jtValid : u.jtValid = s.jtValid
  fault : u.fault = s.fault
  steps : u.steps = s.steps

theorem Kept.refl (s : State) : Kept s s := ⟨rfl, rfl, rfl, rfl, rfl, rfl⟩

theorem Kept.trans {s t u : State} (h : Kept s t) (k : Kept t u) : Kept s u :=
  ⟨k.code.trans h.code, k.pages.trans h.pages, k.jt.trans h.jt, k.jtValid.trans h.jtValid,
    k.fault.trans h.fault, k.steps.trans h.steps⟩

/-- A result whose state, if it has one, keeps all that. -/
def Keeps (s : State) (r : Result State) : Prop := ∀ u, r = .ok u → Kept s u

theorem keeps_ok {s u : State} (h : Kept s u) : Keeps s (.ok u) := fun _ e => by cases e; exact h

theorem keeps_raise (s : State) (f : FaultKind) : Keeps s (raise f) := fun _ e => by cases e

theorem keeps_bind {α : Type} {s : State} {r : Result α} {f : α → Result State}
    (h : ∀ x, Keeps s (f x)) : Keeps s (r >>= f) := fun u e => by
  obtain ⟨x, -, hx⟩ := bind_ok e
  exact h x u hx

theorem keeps_bind_state {s : State} {r : Result State} {f : State → Result State} (h : Keeps s r)
    (k : ∀ t, Kept s t → Keeps s (f t)) : Keeps s (r >>= f) := fun u e => by
  obtain ⟨t, ht, hu⟩ := bind_ok e
  exact k t (h t ht) u hu

theorem keeps_memWrite (s : State) (off : Int) (v : Word) : Keeps s (memWrite s off v) := fun u e => by
  unfold memWrite at e
  split at e <;> cases e
  exact ⟨rfl, rfl, rfl, rfl, rfl, rfl⟩

theorem keeps_writeSlot (s : State) (a : Int) (v : Word) : Keeps s (writeSlot s a v) :=
  keeps_bind fun _ => keeps_memWrite s _ v

theorem keeps_transfer (s : State) (t : Int) : Keeps s (transfer s t) :=
  keeps_bind fun _ => keeps_ok ⟨rfl, rfl, rfl, rfl, rfl, rfl⟩

theorem keeps_branch (s : State) (taken : Bool) (d : Disp) (len : Nat) : Keeps s (branch taken d len s) := by
  unfold branch
  split
  · exact keeps_transfer s _
  · exact keeps_ok ⟨rfl, rfl, rfl, rfl, rfl, rfl⟩

theorem kept_advance {s t : State} (h : Kept s t) (len : Nat) : Keeps s (.ok (advance len t)) :=
  keeps_ok (h.trans ⟨rfl, rfl, rfl, rfl, rfl, rfl⟩)

theorem keeps_unaryOp (f : Word → Word) (a1 : SlotAddr) (s : State) : Keeps s (unaryOp f a1 s) :=
  keeps_bind fun _ => keeps_bind_state (keeps_writeSlot s _ _) fun _ k => kept_advance k 5

theorem keeps_binaryOp (f : Word → Word → Result Word) (a1 a2 : SlotAddr) (s : State) :
    Keeps s (binaryOp f a1 a2 s) :=
  keeps_bind fun _ => keeps_bind fun _ => keeps_bind fun _ =>
    keeps_bind_state (keeps_writeSlot s _ _) fun _ k => kept_advance k 9

theorem keeps_branchOne (cond : Word → Bool) (a1 : SlotAddr) (d : Disp) (s : State) :
    Keeps s (branchOne cond a1 d s) := keeps_bind fun _ => keeps_branch s _ d 6

theorem keeps_branchTwo (cond : Word → Word → Bool) (a1 a2 : SlotAddr) (d : Disp) (s : State) :
    Keeps s (branchTwo cond a1 a2 d s) := keeps_bind fun _ => keeps_bind fun _ => keeps_branch s _ d 10

theorem keeps_pushUser (s : State) (v : Word) : Keeps s (pushUser s v) := by
  unfold pushUser
  split
  · exact keeps_bind_state (keeps_memWrite s _ v) fun t k => keeps_ok (k.trans ⟨rfl, rfl, rfl, rfl, rfl, rfl⟩)
  · exact keeps_raise s _

theorem keeps_storeResult (h : HostFn) (c : HostCall) (a1 : SlotAddr) (s : State) :
    Keeps s (storeResult h c a1 s) :=
  keeps_bind fun _ u e =>
    Kept.trans (t := (callHost h c s).2) ⟨rfl, rfl, rfl, rfl, rfl, rfl⟩ (keeps_writeSlot _ _ _ u e)

/-- Every instruction commits a result that keeps what no operation writes. -/
theorem execWith_commits (h : HostFn) (i : Instr) (s : State) :
    ∃ r, execWith h i s = commit s r ∧ Keeps s r := by
  have stores {f : State → Result State} {a : Int} {v : Word} (k : ∀ t, Kept s t → Keeps s (f t)) :
      Keeps s (writeSlot s a v >>= f) := keeps_bind_state (keeps_writeSlot s a v) k
  cases i with
  | nop n => exact ⟨.ok (advance n s), rfl, keeps_ok ⟨rfl, rfl, rfl, rfl, rfl, rfl⟩⟩
  | setVal a1 v => exact ⟨_, rfl, stores fun _ k => kept_advance k 13⟩
  | setDat a1 a2 => exact ⟨_, rfl, keeps_bind fun _ => stores fun _ k => kept_advance k 9⟩
  | clrDat a1 => exact ⟨_, rfl, stores fun _ k => kept_advance k 5⟩
  | incDat a1 => exact ⟨_, rfl, keeps_unaryOp _ a1 s⟩
  | decDat a1 => exact ⟨_, rfl, keeps_unaryOp _ a1 s⟩
  | notDat a1 => exact ⟨_, rfl, keeps_unaryOp _ a1 s⟩
  | addDat a1 a2 => exact ⟨_, rfl, keeps_binaryOp _ a1 a2 s⟩
  | subDat a1 a2 => exact ⟨_, rfl, keeps_binaryOp _ a1 a2 s⟩
  | mulDat a1 a2 => exact ⟨_, rfl, keeps_binaryOp _ a1 a2 s⟩
  | divDat a1 a2 => exact ⟨_, rfl, keeps_binaryOp _ a1 a2 s⟩
  | modDat a1 a2 => exact ⟨_, rfl, keeps_binaryOp _ a1 a2 s⟩
  | borDat a1 a2 => exact ⟨_, rfl, keeps_binaryOp _ a1 a2 s⟩
  | andDat a1 a2 => exact ⟨_, rfl, keeps_binaryOp _ a1 a2 s⟩
  | xorDat a1 a2 => exact ⟨_, rfl, keeps_binaryOp _ a1 a2 s⟩
  | shlDat a1 a2 => exact ⟨_, rfl, keeps_binaryOp _ a1 a2 s⟩
  | shrDat a1 a2 => exact ⟨_, rfl, keeps_binaryOp _ a1 a2 s⟩
  | setInd a1 a2 =>
    exact ⟨_, rfl, keeps_bind fun _ => keeps_bind fun _ => stores fun _ k => kept_advance k 9⟩
  | setIdx a1 a2 a3 =>
    exact ⟨_, rfl, keeps_bind fun _ => keeps_bind fun _ => stores fun _ k => kept_advance k 13⟩
  | indDat a1 a2 =>
    exact ⟨_, rfl, keeps_bind fun _ => keeps_bind fun _ => stores fun _ k => kept_advance k 9⟩
  | idxDat a1 a2 a3 =>
    exact ⟨_, rfl, keeps_bind fun _ => keeps_bind fun _ => stores fun _ k => kept_advance k 13⟩
  | pshDat a1 =>
    exact ⟨_, rfl, keeps_bind fun _ => keeps_bind_state (keeps_pushUser s _) fun _ k => kept_advance k 5⟩
  | popDat a1 =>
    refine ⟨_, rfl, keeps_bind fun _ => keeps_bind fun x => ?_⟩
    exact keeps_bind_state (fun u e => Kept.trans (t := dropUser s) ⟨rfl, rfl, rfl, rfl, rfl, rfl⟩
      (keeps_writeSlot _ _ _ u e)) fun _ k => kept_advance k 5
  | jmpSub c =>
    refine ⟨_, rfl, keeps_bind fun _ => keeps_bind fun _ => ?_⟩
    refine keeps_bind_state (keeps_bind_state (keeps_memWrite s _ _) fun t k => ?_) fun t k => ?_
    · exact keeps_ok (k.trans ⟨rfl, rfl, rfl, rfl, rfl, rfl⟩)
    · exact keeps_ok (k.trans ⟨rfl, rfl, rfl, rfl, rfl, rfl⟩)
  | retSub => exact ⟨_, rfl, keeps_bind fun _ => keeps_bind fun _ => keeps_ok ⟨rfl, rfl, rfl, rfl, rfl, rfl⟩⟩
  | jmpAdr c => exact ⟨_, rfl, keeps_transfer s _⟩
  | bzrDat a1 d => exact ⟨_, rfl, keeps_branchOne _ a1 d s⟩
  | bnzDat a1 d => exact ⟨_, rfl, keeps_branchOne _ a1 d s⟩
  | bgtDat a1 a2 d => exact ⟨_, rfl, keeps_branchTwo _ a1 a2 d s⟩
  | bltDat a1 a2 d => exact ⟨_, rfl, keeps_branchTwo _ a1 a2 d s⟩
  | bgeDat a1 a2 d => exact ⟨_, rfl, keeps_branchTwo _ a1 a2 d s⟩
  | bleDat a1 a2 d => exact ⟨_, rfl, keeps_branchTwo _ a1 a2 d s⟩
  | beqDat a1 a2 d => exact ⟨_, rfl, keeps_branchTwo _ a1 a2 d s⟩
  | bneDat a1 a2 d => exact ⟨_, rfl, keeps_branchTwo _ a1 a2 d s⟩
  | slpDat a1 => exact ⟨_, rfl, keeps_bind fun _ => keeps_ok ⟨rfl, rfl, rfl, rfl, rfl, rfl⟩⟩
  | slpImd => exact ⟨.ok (advance 1 s), rfl, keeps_ok ⟨rfl, rfl, rfl, rfl, rfl, rfl⟩⟩
  | fizDat a1 => exact ⟨_, rfl, keeps_bind fun x => by cases isZero x <;> exact keeps_ok ⟨rfl, rfl, rfl, rfl, rfl, rfl⟩⟩
  | finImd => exact ⟨.ok (terminate s), rfl, keeps_ok ⟨rfl, rfl, rfl, rfl, rfl, rfl⟩⟩
  | stzDat a1 => exact ⟨_, rfl, keeps_bind fun x => by cases isZero x <;> exact keeps_ok ⟨rfl, rfl, rfl, rfl, rfl, rfl⟩⟩
  | stpImd => exact ⟨.ok (pause 1 s), rfl, keeps_ok ⟨rfl, rfl, rfl, rfl, rfl, rfl⟩⟩
  | errAdr c => exact ⟨_, rfl, keeps_bind fun _ => keeps_ok ⟨rfl, rfl, rfl, rfl, rfl, rfl⟩⟩
  | setPcs => exact ⟨.ok (advance 1 (markPrologue s)), rfl, keeps_ok ⟨rfl, rfl, rfl, rfl, rfl, rfl⟩⟩
  | extFun f => exact ⟨.ok (advance 3 (callHost h (.host0 f) s).2), rfl, keeps_ok ⟨rfl, rfl, rfl, rfl, rfl, rfl⟩⟩
  | extFunDat f a1 => exact ⟨_, rfl, keeps_bind fun _ => keeps_ok ⟨rfl, rfl, rfl, rfl, rfl, rfl⟩⟩
  | extFunDat2 f a1 a2 => exact ⟨_, rfl, keeps_bind fun _ => keeps_bind fun _ => keeps_ok ⟨rfl, rfl, rfl, rfl, rfl, rfl⟩⟩
  | extFunRet f a1 =>
    exact ⟨_, rfl, keeps_bind_state (keeps_storeResult h _ a1 s) fun _ k => kept_advance k 7⟩
  | extFunRetDat f a1 a2 =>
    exact ⟨_, rfl, keeps_bind fun _ =>
      keeps_bind_state (keeps_storeResult h _ a1 s) fun _ k => kept_advance k 11⟩
  | extFunRetDat2 f a1 a2 a3 =>
    exact ⟨_, rfl, keeps_bind fun _ => keeps_bind fun _ =>
      keeps_bind_state (keeps_storeResult h _ a1 s) fun _ k => kept_advance k 15⟩

/-- No instruction is refused. -/
theorem execWith_not_refused (h : HostFn) (i : Instr) (s : State) (r : Refusal) : execWith h i s ≠ .refused r := by
  obtain ⟨x, e, -⟩ := execWith_commits h i s
  rw [e]
  rcases x with (_ | _) | _ <;> simp [commit]

/-- No step writes the code, the sizes or the Jump Table. -/
theorem engineStep_keeps {P : Params} {s t : State} (h : engineStep P s = .next t) :
    t.code = s.code ∧ t.pages = s.pages ∧ t.jt = s.jt ∧ t.jtValid = s.jtValid := by
  have fault (f : FaultKind) : (takeFault f s).code = s.code ∧ (takeFault f s).pages = s.pages ∧
      (takeFault f s).jt = s.jt ∧ (takeFault f s).jtValid = s.jtValid := by
    rcases takeFault_cases f s with ⟨-, -, e⟩ | ⟨-, e⟩ <;> rw [e] <;> exact ⟨rfl, rfl, rfl, rfl⟩
  rcases engineStep_cases P s with ⟨-, e⟩ | ⟨-, i, len, -, e⟩ | ⟨-, f, -, e⟩
  · rw [e] at h; cases h
  · obtain ⟨r, er, k⟩ := execWith_commits P.host i s
    rw [e, er] at h
    rcases commit_next h with ⟨u, hu, rfl⟩ | ⟨f, -, rfl⟩
    · exact ⟨(k u hu).code, (k u hu).pages, (k u hu).jt, (k u hu).jtValid⟩
    · exact fault f
  · rw [e] at h; cases h; exact fault f

end Sys2Proof.Machine
end

