-- ==== Sys2Proof/Laws/PerInstr.lean ====
section
/-! SUPPORT. Statements about every instruction as syntax, one lemma per constructor. -/

namespace Sys2Proof.Laws.EncodedLength

open Sys2Proof

/-- Under any opcode map an encoding begins with the opcode byte and, where a NOP run has at least one byte,
is as long as the instruction (30_encoding.md R70, R74). -/
def Statement (i : Instr) : Prop :=
  ∀ opc : Mnemonic → Byte, (encodeWith opc i).head? = some (opc i.mnemonic) ∧
    (i.runOk = true → (encodeWith opc i).length = i.len)

theorem nop (n : Nat) : Statement (.nop n) := by
  intro opc
  refine ⟨rfl, fun h => ?_⟩
  have : 1 ≤ n := by simpa [Instr.runOk] using h
  simp [encodeWith, encodeFields, Instr.len]
  omega

theorem setVal (a1 : SlotAddr) (v : Imm) : Statement (.setVal a1 v) :=
  fun _ => ⟨rfl, fun _ => rfl⟩

theorem setDat (a1 a2 : SlotAddr) : Statement (.setDat a1 a2) :=
  fun _ => ⟨rfl, fun _ => rfl⟩

theorem clrDat (a1 : SlotAddr) : Statement (.clrDat a1) :=
  fun _ => ⟨rfl, fun _ => rfl⟩

theorem incDat (a1 : SlotAddr) : Statement (.incDat a1) :=
  fun _ => ⟨rfl, fun _ => rfl⟩

theorem decDat (a1 : SlotAddr) : Statement (.decDat a1) :=
  fun _ => ⟨rfl, fun _ => rfl⟩

theorem notDat (a1 : SlotAddr) : Statement (.notDat a1) :=
  fun _ => ⟨rfl, fun _ => rfl⟩

theorem addDat (a1 a2 : SlotAddr) : Statement (.addDat a1 a2) :=
  fun _ => ⟨rfl, fun _ => rfl⟩

theorem subDat (a1 a2 : SlotAddr) : Statement (.subDat a1 a2) :=
  fun _ => ⟨rfl, fun _ => rfl⟩

theorem mulDat (a1 a2 : SlotAddr) : Statement (.mulDat a1 a2) :=
  fun _ => ⟨rfl, fun _ => rfl⟩

theorem divDat (a1 a2 : SlotAddr) : Statement (.divDat a1 a2) :=
  fun _ => ⟨rfl, fun _ => rfl⟩

theorem modDat (a1 a2 : SlotAddr) : Statement (.modDat a1 a2) :=
  fun _ => ⟨rfl, fun _ => rfl⟩

theorem borDat (a1 a2 : SlotAddr) : Statement (.borDat a1 a2) :=
  fun _ => ⟨rfl, fun _ => rfl⟩

theorem andDat (a1 a2 : SlotAddr) : Statement (.andDat a1 a2) :=
  fun _ => ⟨rfl, fun _ => rfl⟩

theorem xorDat (a1 a2 : SlotAddr) : Statement (.xorDat a1 a2) :=
  fun _ => ⟨rfl, fun _ => rfl⟩

theorem shlDat (a1 a2 : SlotAddr) : Statement (.shlDat a1 a2) :=
  fun _ => ⟨rfl, fun _ => rfl⟩

theorem shrDat (a1 a2 : SlotAddr) : Statement (.shrDat a1 a2) :=
  fun _ => ⟨rfl, fun _ => rfl⟩

theorem setInd (a1 a2 : SlotAddr) : Statement (.setInd a1 a2) :=
  fun _ => ⟨rfl, fun _ => rfl⟩

theorem setIdx (a1 a2 a3 : SlotAddr) : Statement (.setIdx a1 a2 a3) :=
  fun _ => ⟨rfl, fun _ => rfl⟩

theorem indDat (a1 a2 : SlotAddr) : Statement (.indDat a1 a2) :=
  fun _ => ⟨rfl, fun _ => rfl⟩

theorem idxDat (a1 a2 a3 : SlotAddr) : Statement (.idxDat a1 a2 a3) :=
  fun _ => ⟨rfl, fun _ => rfl⟩

theorem pshDat (a1 : SlotAddr) : Statement (.pshDat a1) :=
  fun _ => ⟨rfl, fun _ => rfl⟩

theorem popDat (a1 : SlotAddr) : Statement (.popDat a1) :=
  fun _ => ⟨rfl, fun _ => rfl⟩

theorem jmpSub (c : CodeAddr) : Statement (.jmpSub c) :=
  fun _ => ⟨rfl, fun _ => rfl⟩

theorem retSub : Statement (.retSub) :=
  fun _ => ⟨rfl, fun _ => rfl⟩

theorem jmpAdr (c : CodeAddr) : Statement (.jmpAdr c) :=
  fun _ => ⟨rfl, fun _ => rfl⟩

theorem bzrDat (a1 : SlotAddr) (d : Disp) : Statement (.bzrDat a1 d) :=
  fun _ => ⟨rfl, fun _ => rfl⟩

theorem bnzDat (a1 : SlotAddr) (d : Disp) : Statement (.bnzDat a1 d) :=
  fun _ => ⟨rfl, fun _ => rfl⟩

theorem bgtDat (a1 a2 : SlotAddr) (d : Disp) : Statement (.bgtDat a1 a2 d) :=
  fun _ => ⟨rfl, fun _ => rfl⟩

theorem bltDat (a1 a2 : SlotAddr) (d : Disp) : Statement (.bltDat a1 a2 d) :=
  fun _ => ⟨rfl, fun _ => rfl⟩

theorem bgeDat (a1 a2 : SlotAddr) (d : Disp) : Statement (.bgeDat a1 a2 d) :=
  fun _ => ⟨rfl, fun _ => rfl⟩

theorem bleDat (a1 a2 : SlotAddr) (d : Disp) : Statement (.bleDat a1 a2 d) :=
  fun _ => ⟨rfl, fun _ => rfl⟩

theorem beqDat (a1 a2 : SlotAddr) (d : Disp) : Statement (.beqDat a1 a2 d) :=
  fun _ => ⟨rfl, fun _ => rfl⟩

theorem bneDat (a1 a2 : SlotAddr) (d : Disp) : Statement (.bneDat a1 a2 d) :=
  fun _ => ⟨rfl, fun _ => rfl⟩

theorem slpDat (a1 : SlotAddr) : Statement (.slpDat a1) :=
  fun _ => ⟨rfl, fun _ => rfl⟩

theorem slpImd : Statement (.slpImd) :=
  fun _ => ⟨rfl, fun _ => rfl⟩

theorem fizDat (a1 : SlotAddr) : Statement (.fizDat a1) :=
  fun _ => ⟨rfl, fun _ => rfl⟩

theorem finImd : Statement (.finImd) :=
  fun _ => ⟨rfl, fun _ => rfl⟩

theorem stzDat (a1 : SlotAddr) : Statement (.stzDat a1) :=
  fun _ => ⟨rfl, fun _ => rfl⟩

theorem stpImd : Statement (.stpImd) :=
  fun _ => ⟨rfl, fun _ => rfl⟩

theorem errAdr (c : CodeAddr) : Statement (.errAdr c) :=
  fun _ => ⟨rfl, fun _ => rfl⟩

theorem setPcs : Statement (.setPcs) :=
  fun _ => ⟨rfl, fun _ => rfl⟩

theorem extFun (f : FnNum) : Statement (.extFun f) :=
  fun _ => ⟨rfl, fun _ => rfl⟩

theorem extFunDat (f : FnNum) (a1 : SlotAddr) : Statement (.extFunDat f a1) :=
  fun _ => ⟨rfl, fun _ => rfl⟩

theorem extFunDat2 (f : FnNum) (a1 a2 : SlotAddr) : Statement (.extFunDat2 f a1 a2) :=
  fun _ => ⟨rfl, fun _ => rfl⟩

theorem extFunRet (f : FnNum) (a1 : SlotAddr) : Statement (.extFunRet f a1) :=
  fun _ => ⟨rfl, fun _ => rfl⟩

theorem extFunRetDat (f : FnNum) (a1 a2 : SlotAddr) : Statement (.extFunRetDat f a1 a2) :=
  fun _ => ⟨rfl, fun _ => rfl⟩

theorem extFunRetDat2 (f : FnNum) (a1 a2 a3 : SlotAddr) : Statement (.extFunRetDat2 f a1 a2 a3) :=
  fun _ => ⟨rfl, fun _ => rfl⟩

end Sys2Proof.Laws.EncodedLength
end

