-- ==== Sys2Proof/Tests/Slice0.lean ====
section
/-! SUPPORT. The model's own tests: ill-formed terms, decoding of words written out from the encoding
tables, single steps with results from spec/95_test_vectors.md, and a witness for every statement that has
hypotheses. -/

namespace Sys2Proof.Tests

open Sys2Proof Sys2Proof.Machine

/-! Helpers. -/

/-- The outcome is a next state with this property. -/
def nextIs (o : StepOutcome) (p : State → Bool) : Bool :=
  match o with
  | .next t => p t
  | .fault _ => false
  | .refused _ => false

theorem next_of_nextIs {o : StepOutcome} {p : State → Bool} (h : nextIs o p = true) :
    ∃ t, o = .next t ∧ p t = true := by
  cases o with
  | next t => exact ⟨t, rfl, h⟩
  | fault r => cases h
  | refused r => cases h

/-- The harness of 95_test_vectors.md: one page each, the bytes at offset 0 and a byte 0x28 after them, the
Jump Table rebuilt, slots set (word `k` of the Data Segment, stack entries included). -/
def machine (code : List Byte) (words : List (Nat × Int)) : State :=
  rebuildJumpTable opcDefault
    { State.reset with
      code := zeroMemory.writeBytes 0 (code ++ [0x28])
      data := words.foldl (fun m w => m.setWord (8 * w.1) (wrap64 w.2)) zeroMemory }

/-- One step over these bytes and words ends in a next state with this property. -/
def steps (code : List Byte) (words : List (Nat × Int)) (p : State → Bool) : Bool :=
  nextIs (step (machine code words)) p

/-- `D[k] = v`, `pc` and one counted step. -/
def wrote (k : Int) (v : Int) (pc : Nat) (t : State) : Bool :=
  (t.slot k).toInt == v && t.pc.toNat == pc && t.steps == 1 && t.fault == none

/-- A completed step to this `pc`. -/
def went (pc : Nat) (t : State) : Bool := t.pc.toNat == pc && t.steps == 1 && t.fault == none

/-- A fatal fault from `pc = 0`: the latch, nothing else moved. -/
def faulted (f : FaultKind) (t : State) : Bool := t.fault == some f && t.pc == 0 && t.steps == 0

/-! Ill-formed terms, one for each check (30_encoding.md R87; 20_memory.md R46). -/

theorem test_wf_negative_slot_refused : (Instr.clrDat 0xffffffff).wf 512 = false := by decide
theorem test_wf_slot_past_region_refused : (Instr.clrDat 64).wf 512 = false ∧ (Instr.clrDat 63).wf 512 = true := by
  decide
theorem test_wf_slot_past_max_refused : (Instr.clrDat 0x20000000).wf 4294967304 = false := by decide
theorem test_wf_second_slot_checked : (Instr.bgtDat 0 64 0).wf 512 = false := by decide
theorem test_wf_third_slot_checked : (Instr.idxDat 0 0 64).wf 512 = false := by decide
theorem test_wf_empty_run_refused : (Instr.nop 0).wf 512 = false ∧ (Instr.nop 1).wf 512 = true := by decide

/-! Decoding: every instruction's bytes written out from 30_encoding.md R71, R72, R80, R81. The data-slot
region has its largest size, so that every byte of an address field can differ from the others. -/

def decodesTo (bs : List Byte) (i : Instr) : Bool :=
  match decode { viewOfBytes bs with dataSize := 4294967296 } 0 with
  | .ok (j, len) => decide (j = i) && len == bs.length
  | .error _ => false

theorem test_decode_copy :
    decodesTo [0x7f, 0x7f, 0x7f] (.nop 3) = true ∧
    decodesTo [0x01, 0x04, 0x03, 0x02, 0x01, 0x18, 0x17, 0x16, 0x15, 0x14, 0x13, 0x12, 0x91] (.setVal 0x01020304 0x9112131415161718) = true ∧
    decodesTo [0x02, 0x04, 0x03, 0x02, 0x01, 0x08, 0x07, 0x06, 0x05] (.setDat 0x01020304 0x05060708) = true ∧
    decodesTo [0x03, 0x04, 0x03, 0x02, 0x01] (.clrDat 0x01020304) = true ∧
    decodesTo [0x04, 0x04, 0x03, 0x02, 0x01] (.incDat 0x01020304) = true ∧
    decodesTo [0x05, 0x04, 0x03, 0x02, 0x01] (.decDat 0x01020304) = true ∧
    decodesTo [0x0d, 0x04, 0x03, 0x02, 0x01] (.notDat 0x01020304) = true := by
  decide

theorem test_decode_arith :
    decodesTo [0x06, 0x04, 0x03, 0x02, 0x01, 0x08, 0x07, 0x06, 0x05] (.addDat 0x01020304 0x05060708) = true ∧
    decodesTo [0x07, 0x04, 0x03, 0x02, 0x01, 0x08, 0x07, 0x06, 0x05] (.subDat 0x01020304 0x05060708) = true ∧
    decodesTo [0x08, 0x04, 0x03, 0x02, 0x01, 0x08, 0x07, 0x06, 0x05] (.mulDat 0x01020304 0x05060708) = true ∧
    decodesTo [0x09, 0x04, 0x03, 0x02, 0x01, 0x08, 0x07, 0x06, 0x05] (.divDat 0x01020304 0x05060708) = true ∧
    decodesTo [0x16, 0x04, 0x03, 0x02, 0x01, 0x08, 0x07, 0x06, 0x05] (.modDat 0x01020304 0x05060708) = true ∧
    decodesTo [0x0a, 0x04, 0x03, 0x02, 0x01, 0x08, 0x07, 0x06, 0x05] (.borDat 0x01020304 0x05060708) = true ∧
    decodesTo [0x0b, 0x04, 0x03, 0x02, 0x01, 0x08, 0x07, 0x06, 0x05] (.andDat 0x01020304 0x05060708) = true ∧
    decodesTo [0x0c, 0x04, 0x03, 0x02, 0x01, 0x08, 0x07, 0x06, 0x05] (.xorDat 0x01020304 0x05060708) = true ∧
    decodesTo [0x17, 0x04, 0x03, 0x02, 0x01, 0x08, 0x07, 0x06, 0x05] (.shlDat 0x01020304 0x05060708) = true ∧
    decodesTo [0x18, 0x04, 0x03, 0x02, 0x01, 0x08, 0x07, 0x06, 0x05] (.shrDat 0x01020304 0x05060708) = true := by
  decide

theorem test_decode_indirect :
    decodesTo [0x0e, 0x04, 0x03, 0x02, 0x01, 0x08, 0x07, 0x06, 0x05] (.setInd 0x01020304 0x05060708) = true ∧
    decodesTo [0x0f, 0x04, 0x03, 0x02, 0x01, 0x08, 0x07, 0x06, 0x05, 0x0c, 0x0b, 0x0a, 0x09] (.setIdx 0x01020304 0x05060708 0x090a0b0c) = true ∧
    decodesTo [0x14, 0x04, 0x03, 0x02, 0x01, 0x08, 0x07, 0x06, 0x05] (.indDat 0x01020304 0x05060708) = true ∧
    decodesTo [0x15, 0x04, 0x03, 0x02, 0x01, 0x08, 0x07, 0x06, 0x05, 0x0c, 0x0b, 0x0a, 0x09] (.idxDat 0x01020304 0x05060708 0x090a0b0c) = true ∧
    decodesTo [0x10, 0x04, 0x03, 0x02, 0x01] (.pshDat 0x01020304) = true ∧
    decodesTo [0x11, 0x04, 0x03, 0x02, 0x01] (.popDat 0x01020304) = true := by
  decide

theorem test_decode_control :
    decodesTo [0x12, 0x84, 0x83, 0x82, 0x81] (.jmpSub 0x81828384) = true ∧
    decodesTo [0x13] (.retSub) = true ∧
    decodesTo [0x1a, 0x84, 0x83, 0x82, 0x81] (.jmpAdr 0x81828384) = true ∧
    decodesTo [0x1b, 0x04, 0x03, 0x02, 0x01, 0x91] (.bzrDat 0x01020304 0x91) = true ∧
    decodesTo [0x1e, 0x04, 0x03, 0x02, 0x01, 0x91] (.bnzDat 0x01020304 0x91) = true ∧
    decodesTo [0x1f, 0x04, 0x03, 0x02, 0x01, 0x08, 0x07, 0x06, 0x05, 0x91] (.bgtDat 0x01020304 0x05060708 0x91) = true ∧
    decodesTo [0x20, 0x04, 0x03, 0x02, 0x01, 0x08, 0x07, 0x06, 0x05, 0x91] (.bltDat 0x01020304 0x05060708 0x91) = true ∧
    decodesTo [0x21, 0x04, 0x03, 0x02, 0x01, 0x08, 0x07, 0x06, 0x05, 0x91] (.bgeDat 0x01020304 0x05060708 0x91) = true ∧
    decodesTo [0x22, 0x04, 0x03, 0x02, 0x01, 0x08, 0x07, 0x06, 0x05, 0x91] (.bleDat 0x01020304 0x05060708 0x91) = true ∧
    decodesTo [0x23, 0x04, 0x03, 0x02, 0x01, 0x08, 0x07, 0x06, 0x05, 0x91] (.beqDat 0x01020304 0x05060708 0x91) = true ∧
    decodesTo [0x24, 0x04, 0x03, 0x02, 0x01, 0x08, 0x07, 0x06, 0x05, 0x91] (.bneDat 0x01020304 0x05060708 0x91) = true := by
  decide

theorem test_decode_system :
    decodesTo [0x25, 0x04, 0x03, 0x02, 0x01] (.slpDat 0x01020304) = true ∧
    decodesTo [0x2a] (.slpImd) = true ∧
    decodesTo [0x26, 0x04, 0x03, 0x02, 0x01] (.fizDat 0x01020304) = true ∧
    decodesTo [0x28] (.finImd) = true ∧
    decodesTo [0x27, 0x04, 0x03, 0x02, 0x01] (.stzDat 0x01020304) = true ∧
    decodesTo [0x29] (.stpImd) = true ∧
    decodesTo [0x2b, 0x84, 0x83, 0x82, 0x81] (.errAdr 0x81828384) = true ∧
    decodesTo [0x30] (.setPcs) = true := by
  decide

theorem test_decode_external :
    decodesTo [0x32, 0xc2, 0xc1] (.extFun 0xc1c2) = true ∧
    decodesTo [0x33, 0xc2, 0xc1, 0x04, 0x03, 0x02, 0x01] (.extFunDat 0xc1c2 0x01020304) = true ∧
    decodesTo [0x34, 0xc2, 0xc1, 0x04, 0x03, 0x02, 0x01, 0x08, 0x07, 0x06, 0x05] (.extFunDat2 0xc1c2 0x01020304 0x05060708) = true ∧
    decodesTo [0x35, 0xc2, 0xc1, 0x04, 0x03, 0x02, 0x01] (.extFunRet 0xc1c2 0x01020304) = true ∧
    decodesTo [0x36, 0xc2, 0xc1, 0x04, 0x03, 0x02, 0x01, 0x08, 0x07, 0x06, 0x05] (.extFunRetDat 0xc1c2 0x01020304 0x05060708) = true ∧
    decodesTo [0x37, 0xc2, 0xc1, 0x04, 0x03, 0x02, 0x01, 0x08, 0x07, 0x06, 0x05, 0x0c, 0x0b, 0x0a, 0x09] (.extFunRetDat2 0xc1c2 0x01020304 0x05060708 0x090a0b0c) = true := by
  decide

/-- V30.1 to V30.8, V30.11 to V30.17: slots at the edge of the region, operands cut off, offsets outside. -/
theorem test_decode_edges :
    let at_ := fun (q : Nat) (bs : List Byte) =>
      decode { code := zeroMemory.writeBytes q bs, codeSize := 512, dataSize := 512 }
    at_ 0 [0x03, 63, 0, 0, 0] 0 = .ok (.clrDat 63, 5) ∧ at_ 0 [0x03, 64, 0, 0, 0] 0 = .error .overflow ∧
    at_ 0 [0x03, 0xff, 0xff, 0xff, 0xff] 0 = .error .overflow ∧ at_ 0 [0x19] 0 = .error .invalidOp ∧
    at_ 0 [0x1f, 0, 0, 0, 0, 64, 0, 0, 0, 5] 0 = .error .overflow ∧
    at_ 508 [0x03] 508 = .error .overflow ∧ at_ 507 [0x03] 507 = .ok (.clrDat 0, 5) ∧
    at_ 0 [] 512 = .error .overflow ∧ at_ 0 [] (-1) = .error .overflow ∧
    at_ 509 [0x7f, 0x7f, 0x7f] 510 = .ok (.nop 2, 2) := by
  decide

/-- The host's two questions, on a short word and on the longest one. -/
theorem test_table_words :
    decodeTableWord 8 0x37 = some (.extFunRetDat2 0 0 0 0) ∧
    decodeTableWord 48 0x80000000031b = some (.bzrDat 3 0x80) ∧
    nextIs (step (State.reset.withFetchWord 104 0x22b80000000001)) (wrote 0 0x22b8 13) = true := by
  decide

/-! Single steps, with the results of 95_test_vectors.md part 2 (V40 to V45) or of the rules' examples. -/

/-- V40.1. -/
theorem test_nop_run :
    steps [0x7f, 0x7f, 0x7f] [] (went 3) = true := by
  decide

/-- V40.3, V40.4. -/
theorem test_set_val :
    steps [0x01, 0x3f, 0x00, 0x00, 0x00, 0x00, 0x00, 0x00, 0x00, 0x00, 0x00, 0x00, 0x80] [] (wrote 63 (-9223372036854775808) 13) = true ∧
    steps [0x01, 0x40, 0x00, 0x00, 0x00, 0x01, 0x00, 0x00, 0x00, 0x00, 0x00, 0x00, 0x00] [] (faulted .overflow) = true := by
  decide

/-- V40.6. -/
theorem test_set_dat :
    steps [0x02, 0x01, 0x00, 0x00, 0x00, 0x00, 0x00, 0x00, 0x00] [(0, 77), (1, 5)] (wrote 1 77 9) = true := by
  decide

/-- V40.8. -/
theorem test_clr_dat :
    steps [0x03, 0x03, 0x00, 0x00, 0x00] [(3, -9)] (wrote 3 0 5) = true := by
  decide

/-- V40.9. -/
theorem test_inc_dat_wraps :
    steps [0x04, 0x00, 0x00, 0x00, 0x00] [(0, 9223372036854775807)] (wrote 0 (-9223372036854775808) 5) = true := by
  decide

/-- V40.11. -/
theorem test_dec_dat_wraps :
    steps [0x05, 0x00, 0x00, 0x00, 0x00] [(0, -9223372036854775808)] (wrote 0 9223372036854775807 5) = true := by
  decide

/-- V40.15. -/
theorem test_not_dat :
    steps [0x0d, 0x00, 0x00, 0x00, 0x00] [(0, 3855)] (wrote 0 (-3856) 5) = true := by
  decide

/-- V41.2, V41.4. -/
theorem test_add_dat :
    steps [0x06, 0x00, 0x00, 0x00, 0x00, 0x01, 0x00, 0x00, 0x00] [(0, 9223372036854775807), (1, 1)] (wrote 0 (-9223372036854775808) 9) = true ∧
    steps [0x06, 0x00, 0x00, 0x00, 0x00, 0x00, 0x00, 0x00, 0x00] [(0, 21)] (wrote 0 42 9) = true := by
  decide

/-- V41.5, V41.7. -/
theorem test_sub_dat :
    steps [0x07, 0x00, 0x00, 0x00, 0x00, 0x01, 0x00, 0x00, 0x00] [(0, 2), (1, 3)] (wrote 0 (-1) 9) = true ∧
    steps [0x07, 0x00, 0x00, 0x00, 0x00, 0x01, 0x00, 0x00, 0x00] [(0, 0), (1, -9223372036854775808)] (wrote 0 (-9223372036854775808) 9) = true := by
  decide

/-- V41.9, V41.13. -/
theorem test_mul_dat :
    steps [0x08, 0x00, 0x00, 0x00, 0x00, 0x01, 0x00, 0x00, 0x00] [(0, -3), (1, 7)] (wrote 0 (-21) 9) = true ∧
    steps [0x08, 0x00, 0x00, 0x00, 0x00, 0x01, 0x00, 0x00, 0x00] [(0, 3037000500), (1, 3037000500)] (wrote 0 (-9223372036709301616) 9) = true := by
  decide

/-- V41.15, V41.18. -/
theorem test_div_dat :
    steps [0x09, 0x00, 0x00, 0x00, 0x00, 0x01, 0x00, 0x00, 0x00] [(0, -7), (1, 2)] (wrote 0 (-3) 9) = true ∧
    steps [0x09, 0x00, 0x00, 0x00, 0x00, 0x01, 0x00, 0x00, 0x00] [(0, -9223372036854775808), (1, -1)] (wrote 0 (-9223372036854775808) 9) = true := by
  decide

/-- E2, V41.19. -/
theorem test_div_dat_zero_divisor :
    steps [0x09, 0x00, 0x00, 0x00, 0x00, 0x01, 0x00, 0x00, 0x00] [(0, 5)] (fun t => faulted .invalidOp t && (t.slot 0).toInt == 5) = true := by
  decide

/-- V41.24, V41.25, V41.28. -/
theorem test_mod_dat :
    steps [0x16, 0x00, 0x00, 0x00, 0x00, 0x01, 0x00, 0x00, 0x00] [(0, -7), (1, 3)] (wrote 0 (-1) 9) = true ∧
    steps [0x16, 0x00, 0x00, 0x00, 0x00, 0x01, 0x00, 0x00, 0x00] [(0, 7), (1, -3)] (wrote 0 (1) 9) = true ∧
    steps [0x16, 0x00, 0x00, 0x00, 0x00, 0x01, 0x00, 0x00, 0x00] [(0, 5)] (faulted .invalidOp) = true := by
  decide

/-- V41.30. -/
theorem test_bor_dat :
    steps [0x0a, 0x00, 0x00, 0x00, 0x00, 0x01, 0x00, 0x00, 0x00] [(0, 240), (1, 15)] (wrote 0 (255) 9) = true := by
  decide

/-- V41.32. -/
theorem test_and_dat :
    steps [0x0b, 0x00, 0x00, 0x00, 0x00, 0x01, 0x00, 0x00, 0x00] [(0, 255), (1, 3855)] (wrote 0 (15) 9) = true := by
  decide

/-- V41.34. -/
theorem test_xor_dat :
    steps [0x0c, 0x00, 0x00, 0x00, 0x00, 0x01, 0x00, 0x00, 0x00] [(0, 255), (1, 3855)] (wrote 0 (4080) 9) = true := by
  decide

/-- V41.40, V41.41. -/
theorem test_shl_dat :
    steps [0x17, 0x00, 0x00, 0x00, 0x00, 0x01, 0x00, 0x00, 0x00] [(0, 3), (1, 65)] (wrote 0 (6) 9) = true ∧
    steps [0x17, 0x00, 0x00, 0x00, 0x00, 0x01, 0x00, 0x00, 0x00] [(0, 1), (1, -1)] (wrote 0 (-9223372036854775808) 9) = true := by
  decide

/-- V41.52, V41.53. -/
theorem test_shr_dat :
    steps [0x18, 0x00, 0x00, 0x00, 0x00, 0x01, 0x00, 0x00, 0x00] [(0, -7), (1, 1)] (wrote 0 (-4) 9) = true ∧
    steps [0x18, 0x00, 0x00, 0x00, 0x00, 0x01, 0x00, 0x00, 0x00] [(0, 8), (1, -62)] (wrote 0 (2) 9) = true := by
  decide

/-- V42.1, V42.5. -/
theorem test_set_ind :
    steps [0x0e, 0x00, 0x00, 0x00, 0x00, 0x01, 0x00, 0x00, 0x00] [(1, 5), (5, 99)] (wrote 0 99 9) = true ∧
    steps [0x0e, 0x00, 0x00, 0x00, 0x00, 0x01, 0x00, 0x00, 0x00] [(0, 7), (1, 4294967296)] (faulted .overflow) = true := by
  decide

/-- V42.7, V42.10. -/
theorem test_set_idx :
    steps [0x0f, 0x00, 0x00, 0x00, 0x00, 0x01, 0x00, 0x00, 0x00, 0x02, 0x00, 0x00, 0x00] [(1, 10), (2, -4), (6, 55)] (wrote 0 55 13) = true ∧
    steps [0x0f, 0x00, 0x00, 0x00, 0x00, 0x01, 0x00, 0x00, 0x00, 0x02, 0x00, 0x00, 0x00] [(0, 7), (1, -9223372036854775808), (2, -9223372036854775805), (3, 88)] (faulted .overflow) = true := by
  decide

/-- V42.11, V42.13. -/
theorem test_ind_dat :
    steps [0x14, 0x00, 0x00, 0x00, 0x00, 0x01, 0x00, 0x00, 0x00] [(0, 6), (1, -42)] (wrote 6 (-42) 9) = true ∧
    steps [0x14, 0x00, 0x00, 0x00, 0x00, 0x01, 0x00, 0x00, 0x00] [(0, 0), (1, 9)] (wrote 0 9 9) = true := by
  decide

/-- V42.14. -/
theorem test_idx_dat :
    steps [0x15, 0x00, 0x00, 0x00, 0x00, 0x01, 0x00, 0x00, 0x00, 0x02, 0x00, 0x00, 0x00] [(0, 3), (1, 2), (2, 77)] (wrote 5 77 13) = true := by
  decide

/-- E3: the last entry stands at byte 768, and a full stack takes OVERFLOW. -/
theorem test_psh_dat :
    nextIs (exec (.pshDat 0) { machine [] [(0, 9)] with us := 31 }) (fun t => t.us == 32 && t.data.word 768 == 9 && went 5 t) = true ∧
    nextIs (exec (.pshDat 0) { machine [] [(0, 9)] with us := 32 }) (fun t => t.us == 32 && faulted .overflow t) = true := by
  decide

/-- R146. -/
theorem test_pop_dat :
    nextIs (exec (.popDat 2) { machine [] [(127, -2)] with us := 1 }) (fun t => t.us == 0 && wrote 2 (-2) 5 t) = true ∧
    steps [0x11, 0x00, 0x00, 0x00, 0x00] [] (faulted .overflow) = true := by
  decide

/-- R161. -/
theorem test_jmp_sub :
    steps [0x12, 0x05, 0x00, 0x00, 0x00] [] (fun t => t.cs == 1 && t.data.word 760 == 5 && went 5 t) = true ∧
    nextIs (exec (.jmpSub 3) { machine [] [(0, 9)] with cs := 32 }) (faulted .overflow) = true := by
  decide

/-- R162. -/
theorem test_ret_sub :
    nextIs (exec .retSub { machine [] [(95, 0)] with cs := 1, pc := 7 }) (fun t => t.cs == 0 && went 0 t) = true ∧
    nextIs (exec .retSub { machine [] [(95, 4294967296)] with cs := 1 }) (fun t => t.cs == 1 && faulted .invalidOp t) = true := by
  decide

/-- V43.1, V43.2, V43.4: R163. -/
theorem test_jmp_adr :
    steps [0x1a, 0x05, 0x00, 0x00, 0x00] [] (went 5) = true ∧
    steps [0x1a, 0x03, 0x00, 0x00, 0x00] [] (faulted .invalidOp) = true := by
  decide

/-- R164. -/
theorem test_bzr_dat :
    steps [0x1b, 0x00, 0x00, 0x00, 0x00, 0x07, 0x28] [] (went 7) = true ∧
    steps [0x1b, 0x00, 0x00, 0x00, 0x00, 0x07, 0x28] [(0, 1)] (went 6) = true := by
  decide

/-- R165; a displacement to no member. -/
theorem test_bnz_dat :
    steps [0x1e, 0x00, 0x00, 0x00, 0x00, 0x07, 0x28] [(0, -1)] (went 7) = true ∧
    steps [0x1e, 0x00, 0x00, 0x00, 0x00, 0x03, 0x28] [(0, 1)] (faulted .invalidOp) = true := by
  decide

/-- R166. -/
theorem test_bgt_dat :
    steps [0x1f, 0x00, 0x00, 0x00, 0x00, 0x01, 0x00, 0x00, 0x00, 0x0b, 0x28] [(0, 0), (1, -1)] (went 11) = true ∧
    steps [0x1f, 0x00, 0x00, 0x00, 0x00, 0x01, 0x00, 0x00, 0x00, 0x0b, 0x28] [(0, 2), (1, 2)] (went 10) = true := by
  decide

/-- R167. -/
theorem test_blt_dat :
    steps [0x20, 0x00, 0x00, 0x00, 0x00, 0x01, 0x00, 0x00, 0x00, 0x0b, 0x28] [(0, -9223372036854775808), (1, 9223372036854775807)] (went 11) = true ∧
    steps [0x20, 0x00, 0x00, 0x00, 0x00, 0x01, 0x00, 0x00, 0x00, 0x0b, 0x28] [(0, 2), (1, 2)] (went 10) = true := by
  decide

/-- R168. -/
theorem test_bge_dat :
    steps [0x21, 0x00, 0x00, 0x00, 0x00, 0x01, 0x00, 0x00, 0x00, 0x0b, 0x28] [(0, 2), (1, 2)] (went 11) = true ∧
    steps [0x21, 0x00, 0x00, 0x00, 0x00, 0x01, 0x00, 0x00, 0x00, 0x0b, 0x28] [(0, -1), (1, 0)] (went 10) = true := by
  decide

/-- R169. -/
theorem test_ble_dat :
    steps [0x22, 0x00, 0x00, 0x00, 0x00, 0x01, 0x00, 0x00, 0x00, 0x0b, 0x28] [(0, 2), (1, 2)] (went 11) = true ∧
    steps [0x22, 0x00, 0x00, 0x00, 0x00, 0x01, 0x00, 0x00, 0x00, 0x0b, 0x28] [(0, 0), (1, -1)] (went 10) = true := by
  decide

/-- R170. -/
theorem test_beq_dat :
    steps [0x23, 0x00, 0x00, 0x00, 0x00, 0x01, 0x00, 0x00, 0x00, 0x0b, 0x28] [(0, 2), (1, 2)] (went 11) = true ∧
    steps [0x23, 0x00, 0x00, 0x00, 0x00, 0x01, 0x00, 0x00, 0x00, 0x0b, 0x28] [(0, -9223372036854775808), (1, 9223372036854775807)] (went 10) = true := by
  decide

/-- R171. -/
theorem test_bne_dat :
    steps [0x24, 0x00, 0x00, 0x00, 0x00, 0x01, 0x00, 0x00, 0x00, 0x0b, 0x28] [(0, -9223372036854775808), (1, 9223372036854775807)] (went 11) = true ∧
    steps [0x24, 0x00, 0x00, 0x00, 0x00, 0x01, 0x00, 0x00, 0x00, 0x0b, 0x28] [(0, 2), (1, 2)] (went 10) = true := by
  decide

/-- R190, R191. -/
theorem test_slp :
    steps [0x25, 0x01, 0x00, 0x00, 0x00] [(1, -5)] (went 5) = true ∧
    steps [0x2a] [] (went 1) = true := by
  decide

/-- R194. -/
theorem test_fiz_dat :
    nextIs (exec (.fizDat 0) { machine [] [] with pcs := 7 }) (fun t => t.finished && went 7 t) = true ∧
    steps [0x26, 0x00, 0x00, 0x00, 0x00] [(0, 5)] (fun t => !t.finished && went 5 t) = true := by
  decide

/-- R195. -/
theorem test_fin_imd :
    nextIs (exec .finImd { machine [] [] with pcs := 7, pc := 3 }) (fun t => t.finished && went 7 t) = true := by
  decide

/-- R196. -/
theorem test_stz_dat :
    steps [0x27, 0x01, 0x00, 0x00, 0x00] [] (fun t => t.stopped && went 5 t) = true ∧
    steps [0x27, 0x01, 0x00, 0x00, 0x00] [(1, -1)] (fun t => !t.stopped && went 5 t) = true := by
  decide

/-- R197. -/
theorem test_stp_imd :
    steps [0x29] [] (fun t => t.stopped && !t.finished && went 1 t) = true := by
  decide

/-- R198. -/
theorem test_err_adr :
    steps [0x2b, 0x06, 0x00, 0x00, 0x00, 0x28] [] (fun t => t.pce == 6 && went 5 t) = true ∧
    steps [0x2b, 0x07, 0x00, 0x00, 0x00, 0x28] [] (fun t => t.pce == 0 && faulted .invalidErrorHandler t) = true := by
  decide

/-- R199. -/
theorem test_set_pcs :
    steps [0x30] [] (fun t => t.pcs == 1 && went 1 t) = true := by
  decide

/-- R219, R223. -/
theorem test_ext_fun_copy :
    nextIs (exec (.extFun 0x0123) { machine [] [] with b := ⟨1, 2, 3, 4⟩ }) (fun t => t.a == ⟨1, 2, 3, 4⟩ && t.b == ⟨1, 2, 3, 4⟩ && went 3 t) = true := by
  decide

/-- R216, R224. -/
theorem test_ext_fun_dat_set :
    steps [0x33, 0x19, 0x01, 0x00, 0x00, 0x00, 0x00] [(0, -7)] (fun t => t.b == ⟨0, 0, 0, -7⟩ && t.a == zeroGroup && went 7 t) = true := by
  decide

/-- R217, R225. -/
theorem test_ext_fun_dat_2_set_pair :
    steps [0x34, 0x15, 0x01, 0x00, 0x00, 0x00, 0x00, 0x01, 0x00, 0x00, 0x00] [(0, 7), (1, 8)] (fun t => t.a == ⟨0, 0, 7, 8⟩ && t.b == zeroGroup && went 11 t) = true := by
  decide

/-- R215, R226. -/
theorem test_ext_fun_ret_get :
    nextIs (exec (.extFunRet 0x0106 2) { machine [] [] with b := ⟨1, 2, 3, 4⟩ }) (wrote 2 3 7) = true ∧
    nextIs (exec (.extFunRet 0x9999 0) (machine [] [(0, 9)])) (wrote 0 0 7) = true := by
  decide

/-- R212, R227: a set function number in another shape. -/
theorem test_ext_fun_ret_dat_unknown :
    nextIs (exec (.extFunRetDat 0x0100 0 1) (machine [] [(0, 9), (1, 3)])) (wrote 0 0 11) = true := by
  decide

/-- R217, R228. -/
theorem test_ext_fun_ret_dat_2_set_pair :
    nextIs (exec (.extFunRetDat2 0x0114 0 1 2) (machine [] [(0, 9), (1, 3), (2, 4)])) (fun t => t.a == ⟨3, 4, 0, 0⟩ && wrote 0 0 15 t) = true := by
  decide

/-- R317. -/
theorem test_overflow_absorbed :
    nextIs (exec (.popDat 0) { machine [] [] with pce := 6, pc := 2 }) (fun t => t.pc == 6 && t.steps == 0 && t.fault == none) = true := by
  decide

/-! Witnesses: concrete states and operands that meet the hypotheses of the statements. -/

/-- A good state: code `CLR_DAT @3` at 0 and `FIN_IMD` at 5, one entry on each stack (the return address 5
and the value 77), slots 0, 1 and 2 holding 3, -2 and 63, a Fixture Table of two entries, fuel 4. -/
def good : State :=
  { machine [0x03, 0x03, 0, 0, 0] [(0, 3), (1, -2), (2, 63), (95, 5), (127, 77)] with
    cs := 1, us := 1
    host := { initHost with
              fuel := 4, incrFn := 5
              fixture := [{ fn := 5, loop := true, cursor := 1, values := [10, -1] },
                          { fn := 9, loop := false, cursor := 1, values := [4, 6] }] } }

/-- The same code with both stacks full. -/
def full : State := { good with cs := 32, us := 32 }

theorem test_good_fixture : FixtureOk good.host.fixture where
  ascending := by decide
  cursors := by decide
  lengths := by decide
  count := by decide

theorem test_good_inv : good.Inv opcDefault where
  pagesOk := by decide
  codeWf := by decide
  codeWithin := by decide
  dataWf := by decide
  dataWithin := by decide
  csOk := by decide
  usOk := by decide
  jtOk := fun _ => by decide
  fixtureOk := test_good_fixture

/-- DecodeOfEncodeIsTheInstruction: an instruction with a slot at the region's edge, and a NOP run that
another byte ends. -/
theorem test_witness_decode_of_encode :
    let v := good.codeView
    let w := (machine [0x7f, 0x7f] []).codeView
    ((Instr.clrDat 3).wf v.dataSize = true ∧ CodeHolds v 0 (encodeWith opcDefault (.clrDat 3)) ∧
      RunEndsAt opcDefault v 0 (.clrDat 3)) ∧
    ((Instr.nop 2).wf w.dataSize = true ∧ CodeHolds w 0 (encodeWith opcDefault (.nop 2)) ∧
      RunEndsAt opcDefault w 0 (.nop 2)) :=
  ⟨⟨by decide, ⟨by decide, by decide⟩, fun h => by cases h⟩,
   ⟨by decide, ⟨by decide, by decide⟩, fun _ => .inr (by decide)⟩⟩

/-- DecodedBytesAreTheEncoding, StepRunsTheDecodedInstruction. -/
theorem test_witness_decoded :
    decode good.codeView 0 = .ok (.clrDat 3, 5) ∧ good.jtValid = true ∧
      decode good.codeView good.pc.toInt = .ok (.clrDat 3, 5) := by decide

/-- DecodeFailureKinds: both edges of the segment, a byte that is no opcode, an opcode cut off. -/
theorem test_witness_decode_failures :
    ((-1 : Int) < 0 ∧ (good.codeView.codeSize : Int) ≤ 512) ∧
    ((0 : Int) ≤ 511 ∧ (511 : Int) < good.codeView.codeSize ∧ ∀ m, opcDefault m ≠ good.codeView.code.read 511) ∧
    (let v := { good.codeView with code := zeroMemory.writeBytes 511 [0x03] }
     opcDefault .clrDat = v.code.read 511 ∧ decode v 511 = .error .overflow) :=
  ⟨by decide, ⟨by decide, by decide, mnemonicOf_none.mp (by decide)⟩, by decide⟩

/-- UnfittingFieldsAndBadSlotsOverflow: four bytes are too few for CLR_DAT; slot 64 of 64. -/
theorem test_witness_unfitting :
    (let v := { good.codeView with code := zeroMemory.writeBytes 508 [0x03] }
     508 < v.codeSize ∧ v.code.read 508 = opcDefault .clrDat ∧ v.codeSize < 508 + (formatOf .clrDat).bytes) ∧
    (let v := (machine [0x03, 64, 0, 0, 0] []).codeView
     (Instr.clrDat 64).mnemonic ≠ .nop ∧ CodeHolds v 0 (encode (.clrDat 64)) ∧
       ∃ a ∈ (Instr.clrDat 64).slots, ¬SlotOk v.dataSize a.toInt) :=
  ⟨by decide, by decide, ⟨by decide, by decide⟩, 64, by simp [Instr.slots], by decide⟩

/-- StepTakesTheDecodeFault: past the end of the code, and at a byte that is no opcode. -/
theorem test_witness_decode_fault :
    (let s := { good with pc := 512 }
     s.jtValid = true ∧ decode s.codeView s.pc.toInt = .error .overflow) ∧
    (let s := { good with pc := 511 }
     s.jtValid = true ∧ decode s.codeView s.pc.toInt = .error .invalidOp) := by decide

/-- RefusedWhileTheJumpTableIsInvalid, RunsRefusedOrOutOfFuelAtOnce: the three reasons for a refusal, no
fuel left, and a good state that may run. -/
theorem test_witness_refused :
    (blankState resetPages).jtValid = false ∧
    ({ good with finished := true }).finished = true ∧
    ({ good with fault := some .overflow }).faultCode ≠ 0 ∧
    (State.reset.jtValid = true ∧ State.reset.finished = false ∧ State.reset.faultCode = 0 ∧
      State.reset.host.fuel.toInt ≤ 0) ∧
    (good.jtValid = true ∧ good.finished = false ∧ good.faultCode = 0 ∧ 0 < good.host.fuel.toInt) := by decide

/-- DataAccesses: both ends of the segment; below it, unaligned in it, and past it. -/
theorem test_witness_accesses :
    AccessOk good 0 ∧ AccessOk good 1016 ∧ ¬AccessOk good (-8) ∧ ¬AccessOk good 4 ∧ ¬AccessOk good 1024 := by
  decide

/-- StepsOfTheSourceFixedBytes: slots 63 and 64, a cut-off instruction, and `28`. -/
theorem test_witness_source_bytes :
    (let s := machine [0x01, 63, 0, 0, 0, 7, 0, 0, 0, 0, 0, 0, 0x80] []
     s.jtValid = true ∧ s.pc.toInt = ((0 : Nat) : Int) ∧ FieldOk s 63 ∧
       CodeHolds s.codeView 0 ((0x01 : Byte) :: (bytesLE 4 (63 : SlotAddr).toNat ++
         bytesLE 8 (0x8000000000000007 : Imm).toNat))) ∧
    (let s := machine [0x01, 64, 0, 0, 0, 7, 0, 0, 0, 0, 0, 0, 0] []
     s.jtValid = true ∧ s.pc.toInt = ((0 : Nat) : Int) ∧ ¬FieldOk s 64 ∧
       CodeHolds s.codeView 0 ((0x01 : Byte) :: (bytesLE 4 (64 : SlotAddr).toNat ++ bytesLE 8 (7 : Imm).toNat))) ∧
    (let s := { good with pc := 500, code := zeroMemory.writeBytes 500 [0x01] }
     s.jtValid = true ∧ s.pc.toInt = ((500 : Nat) : Int) ∧ 500 < s.pages.codeSize ∧
       s.pages.codeSize < 500 + 13 ∧ s.code.read 500 = 0x01) ∧
    (let s := { good with pc := 5 }
     s.jtValid = true ∧ s.pc.toInt = ((5 : Nat) : Int) ∧ CodeHolds s.codeView 5 [0x28]) :=
  ⟨⟨by decide, by decide, by decide, by decide, by decide⟩,
   ⟨by decide, by decide, by decide, by decide, by decide⟩, by decide, by decide, by decide, by decide, by decide⟩

/-- EveryStepKeepsTheInvariant, GoodStatesAlwaysStep, DecodedBytes: a good state that steps. -/
theorem test_witness_good_step :
    good.Inv opcDefault ∧ good.jtValid = true ∧ ∃ t, step good = .next t ∧ t.pc = 5 := by
  obtain ⟨t, h, hp⟩ := next_of_nextIs (o := step good) (p := fun t => t.pc == 5) (by decide)
  exact ⟨test_good_inv, by decide, t, h, by simpa using hp⟩

/-- StoresStayInTheirRegion, CompletesOrFaultsWhole, OnlyTheNamedInstructionsWrite: stores to each region. -/
theorem test_witness_stores :
    good.Inv opcDefault ∧
    (∃ t, exec (.setVal 63 (-1)) good = .next t ∧ t.data.read 511 ≠ good.data.read 511) ∧
    (∃ t, exec (.jmpSub 5) { good with cs := 0, pc := 255 } = .next t ∧ t.data.read 761 = 1) ∧
    (∃ t, exec (.pshDat 0) good = .next t ∧ t.data.read 1008 ≠ good.data.read 1008) := by
  obtain ⟨t, ht, pt⟩ := next_of_nextIs (o := exec (.setVal 63 (-1)) good)
    (p := fun t => t.data.read 511 != good.data.read 511) (by decide)
  obtain ⟨u, hu, pu⟩ := next_of_nextIs (o := exec (.jmpSub 5) { good with cs := 0, pc := 255 })
    (p := fun t => t.data.read 761 == 1) (by decide)
  obtain ⟨v, hv, pv⟩ := next_of_nextIs (o := exec (.pshDat 0) good)
    (p := fun t => t.data.read 1008 != good.data.read 1008) (by decide)
  exact ⟨test_good_inv, ⟨t, ht, by simpa using pt⟩, ⟨u, hu, by simpa using pu⟩, ⟨v, hv, by simpa using pv⟩⟩

/-- InitializationValues: the largest page counts, and one more. -/
theorem test_witness_page_counts :
    (Pages.mk 4194303 8388608 67108863 67108863).InBounds ∧ ¬(Pages.mk 4194304 1 1 1).InBounds ∧
      ¬(Pages.mk 1 8388609 1 1).InBounds ∧ ¬(Pages.mk 1 1 67108864 1).InBounds := by decide

/-- BadSlotFieldTakesOverflow. -/
theorem test_witness_bad_slot : ∃ a ∈ (Instr.setDat 0 64).slots, ¬SlotOk good.pages.dataSize a.toInt :=
  ⟨64, by simp [Instr.slots], by decide⟩

/-- Every statement whose hypotheses are that slot fields pass the check: the first and the last slot. -/
theorem test_witness_fields : FieldOk good 0 ∧ FieldOk good 63 ∧ ¬FieldOk good 64 := by decide

/-- DivModTruncate, ZeroDivisorIsFatal: a divisor that is not zero, and one that is. -/
theorem test_witness_divisors : good.fieldSlot 1 ≠ 0 ∧ good.fieldSlot 3 = 0 ∧ FieldOk good 3 := by decide

/-- LoadsThroughAComputedAddress, StoresThroughAComputedAddress, BadComputedAddressOverflows: slot 2 holds
the last slot's number, slots 0 and 1 add up to 1, slot 1 is negative, slots 0 and 2 add up to 66. -/
theorem test_witness_computed_addresses :
    SlotOk good.pages.dataSize (good.fieldSlot 2).toInt ∧
    SlotOk good.pages.dataSize ((good.fieldSlot 0).toInt + (good.fieldSlot 1).toInt) ∧
    ¬SlotOk good.pages.dataSize (good.fieldSlot 1).toInt ∧
    ¬SlotOk good.pages.dataSize ((good.fieldSlot 0).toInt + (good.fieldSlot 2).toInt) := by decide

/-- PushStoresTheNextUserEntry, PopLoadsTheYoungestUserEntry, CallPushesTheReturnAddress,
ReturnPopsTheReturnAddress, NonMemberTargetsAreFatal: depths at both ends of their ranges, members and
not. -/
theorem test_witness_stacks :
    (0 ≤ good.us.toInt ∧ good.us.toInt < (good.pages.usCap : Int)) ∧
    ({ good with us := 31 }).us.toInt < (good.pages.usCap : Int) ∧
    (0 < good.us.toInt ∧ full.us.toInt ≤ (full.pages.usCap : Int)) ∧
    (0 ≤ good.cs.toInt ∧ good.cs.toInt < (good.pages.csCap : Int) ∧ InJT good 0 ∧ InJT good 5) ∧
    (0 < good.cs.toInt ∧ full.cs.toInt ≤ (full.pages.csCap : Int) ∧
      InJT good (good.data.word (good.pages.dataSize + good.pages.csSize - 8 * good.cs.toInt : Int).toNat).toInt) ∧
    (¬InJT good 3 ∧ ¬InJT good (-1) ∧ ¬InJT good 512 ∧
      ¬InJT { good with cs := 1, data := good.data.setWord 760 4294967296 } 4294967296) := by decide

/-- FullAndEmptyStacksOverflow. -/
theorem test_witness_full_and_empty :
    full.us.toInt = (full.pages.usCap : Int) ∧ full.cs.toInt = (full.pages.csCap : Int) ∧
      State.reset.us = 0 ∧ State.reset.cs = 0 := by decide

/-- PopReturnsWhatPushStored, ReturnComesBackAfterTheCall: the two steps are taken, from a good state. -/
theorem test_witness_round_trips :
    good.Inv opcDefault ∧ good.us.toInt < (good.pages.usCap : Int) ∧ good.cs.toInt < (good.pages.csCap : Int) ∧
    InJT good (0 : CodeAddr).toInt ∧ InJT good (good.pc.toInt + 5) ∧
    (∃ t u, exec (.pshDat 0) good = .next t ∧ exec (.popDat 63) t = .next u) ∧
    (∃ t u, exec (.jmpSub 0) good = .next t ∧ exec .retSub t = .next u) := by
  obtain ⟨t, ht, pt⟩ := next_of_nextIs (o := exec (.pshDat 0) good)
    (p := fun t => nextIs (exec (.popDat 63) t) fun _ => true) (by decide)
  obtain ⟨u, hu, -⟩ := next_of_nextIs pt
  obtain ⟨t', ht', pt'⟩ := next_of_nextIs (o := exec (.jmpSub 0) good)
    (p := fun t => nextIs (exec .retSub t) fun _ => true) (by decide)
  obtain ⟨u', hu', -⟩ := next_of_nextIs pt'
  exact ⟨test_good_inv, by decide, by decide, by decide, by decide, ⟨t, u, ht, hu⟩, ⟨t', u', ht', hu'⟩⟩

/-- OneSlotBranches, TwoSlotBranches: a zero slot and others; targets that are members and not, the farthest
displacements among them. -/
theorem test_witness_branches :
    (good.fieldSlot 3).toInt = 0 ∧ (good.fieldSlot 1).toInt < (good.fieldSlot 0).toInt ∧
    InJT good (good.pc.toInt + (5 : Disp).toInt) ∧ InJT { good with pc := 5 } (5 + (-5 : Disp).toInt) ∧
    ¬InJT good (good.pc.toInt + (-128 : Disp).toInt) ∧ ¬InJT good (good.pc.toInt + (127 : Disp).toInt) := by
  decide

/-- FinishGoesToThePrologueAddress, StopAdvancesAndSetsStopped: a slot that is zero and one that is not;
ControlRegisterInstructions, JumpGoesToAMember: a member. -/
theorem test_witness_system :
    FieldOk good 3 ∧ good.fieldSlot 3 = 0 ∧ FieldOk good 0 ∧ good.fieldSlot 0 ≠ 0 ∧
      InJT good (5 : CodeAddr).toInt ∧ InJT good (0 : CodeAddr).toInt := by decide

/-- GetFunctionsReturnTheRegister: the table of numbers at both its ends. -/
theorem test_witness_get_functions :
    let v := good.hostView
    (((0x0100 : FnNum), v.a.r1) ∈ [((0x0100 : FnNum), v.a.r1), (0x0101, v.a.r2)]) ∧
      good.hostView = v ∧ FieldOk good 63 := by decide

/-- The host of the examples of R227 and R228. -/
def exampleHost : HostFn := fun _ c v =>
  match c with
  | .host1 7 x => (x + 1, v)
  | .host2 9 x y => (x ^^^ y, v)
  | _ => (0, v)

/-- An opcode map that R81 allows and that is not the default one: NOP is `00`. -/
def zeroNop (m : Mnemonic) : Byte := if m = .nop then 0x00 else opcDefault m

theorem test_zero_nop_ok : OpcOk zeroNop where
  injective := fun m n h => by
    have back : ∀ k, mnemonicOf zeroNop (zeroNop k) = some k := by
      intro k; cases k <;> decide
    exact Option.some.inj ((back m).symm.trans (h ▸ back n))
  setVal := by decide
  extFunDat := by decide
  finImd := by decide

/-- Other parameters of a run (00_scope.md R6). -/
def otherParams : Params := { opc := zeroNop, opcOk := test_zero_nop_ok, host := exampleHost }

/-- AnyHostIsConfined, StepRunsTheDecodedInstruction: R227 and R228's examples, and a call of the host that
draws, as steps with parameters that are not the default ones. -/
theorem test_other_parameters :
    let code := fun bs words => rebuildJumpTable zeroNop (machine bs words)
    nextIs (engineStep otherParams (code [0x36, 0x07, 0, 0, 0, 0, 0, 1, 0, 0, 0] [(1, 4)]))
      (wrote 0 5 11) = true ∧
    nextIs (engineStep otherParams (code [0x37, 0x09, 0, 0, 0, 0, 0, 1, 0, 0, 0, 2, 0, 0, 0] [(1, 6), (2, 3)]))
      (wrote 0 5 15) = true ∧
    nextIs (engineStep otherParams (code [0, 0, 0] [])) (went 3) = true ∧
    nextIs (engineStep { defaultParams with host := drawingHost } (machine [0x32, 0x07, 0] [])) (went 3) = true := by
  decide

/-- EveryStepKeepsTheInvariant, RunsEndAsTheirOutcomeSays: hosts that leave the Fixture Table a finite map
and put no fuel back. -/
theorem test_witness_hosts :
    (HostKeepsTable defaultHost ∧ HostPutsNoFuelBack defaultHost) ∧
    (HostKeepsTable drawingHost ∧ HostPutsNoFuelBack drawingHost) := by
  refine ⟨⟨fun draw c v h => ?_, fun draw c v => ?_⟩, fun draw c v h => ?_, fun draw c v => ?_⟩
  · rcases defaultHost_cases draw c v with ⟨out, hb, ho⟩ | ⟨hb, ho⟩
    · rw [ho, builtin_ctx hb]; exact h
    · rw [ho]; exact fixtureEffect_ok c h
  · rw [defaultHost_fuel]
  · unfold drawingHost
    split
    · next out hb => rw [builtin_ctx hb]; exact h
    · exact h
  · unfold drawingHost
    split
    · next out hb => rw [builtin_ctx hb]
    · exact Int.le_refl _

/-- UnknownFunctionReturnsZero: an empty table, a number that is nothing. -/
theorem test_witness_unknown_function :
    let c := HostCall.host0 0x9999
    let v := { good.hostView with ctx := initHost }
    builtin v c = none ∧ (∀ e ∈ v.ctx.fixture, e.fn ≠ c.fn.zeroExtend 32) ∧ ¬(c.arity = 1 ∧ c.fn = 1) ∧
      c.fn.zeroExtend 32 ≠ v.ctx.incrFn ∧ clearsFixture c v.ctx = false := by decide

/-- FixtureLookupAndAdvance: the increment function with an entry of its own and another function, and the
increment function without one; before its first call and after it; cursors on the last value and below
it. -/
theorem test_witness_fixture :
    let v := good.hostView
    let w := { v with ctx := { v.ctx with
      firstCall := false, incrFn := 6
      fixture := [{ fn := 5, loop := true, cursor := 0, values := [10, -1] },
                  { fn := 9, loop := true, cursor := 1, values := [4, 6] }] } }
    (FixtureOk v.ctx.fixture ∧ v.ctx.firstCall = true ∧
      (∀ e ∈ v.ctx.fixture, e.cursor.toNat + 1 = e.values.length) ∧
      (builtin v (.host0 5) = none ∧ ¬((HostCall.host0 5).arity = 1 ∧ (HostCall.host0 5).fn = 1) ∧
        (5 : FnNum).zeroExtend 32 = v.ctx.incrFn) ∧
      (builtin v (.host2 9 1 2) = none ∧ (9 : FnNum).zeroExtend 32 ≠ v.ctx.incrFn)) ∧
    (FixtureOk w.ctx.fixture ∧ w.ctx.firstCall = false ∧ builtin w (.host0 6) = none ∧
      (6 : FnNum).zeroExtend 32 = w.ctx.incrFn ∧
      (∀ e ∈ w.ctx.fixture, e.fn ≠ (6 : FnNum).zeroExtend 32) ∧
      (∃ e ∈ w.ctx.fixture, e.cursor.toNat + 1 < e.values.length) ∧
      ∃ e ∈ w.ctx.fixture, e.cursor.toNat + 1 = e.values.length) := by
  refine ⟨⟨test_good_fixture, by decide, by decide, by decide, by decide⟩,
    ⟨by decide, by decide, by decide, by decide⟩, by decide, by decide, by decide, by decide, by decide, by decide⟩

/-- R231, on the increment effect itself: the entry below its last value moves, the looping one on its last
value returns to 0, the first call only clears `first_call`. -/
theorem test_increment :
    let fix := [{ fn := 5, loop := true, cursor := 0, values := [10, -1] : FixtureEntry },
                { fn := 9, loop := true, cursor := 1, values := [4, 6] }]
    let moved := (increment 6 { initHost with firstCall := false, incrFn := 6, fixture := fix }).fixture
    let first := increment 6 { initHost with incrFn := 6, fixture := fix }
    moved.map (·.cursor) = [1, 0] ∧ first.fixture = fix ∧ first.firstCall = false := by decide

/-- R229: echo leaves a table with entries as it is, also where its number is `incr_fn`. -/
theorem test_echo_changes_nothing :
    nextIs (exec (.extFunDat 1 0) { good with host := { good.host with incrFn := 1 } })
      (fun t => t.host == { good.host with incrFn := 1 } && t.a == good.a && went 7 t) = true := by decide

/-- JumpTableIsTheSweep, JumpTableProperties: a table that is not empty. -/
theorem test_witness_jump_table :
    jumpTable opcDefault good.codeView = [0, 5] ∧ jumpTable opcDefault State.reset.codeView = [] := by
  decide

/-- OperatorLoadsAndResizes: loads that just fit and that do not, page counts in bounds and not, for each
region. -/
theorem test_witness_operator :
    good.Inv opcDefault ∧
    (511 + [(1 : Byte)].length ≤ good.pages.codeSize ∧ good.pages.codeSize < 512 + [(1 : Byte)].length) ∧
    (1023 + [(1 : Byte)].length ≤ good.pages.segSize ∧ good.pages.segSize < 1024 + [(1 : Byte)].length) ∧
    (∀ x ∈ [(Region.code, 0), (.code, 4194303), (.data, 8388608), (.call, 67108863), (.user, 67108863)],
      (good.pages.set x.1 x.2).InBounds) ∧
    ¬(good.pages.set .data 8388609).InBounds :=
  ⟨test_good_inv, by decide, by decide, by decide, by decide⟩

/-- RunsEndAsTheirOutcomeSays, RunsRefusedOrOutOfFuelAtOnce: the run of the good state finishes; with a
limit, or a breakpoint at 5, or little fuel, or no instruction at `pc`, it ends there; with no fuel or no
step allowed nothing runs. -/
theorem test_witness_runs :
    (run defaultParams [] good).1 = .finished ∧ (stepN defaultParams [] 1 good).1 = .stepLimit ∧
      (stepN defaultParams [] 0 good).1 = .stepLimit ∧ (run defaultParams [5] good).1 = .breakpoint ∧
      (run defaultParams [] { good with host := { good.host with fuel := 1 } }).1 = .outOfFuel ∧
      (run defaultParams [] { good with host := { good.host with fuel := 0 } }).1 = .outOfFuel ∧
      (run defaultParams [] { good with pc := 511 }).1 = .faulted .invalidOp ∧
      (run defaultParams [] (machine [0x29] [])).1 = .outOfFuel ∧
      (run defaultParams [] (setFuel 2 (machine [0x29] []))).1 = .stopped := by decide

/-- A good state small enough to write out: no pages, the registers and the Fixture Table of `good`. -/
def small : State :=
  { good with pc := -1, cs := 0, us := 0, pages := ⟨0, 0, 0, 0⟩, jt := [], code := zeroMemory, data := zeroMemory }

/-- SnapshotLength, LoadOfSaveIsTheState, LoadAcceptsOnlyGoodStates, ResumptionAfterReloadIsExact: the
snapshot of a good state is a plain stream, accepted on another instance. -/
theorem test_witness_reload :
    small.Inv opcDefault ∧ small.jtValid = true ∧ small.finished = false ∧ small.fault = none ∧
      ∃ t, load opcDefault (save small) State.reset = some t ∧
        PlainStream (save small) t.pages t.host.fixture.length := by
  refine ⟨?_, by decide, by decide, by decide, small, by decide, by decide⟩
  exact
    { pagesOk := by decide, codeWf := by decide, codeWithin := by decide, dataWf := by decide
      dataWithin := by decide, csOk := by decide, usOk := by decide, jtOk := fun _ => by decide
      fixtureOk := test_good_fixture }

end Sys2Proof.Tests
end

section
/-! What a completed instruction is allowed to write (10_state.md R32), read off one inversion lemma for
`execWith`, and the invariant of the states `init` and `reset` make (10_state.md R33). -/

namespace Sys2Proof.Machine

/-! Init and reset. -/

theorem fixtureOk_nil : FixtureOk [] := ⟨.nil, by simp, by simp, by simp⟩

theorem depthOk_zero (cap : Nat) : DepthOk 0 cap := ⟨le_refl _, Int.natCast_nonneg cap⟩

/-- A cursor moved back to 0 stands inside its values, whichever they are (70_reset_and_hazards.md R341). -/
theorem cursorOk_zero (e : FixtureEntry) : CursorOk { e with cursor := 0 } := by
  cases hv : e.values with
  | nil => exact .inr ⟨rfl, rfl⟩
  | cons x xs => exact .inl (by simp)

theorem resetHost_fixtureOk {c : HostCtx} (ok : FixtureOk c.fixture) : FixtureOk (resetHost c).fixture :=
  fixtureOk_map ok (fun _ => ⟨rfl, rfl⟩) fun e _ => cursorOk_zero e

/-- What `init` makes is good under any opcode map: both segments are zero and the table is not valid. -/
theorem blankState_inv {p : Pages} (bounds : p.InBounds) (opc : Mnemonic → Byte) : (blankState p).Inv opc where
  pagesOk := bounds
  codeWf := wf_zeroMemory
  codeWithin := within_zeroMemory _
  dataWf := wf_zeroMemory
  dataWithin := within_zeroMemory _
  csOk := depthOk_zero _
  usOk := depthOk_zero _
  jtOk := fun valid => by cases valid
  fixtureOk := fixtureOk_nil

/-- `reset` empties the data and the stacks and sweeps the code again, so the opcode map may change. -/
theorem resetOp_inv {opc' : Mnemonic → Byte} {s : State} (good : s.Inv opc') (opc : Mnemonic → Byte) :
    (resetOp opc s).Inv opc where
  pagesOk := good.pagesOk
  codeWf := good.codeWf
  codeWithin := good.codeWithin
  dataWf := wf_zeroMemory
  dataWithin := within_zeroMemory _
  csOk := depthOk_zero _
  usOk := depthOk_zero _
  jtOk := fun _ => rfl
  fixtureOk := resetHost_fixtureOk good.fixtureOk

/-- The reset state is `reset` of `init` at the page counts of log entry 1: a code of zeros has no
instruction to sweep, as 0x00 is no opcode. -/
theorem reset_eq_resetOp : State.reset = resetOp opcDefault (blankState resetPages) := by decide

theorem resetPages_inBounds : resetPages.InBounds := by decide

/-- Settles O12: the reset state is `reset` of what `init` makes. -/
theorem resetMeetsTheInvariant : Obligations.ResetMeetsTheInvariant := by
  refine ⟨?_, fun opc => ⟨fun p s made => ?_, fun opc' s good => resetOp_inv good opc⟩⟩
  · rw [reset_eq_resetOp]
    exact resetOp_inv (blankState_inv resetPages_inBounds opcDefault) opcDefault
  · unfold initState at made
    split at made
    · next bounds => cases made; exact blankState_inv bounds opc
    · cases made

/-! What holds of every state a result may answer. -/

/-- If the result is a value, the value has this property; a trap has none. -/
def Yields {α : Type} (r : Result α) (Q : α → Prop) : Prop := ∀ x, r = .ok x → Q x

theorem yields_ok {α : Type} {Q : α → Prop} {x : α} (h : Q x) : Yields (.ok x) Q := fun _ e => by
  cases e; exact h

theorem yields_raise {α : Type} (f : FaultKind) (Q : α → Prop) : Yields (raise f) Q := fun _ e => by cases e

/-- What the second part of a sequence yields from whatever the first part yields. -/
theorem Yields.bind {α β : Type} {r : Result α} {f : α → Result β} {P : α → Prop} {Q : β → Prop}
    (h : Yields r P) (k : ∀ x, P x → Yields (f x) Q) : Yields (r >>= f) Q := fun y e => by
  obtain ⟨x, hx, hy⟩ := bind_ok e
  exact k x (h x hx) y hy

/-- The same where nothing need be known of the first part. -/
theorem yields_bind {α β : Type} {r : Result α} {f : α → Result β} {Q : β → Prop}
    (k : ∀ x, Yields (f x) Q) : Yields (r >>= f) Q :=
  Yields.bind (P := fun _ => True) (fun _ _ => trivial) fun x _ => k x

theorem Yields.imp {α : Type} {r : Result α} {P Q : α → Prop} (h : Yields r P) (k : ∀ x, P x → Q x) :
    Yields r Q := fun x e => k x (h x e)

/-! Operations that write the Data Segment and `pc` at most. -/

/-- A frame in the form in which it can be substituted. -/
theorem OnlyDataPcSteps.exists {s t : State} (h : OnlyDataPcSteps s t) :
    ∃ d p n, t = { s with data := d, pc := p, steps := n } := ⟨_, _, _, h⟩

theorem OnlyDataPcSteps.trans {s t u : State} (h : OnlyDataPcSteps s t) (k : OnlyDataPcSteps t u) :
    OnlyDataPcSteps s u := by
  obtain ⟨_, _, _, rfl⟩ := h.exists
  exact k

theorem writeSlot_frame (s : State) (a : Int) (v : Word) : Yields (writeSlot s a v) (OnlyDataPcSteps s) := by
  rcases writeSlot_cases s a v with ⟨-, e⟩ | ⟨-, e⟩
  · rw [e]; exact yields_ok rfl
  · rw [e]; exact yields_raise _ _

/-- The end of every instruction with a destination: store, then go on. -/
theorem storeAdvance_frame (s : State) (a : Int) (v : Word) (len : Nat) :
    Yields (writeSlot s a v >>= fun t => .ok (advance len t)) (OnlyDataPcSteps s) :=
  (writeSlot_frame s a v).bind fun _ k => yields_ok (k.trans rfl)

theorem transfer_frame (s : State) (t : Int) : Yields (transfer s t) (OnlyDataPcSteps s) :=
  yields_bind fun _ => yields_ok rfl

theorem branch_frame (taken : Bool) (d : Disp) (len : Nat) (s : State) :
    Yields (branch taken d len s) (OnlyDataPcSteps s) := by
  cases taken with
  | false => exact yields_ok rfl
  | true => exact transfer_frame s _

theorem unaryOp_frame (f : Word → Word) (a1 : SlotAddr) (s : State) :
    Yields (unaryOp f a1 s) (OnlyDataPcSteps s) :=
  yields_bind fun _ => storeAdvance_frame s _ _ 5

theorem binaryOp_frame (f : Word → Word → Result Word) (a1 a2 : SlotAddr) (s : State) :
    Yields (binaryOp f a1 a2 s) (OnlyDataPcSteps s) :=
  yields_bind fun _ => yields_bind fun _ => yields_bind fun _ => storeAdvance_frame s _ _ 9

theorem branchOne_frame (cond : Word → Bool) (a1 : SlotAddr) (d : Disp) (s : State) :
    Yields (branchOne cond a1 d s) (OnlyDataPcSteps s) :=
  yields_bind fun _ => branch_frame _ d 6 s

theorem branchTwo_frame (cond : Word → Word → Bool) (a1 a2 : SlotAddr) (d : Disp) (s : State) :
    Yields (branchTwo cond a1 a2 d s) (OnlyDataPcSteps s) :=
  yields_bind fun _ => yields_bind fun _ => branch_frame _ d 10 s

theorem pushCall_frame (s : State) (v : Word) : Yields (pushCall s v) (OnlyDataPcSteps (countCall s)) :=
  fun _ e => by rw [(pushCall_next e).2]; rfl

theorem pushUser_frame (s : State) (v : Word) : Yields (pushUser s v) (OnlyDataPcSteps (countUser s)) :=
  fun _ e => by rw [(pushUser_next e).2]; rfl

theorem storeResult_frame (h : HostFn) (c : HostCall) (a1 : SlotAddr) (s : State) :
    Yields (storeResult h c a1 s) (OnlyDataPcSteps (setHostView (hostAnswer h c s).2 s)) := by
  rcases storeResult_cases h c a1 s with ⟨-, e⟩ | ⟨-, e⟩
  · rw [e]; exact yields_ok rfl
  · rw [e]; exact yields_raise _ _

/-! The one other update of an instruction. -/

/-- The update beyond the Data Segment, `pc` and the step count that a completed instruction with this
mnemonic may make of `s`: none, or the named one of its row in 10_state.md R32. -/
inductive ControlWrite (h : HostFn) (s : State) : Mnemonic → State → Prop where
  | nothing (m : Mnemonic) : ControlWrite h s m s
  | prologue : ControlWrite h s .setPcs (markPrologue s)
  | handler (c : CodeAddr) : ControlWrite h s .errAdr (installHandler c s)
  | call : ControlWrite h s .jmpSub (countCall s)
  | ret : ControlWrite h s .retSub (dropCall s)
  | push : ControlWrite h s .pshDat (countUser s)
  | pop : ControlWrite h s .popDat (dropUser s)
  | stop {m : Mnemonic} (len : Nat) (stops : m = .stzDat ∨ m = .stpImd) : ControlWrite h s m (pause len s)
  | finish {m : Mnemonic} (finishes : m = .fizDat ∨ m = .finImd) : ControlWrite h s m (terminate s)
  | host {m : Mnemonic} (c : HostCall) (calls : m ∈ hostCallers) :
      ControlWrite h s m (setHostView (hostAnswer h c s).2 s)

/-- `u` is reached from `s` by one such update and by writes of the Data Segment, `pc` and the step count. -/
def Performs (h : HostFn) (m : Mnemonic) (s u : State) : Prop :=
  ∃ v, ControlWrite h s m v ∧ OnlyDataPcSteps v u

theorem ControlWrite.yields {h : HostFn} {s v : State} {m : Mnemonic} {r : Result State}
    (w : ControlWrite h s m v) (k : Yields r (OnlyDataPcSteps v)) : Yields r (Performs h m s) :=
  k.imp fun _ hu => ⟨v, w, hu⟩

theorem yields_performs_of_frame {h : HostFn} {m : Mnemonic} {s : State} {r : Result State}
    (k : Yields r (OnlyDataPcSteps s)) : Yields r (Performs h m s) :=
  (ControlWrite.nothing m).yields k

/-- A call of the host, followed by a store and an advance at most. -/
theorem yields_performs_host {h : HostFn} {m : Mnemonic} {c : HostCall} {s : State} {r : Result State}
    (calls : m ∈ hostCallers) (k : Yields r (OnlyDataPcSteps (setHostView (hostAnswer h c s).2 s))) :
    Yields r (Performs h m s) :=
  (ControlWrite.host c calls).yields k

/-- The end of an external-function instruction with a destination. -/
theorem storeResultAdvance_frame (h : HostFn) (c : HostCall) (a1 : SlotAddr) (len : Nat) (s : State) :
    Yields (storeResult h c a1 s >>= fun t => .ok (advance len t))
      (OnlyDataPcSteps (setHostView (hostAnswer h c s).2 s)) :=
  (storeResult_frame h c a1 s).bind fun _ k => yields_ok (k.trans rfl)

/-- Every instruction commits a result that makes at most the update of its row. -/
theorem execWith_commits_performs (h : HostFn) (i : Instr) (s : State) :
    ∃ r, execWith h i s = commit s r ∧ Yields r (Performs h i.mnemonic s) := by
  cases i with
  | nop n => exact ⟨.ok (advance n s), rfl, yields_performs_of_frame (yields_ok rfl)⟩
  | slpImd => exact ⟨.ok (advance 1 s), rfl, yields_performs_of_frame (yields_ok rfl)⟩
  | slpDat a1 => exact ⟨_, rfl, yields_performs_of_frame (yields_bind fun _ => yields_ok rfl)⟩
  | setVal a1 v => exact ⟨_, rfl, yields_performs_of_frame (storeAdvance_frame s _ _ 13)⟩
  | clrDat a1 => exact ⟨_, rfl, yields_performs_of_frame (storeAdvance_frame s _ _ 5)⟩
  | setDat a1 a2 =>
    exact ⟨_, rfl, yields_performs_of_frame (yields_bind fun _ => storeAdvance_frame s _ _ 9)⟩
  | incDat a1 | decDat a1 | notDat a1 => exact ⟨_, rfl, yields_performs_of_frame (unaryOp_frame _ a1 s)⟩
  | addDat a1 a2 | subDat a1 a2 | mulDat a1 a2 | divDat a1 a2 | modDat a1 a2 | borDat a1 a2 | andDat a1 a2
  | xorDat a1 a2 | shlDat a1 a2 | shrDat a1 a2 =>
    exact ⟨_, rfl, yields_performs_of_frame (binaryOp_frame _ a1 a2 s)⟩
  | setInd a1 a2 | indDat a1 a2 =>
    exact ⟨_, rfl, yields_performs_of_frame (yields_bind fun _ => yields_bind fun _ =>
      storeAdvance_frame s _ _ 9)⟩
  | setIdx a1 a2 a3 | idxDat a1 a2 a3 =>
    exact ⟨_, rfl, yields_performs_of_frame (yields_bind fun _ => yields_bind fun _ =>
      storeAdvance_frame s _ _ 13)⟩
  | jmpAdr c => exact ⟨_, rfl, yields_performs_of_frame (transfer_frame s _)⟩
  | bzrDat a1 d | bnzDat a1 d => exact ⟨_, rfl, yields_performs_of_frame (branchOne_frame _ a1 d s)⟩
  | bgtDat a1 a2 d | bltDat a1 a2 d | bgeDat a1 a2 d | bleDat a1 a2 d | beqDat a1 a2 d | bneDat a1 a2 d =>
    exact ⟨_, rfl, yields_performs_of_frame (branchTwo_frame _ a1 a2 d s)⟩
  | pshDat a1 =>
    exact ⟨_, rfl, yields_bind fun x =>
      ControlWrite.push.yields ((pushUser_frame s x).bind fun _ k => yields_ok (k.trans rfl))⟩
  | popDat a1 =>
    exact ⟨_, rfl, yields_bind fun _ => yields_bind fun x =>
      ControlWrite.pop.yields (storeAdvance_frame (dropUser s) _ x 5)⟩
  | jmpSub c =>
    exact ⟨_, rfl, yields_bind fun _ => yields_bind fun _ =>
      ControlWrite.call.yields ((pushCall_frame s _).bind fun _ k => yields_ok (k.trans rfl))⟩
  | retSub =>
    exact ⟨_, rfl, yields_bind fun _ => yields_bind fun _ => ControlWrite.ret.yields (yields_ok rfl)⟩
  | fizDat a1 =>
    refine ⟨_, rfl, yields_bind fun x => ?_⟩
    cases isZero x with
    | true => exact (ControlWrite.finish (.inl rfl)).yields (yields_ok rfl)
    | false => exact yields_performs_of_frame (yields_ok rfl)
  | finImd => exact ⟨.ok (terminate s), rfl, (ControlWrite.finish (.inr rfl)).yields (yields_ok rfl)⟩
  | stzDat a1 =>
    refine ⟨_, rfl, yields_bind fun x => ?_⟩
    cases isZero x with
    | true => exact (ControlWrite.stop 5 (.inl rfl)).yields (yields_ok rfl)
    | false => exact yields_performs_of_frame (yields_ok rfl)
  | stpImd => exact ⟨.ok (pause 1 s), rfl, (ControlWrite.stop 1 (.inr rfl)).yields (yields_ok rfl)⟩
  | errAdr c => exact ⟨_, rfl, yields_bind fun _ => (ControlWrite.handler c).yields (yields_ok rfl)⟩
  | setPcs => exact ⟨.ok (advance 1 (markPrologue s)), rfl, ControlWrite.prologue.yields (yields_ok rfl)⟩
  | extFun f =>
    exact ⟨.ok (advance 3 (callHost h (.host0 f) s).2), rfl,
      yields_performs_host (m := .extFun) (by decide) (yields_ok rfl)⟩
  | extFunDat f a1 =>
    exact ⟨_, rfl, yields_bind fun _ => yields_performs_host (m := .extFunDat) (by decide) (yields_ok rfl)⟩
  | extFunDat2 f a1 a2 =>
    exact ⟨_, rfl, yields_bind fun _ => yields_bind fun _ =>
      yields_performs_host (m := .extFunDat2) (by decide) (yields_ok rfl)⟩
  | extFunRet f a1 =>
    exact ⟨_, rfl, yields_performs_host (m := .extFunRet) (by decide) (storeResultAdvance_frame h _ a1 7 s)⟩
  | extFunRetDat f a1 a2 =>
    exact ⟨_, rfl, yields_bind fun _ =>
      yields_performs_host (m := .extFunRetDat) (by decide) (storeResultAdvance_frame h _ a1 11 s)⟩
  | extFunRetDat2 f a1 a2 a3 =>
    exact ⟨_, rfl, yields_bind fun _ => yields_bind fun _ =>
      yields_performs_host (m := .extFunRetDat2) (by decide) (storeResultAdvance_frame h _ a1 15 s)⟩

/-- If an instruction ends in a next state, it completed with the update of its row, or a fault was taken. -/
theorem execWith_next {h : HostFn} {i : Instr} {s t : State} (e : execWith h i s = .next t) :
    Performs h i.mnemonic s t ∨ ∃ f, t = takeFault f s := by
  obtain ⟨r, er, performs⟩ := execWith_commits_performs h i s
  rw [er] at e
  rcases commit_next e with ⟨u, hu, rfl⟩ | ⟨f, -, rfl⟩
  · obtain ⟨v, w, frame⟩ := performs u hu
    exact .inl ⟨v, w, frame.trans rfl⟩
  · exact .inr ⟨f, rfl⟩

/-! The rows of R32. -/

/-- Every difference between `s` and `t` outside the Data Segment, `pc`, the step count and the latch is one
that 10_state.md R32 lets this mnemonic make. -/
def WritesItsRowOnly (m : Mnemonic) (s t : State) : Prop :=
  t.code = s.code ∧ t.pages = s.pages ∧ t.jt = s.jt ∧ t.jtValid = s.jtValid ∧
    (t.pcs ≠ s.pcs → m = .setPcs) ∧
    (t.pce ≠ s.pce → m = .errAdr) ∧
    (t.cs ≠ s.cs → m = .jmpSub ∨ m = .retSub) ∧
    (t.us ≠ s.us → m = .pshDat ∨ m = .popDat) ∧
    (t.stopped ≠ s.stopped → t.stopped = true ∧ (m = .stzDat ∨ m = .stpImd)) ∧
    (t.finished ≠ s.finished → t.finished = true ∧ (m = .fizDat ∨ m = .finImd)) ∧
    ((t.a ≠ s.a ∨ t.b ≠ s.b ∨ t.host ≠ s.host) → m ∈ hostCallers)

theorem ControlWrite.writesItsRowOnly {h : HostFn} {m : Mnemonic} {s v : State} (w : ControlWrite h s m v) :
    WritesItsRowOnly m s v := by
  cases w with
  | nothing | prologue | handler | call | ret | push | pop => simp [WritesItsRowOnly]
  | stop len stops => simp [WritesItsRowOnly, stops]
  | finish finishes => simp [WritesItsRowOnly, finishes]
  | host c calls => simp [WritesItsRowOnly, calls]

theorem Performs.writesItsRowOnly {h : HostFn} {m : Mnemonic} {s t : State} (p : Performs h m s t) :
    WritesItsRowOnly m s t := by
  obtain ⟨v, w, frame⟩ := p
  obtain ⟨_, _, _, rfl⟩ := frame.exists
  exact w.writesItsRowOnly

theorem takeFault_writesItsRowOnly (m : Mnemonic) (f : FaultKind) (s : State) :
    WritesItsRowOnly m s (takeFault f s) := by
  rcases takeFault_cases f s with ⟨-, -, e⟩ | ⟨-, e⟩ <;> simp [e, WritesItsRowOnly]

/-! The fuel under the default host. -/

theorem ControlWrite.fuel {m : Mnemonic} {s v : State} (w : ControlWrite defaultHost s m v) :
    v.host.fuel = s.host.fuel := by
  cases w with
  | nothing | prologue | handler | call | ret | push | pop | stop | finish => rfl
  | host c calls => exact defaultHost_fuel _ c s.hostView

theorem Performs.fuel {m : Mnemonic} {s t : State} (p : Performs defaultHost m s t) :
    t.host.fuel = s.host.fuel := by
  obtain ⟨v, w, frame⟩ := p
  obtain ⟨_, _, _, rfl⟩ := frame.exists
  exact w.fuel

theorem takeFault_host (f : FaultKind) (s : State) : (takeFault f s).host = s.host := by
  rcases takeFault_cases f s with ⟨-, -, e⟩ | ⟨-, e⟩ <;> rw [e] <;> rfl

/-- Settles O19, from what an instruction that ends in a next state has performed. -/
theorem onlyTheNamedInstructionsWrite : Obligations.OnlyTheNamedInstructionsWrite := by
  refine ⟨fun h i s t e => ?_, fun i s t e => ?_⟩
  · rcases execWith_next e with performed | ⟨f, rfl⟩
    · exact performed.writesItsRowOnly
    · exact takeFault_writesItsRowOnly i.mnemonic f s
  · rw [← execWith_default] at e
    rcases execWith_next e with performed | ⟨f, rfl⟩
    · exact performed.fuel
    · rw [takeFault_host]

end Sys2Proof.Machine
end

section
/-! The safety of memory (20_memory.md R43 to R62): what an instruction begun in a good state can do to the
Data Segment and to the stack depths, said once for all 48 instructions, and from it that the invariant is
kept, that a step is never stuck, and where stores go. -/

namespace Sys2Proof.Machine

/-! Results that are a value or a raised fault. -/

/-- The result is a value with this property or one of the spec's faults: it makes no access that
20_memory.md R45 leaves undefined. -/
def Safely {α : Type} (r : Result α) (Q : α → Prop) : Prop := (∃ x, r = .ok x ∧ Q x) ∨ ∃ f, r = raise f

theorem safely_ok {α : Type} {Q : α → Prop} {x : α} (h : Q x) : Safely (.ok x) Q := .inl ⟨x, rfl, h⟩

theorem safely_raise {α : Type} (f : FaultKind) (Q : α → Prop) : Safely (raise f) Q := .inr ⟨f, rfl⟩

theorem Safely.bind {α β : Type} {r : Result α} {f : α → Result β} {P : α → Prop} {Q : β → Prop}
    (h : Safely r P) (k : ∀ x, P x → Safely (f x) Q) : Safely (r >>= f) Q := by
  rcases h with ⟨x, rfl, hx⟩ | ⟨g, rfl⟩
  · exact k x hx
  · exact safely_raise g Q

/-- The same where nothing need be known of the value. -/
abbrev Safe {α : Type} (r : Result α) : Prop := Safely r fun _ => True

theorem Safe.bind {α β : Type} {r : Result α} {f : α → Result β} {Q : β → Prop}
    (h : Safe r) (k : ∀ x, Safely (f x) Q) : Safely (r >>= f) Q := Safely.bind h fun x _ => k x

theorem safe_of_ok {α : Type} (x : α) : Safe (.ok x : Result α) := safely_ok trivial

theorem safe_checkSlot (s : State) (a : Int) : Safe (checkSlot s a) := by
  by_cases h : SlotOk s.pages.dataSize a
  · rw [checkSlot_ok h]; exact safe_of_ok _
  · rw [checkSlot_bad h]; exact safely_raise _ _

theorem safe_readSlot (s : State) (a : Int) : Safe (readSlot s a) := by
  rcases readSlot_cases s a with ⟨-, e⟩ | ⟨-, e⟩
  · rw [e]; exact safe_of_ok _
  · rw [e]; exact safely_raise _ _

theorem safe_indirectAddr (s : State) (b : SlotAddr) : Safe (indirectAddr s b) :=
  (safe_readSlot s _).bind fun _ => safe_of_ok _

theorem safe_indexedAddr (s : State) (b i : SlotAddr) : Safe (indexedAddr s b i) :=
  (safe_readSlot s _).bind fun _ => (safe_readSlot s _).bind fun _ => safe_of_ok _

theorem safely_validate (f : FaultKind) (s : State) (t : Int) : Safely (validate f s t) fun _ => InJT s t := by
  by_cases h : InJT s t
  · rw [validate_ok h]; exact safely_ok h
  · rw [validate_bad h]; exact safely_raise f _

theorem safely_checkCallRoom (s : State) :
    Safely (checkCallRoom s) fun _ => s.cs.toInt < (s.pages.csCap : Int) := by
  unfold checkCallRoom
  split
  · next room => exact safely_ok room
  · exact safely_raise _ _

theorem safe_aluDiv (x y : Word) : Safe (aluDiv x y) := by
  unfold aluDiv
  split
  · exact safely_raise _ _
  · exact safe_of_ok _

theorem safe_aluMod (x y : Word) : Safe (aluMod x y) := by
  unfold aluMod
  split
  · exact safely_raise _ _
  · exact safe_of_ok _

/-! Stack depths (20_memory.md R50, R51, R62). -/

theorem csCap_eq (p : Pages) : p.csCap = 32 * p.cs := by
  simp only [Pages.csCap, Pages.csSize, Config.stackPageBytes]; omega

theorem usCap_eq (p : Pages) : p.usCap = 32 * p.us := by
  simp only [Pages.usCap, Pages.usSize, Config.stackPageBytes]; omega

/-- The bounds of 00_scope.md R6 keep a depth that counts up from wrapping. -/
theorem stackCaps_lt {p : Pages} (h : p.InBounds) : p.csCap < 2 ^ 31 ∧ p.usCap < 2 ^ 31 := by
  obtain ⟨-, -, hcs, hus⟩ := h
  rw [csCap_eq, usCap_eq]
  simp only [Config.maxStackPages] at hcs hus
  omega

theorem depthOk_add_one {d : Reg32} {cap : Nat} (h : DepthOk d cap) (room : d.toInt < (cap : Int))
    (small : cap < 2 ^ 31) : DepthOk (d + 1) cap := by
  have e : (d + 1).toInt = d.toInt + 1 := by
    obtain ⟨h0, -⟩ := h
    rw [BitVec.toInt_add]
    exact Int.bmod_eq_of_le (by simp; omega) (by simp; omega)
  exact ⟨by rw [e]; have := h.1; omega, by rw [e]; omega⟩

theorem depthOk_sub_one {d : Reg32} {cap : Nat} (h : DepthOk d cap) (nonempty : 0 < d.toInt) :
    DepthOk (d - 1) cap := by
  have e : (d - 1).toInt = d.toInt - 1 := by
    have := BitVec.toInt_lt (x := d)
    rw [BitVec.toInt_sub]
    exact Int.bmod_eq_of_le (by simp; omega) (by simp; omega)
  exact ⟨by rw [e]; omega, by rw [e]; have := h.2; omega⟩

theorem safely_topCall {opc : Mnemonic → Byte} {s : State} (good : s.Inv opc) :
    Safely (topCall s) fun _ => 0 < s.cs.toInt := by
  unfold topCall
  split
  · next nonempty => rw [memRead_ok (accessOk_csOff (by omega) good.csOk.2)]; exact safely_ok nonempty
  · exact safely_raise _ _

theorem safely_topUser {opc : Mnemonic → Byte} {s : State} (good : s.Inv opc) :
    Safely (topUser s) fun _ => 0 < s.us.toInt := by
  unfold topUser
  split
  · next nonempty => rw [memRead_ok (accessOk_usOff (by omega) good.usOk.2)]; exact safely_ok nonempty
  · exact safely_raise _ _

/-! The effect of an instruction on the Data Segment and on the depths. -/

/-- Where the region begins that an instruction with this mnemonic may store to (20_memory.md R62). -/
def storeStart (p : Pages) : Mnemonic → Nat
  | .jmpSub => p.dataSize
  | .pshDat => p.dataSize + p.csSize
  | _ => 0

/-- Where that region ends: behind the call stack, the user stack or the data slots. -/
def storeEnd (p : Pages) : Mnemonic → Nat
  | .jmpSub => p.dataSize + p.csSize
  | .pshDat => p.segSize
  | _ => p.dataSize

theorem storeEnd_le_segSize (p : Pages) (m : Mnemonic) : storeEnd p m ≤ p.segSize := by
  unfold storeEnd Pages.segSize
  split <;> omega

/-- At most one word of the Data Segment has changed, and it lies in the region of the mnemonic; both depths
are inside their regions. -/
structure StaysInside (m : Mnemonic) (s u : State) : Prop where
  data : u.data = s.data ∨
    ∃ off v, storeStart s.pages m ≤ off ∧ off + 8 ≤ storeEnd s.pages m ∧ u.data = s.data.setWord off v
  csOk : DepthOk u.cs s.pages.csCap
  usOk : DepthOk u.us s.pages.usCap

/-- Nothing stored yet, and the depths are inside their regions. -/
structure Unstored (s u : State) : Prop where
  data : u.data = s.data
  pages : u.pages = s.pages
  csOk : DepthOk u.cs s.pages.csCap
  usOk : DepthOk u.us s.pages.usCap

/-- The mnemonic's region is the data slots. -/
def StoresToSlots (p : Pages) (m : Mnemonic) : Prop := storeStart p m = 0 ∧ storeEnd p m = p.dataSize

/-- The end of every instruction with a destination slot: the checked store stays in the data slots. -/
theorem storeAdvance_safely {s u : State} {m : Mnemonic} (slots : StoresToSlots s.pages m) (h : Unstored s u)
    (a : Int) (v : Word) (len : Nat) :
    Safely (writeSlot u a v >>= fun t => .ok (advance len t)) (StaysInside m s) := by
  obtain ⟨lo, hi⟩ := slots
  rcases writeSlot_cases u a v with ⟨ok, e⟩ | ⟨-, e⟩
  · rw [e]
    rw [h.pages] at ok
    have inside : 0 ≤ (8 * a).toNat ∧ (8 * a).toNat + 8 ≤ s.pages.dataSize := by
      obtain ⟨h0, -, h2⟩ := ok
      omega
    refine safely_ok ⟨.inr ⟨(8 * a).toNat, v, ?_, ?_, ?_⟩, h.csOk, h.usOk⟩
    · rw [lo]; exact inside.1
    · rw [hi]; exact inside.2
    · simp [h.data]
  · rw [e]; exact safely_raise _ _

theorem storeResultAdvance_safely {s : State} {m : Mnemonic} (slots : StoresToSlots s.pages m)
    (self : Unstored s s) (h : HostFn) (c : HostCall) (a1 : SlotAddr) (len : Nat) :
    Safely (storeResult h c a1 s >>= fun t => .ok (advance len t)) (StaysInside m s) := by
  rw [show storeResult h c a1 s = checkSlot s a1.toInt >>= fun _ =>
    writeSlot (callHost h c s).2 a1.toInt (callHost h c s).1 from rfl, bind_assoc]
  exact (safe_checkSlot s _).bind fun _ =>
    storeAdvance_safely (u := (callHost h c s).2) slots ⟨rfl, rfl, self.csOk, self.usOk⟩ _ _ len

/-- The entry `k` of a call stack lies in its region (20_memory.md R50). -/
theorem csOff_inside {s : State} {k : Int} (h1 : 1 ≤ k) (h2 : k ≤ (s.pages.csCap : Int)) :
    s.pages.dataSize ≤ (csOff s k).toNat ∧
      (csOff s k).toNat + 8 ≤ s.pages.dataSize + s.pages.csSize := by
  have cap : s.pages.csCap = s.pages.csSize / 8 := rfl
  simp only [csOff]
  omega

/-- The entry `k` of a user stack lies in its region (20_memory.md R51). -/
theorem usOff_inside {s : State} {k : Int} (h1 : 1 ≤ k) (h2 : k ≤ (s.pages.usCap : Int)) :
    s.pages.dataSize + s.pages.csSize ≤ (usOff s k).toNat ∧ (usOff s k).toNat + 8 ≤ s.pages.segSize := by
  have cap : s.pages.usCap = s.pages.usSize / 8 := rfl
  have seg : s.pages.segSize = s.pages.dataSize + s.pages.csSize + s.pages.usSize := rfl
  simp only [usOff]
  omega

theorem pushCall_safely {opc : Mnemonic → Byte} {s : State} (good : s.Inv opc)
    (room : s.cs.toInt < (s.pages.csCap : Int)) (v : Word) :
    Safely (pushCall s v) (StaysInside .jmpSub s) := by
  have depth := good.csOk
  unfold pushCall
  rw [memWrite_ok v (accessOk_csOff (by omega) (by omega))]
  obtain ⟨lo, hi⟩ := csOff_inside (s := s) (k := s.cs.toInt + 1) (by omega) (by omega)
  exact safely_ok ⟨.inr ⟨_, v, lo, hi, rfl⟩,
    depthOk_add_one depth room (stackCaps_lt good.pagesOk).1, good.usOk⟩

theorem pushUser_safely {opc : Mnemonic → Byte} {s : State} (good : s.Inv opc) (v : Word) :
    Safely (pushUser s v) (StaysInside .pshDat s) := by
  have depth := good.usOk
  unfold pushUser
  split
  · next room =>
    rw [memWrite_ok v (accessOk_usOff (by omega) (by omega))]
    obtain ⟨lo, hi⟩ := usOff_inside (s := s) (k := s.us.toInt + 1) (by omega) (by omega)
    exact safely_ok ⟨.inr ⟨_, v, lo, hi, rfl⟩, good.csOk,
      depthOk_add_one depth room (stackCaps_lt good.pagesOk).2⟩
  · exact safely_raise _ _

section
variable {opc : Mnemonic → Byte} {s : State} {m : Mnemonic}

theorem unstored_self (good : s.Inv opc) : Unstored s s := ⟨rfl, rfl, good.csOk, good.usOk⟩

theorem staysInside_of_eq (good : s.Inv opc) {u : State} (data : u.data = s.data) (cs : u.cs = s.cs)
    (us : u.us = s.us) : StaysInside m s u :=
  ⟨.inl data, cs ▸ good.csOk, us ▸ good.usOk⟩

theorem branch_safely (good : s.Inv opc) (taken : Bool) (d : Disp) (len : Nat) :
    Safely (branch taken d len s) (StaysInside m s) := by
  rcases branch_cases taken d len s with ⟨-, e⟩ | ⟨-, -, e⟩ | ⟨-, -, e⟩ <;> rw [e]
  · exact safely_ok (staysInside_of_eq good rfl rfl rfl)
  · exact safely_ok (staysInside_of_eq good rfl rfl rfl)
  · exact safely_raise _ _

theorem branchOne_safely (good : s.Inv opc) (cond : Word → Bool) (a1 : SlotAddr) (d : Disp) :
    Safely (branchOne cond a1 d s) (StaysInside m s) :=
  (safe_readSlot s _).bind fun _ => branch_safely good _ d 6

theorem branchTwo_safely (good : s.Inv opc) (cond : Word → Word → Bool) (a1 a2 : SlotAddr) (d : Disp) :
    Safely (branchTwo cond a1 a2 d s) (StaysInside m s) :=
  (safe_readSlot s _).bind fun _ => (safe_readSlot s _).bind fun _ => branch_safely good _ d 10

theorem unaryOp_safely (good : s.Inv opc) (slots : StoresToSlots s.pages m) (f : Word → Word) (a1 : SlotAddr) :
    Safely (unaryOp f a1 s) (StaysInside m s) :=
  (safe_readSlot s _).bind fun _ => storeAdvance_safely slots (unstored_self good) _ _ 5

theorem binaryOp_safely (good : s.Inv opc) (slots : StoresToSlots s.pages m)
    {f : Word → Word → Result Word} (safe : ∀ x y, Safe (f x y)) (a1 a2 : SlotAddr) :
    Safely (binaryOp f a1 a2 s) (StaysInside m s) :=
  (safe_readSlot s _).bind fun _ => (safe_readSlot s _).bind fun _ => (safe _ _).bind fun _ =>
    storeAdvance_safely slots (unstored_self good) _ _ 9

end

/-- From a good state every instruction commits a safe result that stays inside its region: the checks of
20_memory.md R46, R50 and R51 come before every access. -/
theorem execWith_commits_safely {opc : Mnemonic → Byte} {s : State} (good : s.Inv opc) (h : HostFn)
    (i : Instr) : ∃ r, execWith h i s = commit s r ∧ Safely r (StaysInside i.mnemonic s) := by
  have self := unstored_self good
  have quiet {m : Mnemonic} {u : State} (data : u.data = s.data) (cs : u.cs = s.cs) (us : u.us = s.us) :
      Safely (.ok u) (StaysInside m s) := safely_ok (staysInside_of_eq good data cs us)
  cases i with
  | nop n => exact ⟨.ok (advance n s), rfl, quiet rfl rfl rfl⟩
  | slpImd => exact ⟨.ok (advance 1 s), rfl, quiet rfl rfl rfl⟩
  | slpDat a1 => exact ⟨_, rfl, (safe_checkSlot s _).bind fun _ => quiet rfl rfl rfl⟩
  | setVal a1 v => exact ⟨_, rfl, storeAdvance_safely ⟨rfl, rfl⟩ self _ _ 13⟩
  | clrDat a1 => exact ⟨_, rfl, storeAdvance_safely ⟨rfl, rfl⟩ self _ _ 5⟩
  | setDat a1 a2 =>
    exact ⟨_, rfl, (safe_readSlot s _).bind fun _ => storeAdvance_safely ⟨rfl, rfl⟩ self _ _ 9⟩
  | incDat a1 | decDat a1 | notDat a1 => exact ⟨_, rfl, unaryOp_safely good ⟨rfl, rfl⟩ _ a1⟩
  | addDat a1 a2 | subDat a1 a2 | mulDat a1 a2 | borDat a1 a2 | andDat a1 a2 | xorDat a1 a2 | shlDat a1 a2
  | shrDat a1 a2 => exact ⟨_, rfl, binaryOp_safely good ⟨rfl, rfl⟩ (fun _ _ => safe_of_ok _) a1 a2⟩
  | divDat a1 a2 => exact ⟨_, rfl, binaryOp_safely good ⟨rfl, rfl⟩ safe_aluDiv a1 a2⟩
  | modDat a1 a2 => exact ⟨_, rfl, binaryOp_safely good ⟨rfl, rfl⟩ safe_aluMod a1 a2⟩
  | setInd a1 a2 =>
    exact ⟨_, rfl, (safe_indirectAddr s a2).bind fun _ => (safe_readSlot s _).bind fun _ =>
      storeAdvance_safely ⟨rfl, rfl⟩ self _ _ 9⟩
  | indDat a1 a2 =>
    exact ⟨_, rfl, (safe_indirectAddr s a1).bind fun _ => (safe_readSlot s _).bind fun _ =>
      storeAdvance_safely ⟨rfl, rfl⟩ self _ _ 9⟩
  | setIdx a1 a2 a3 =>
    exact ⟨_, rfl, (safe_indexedAddr s a2 a3).bind fun _ => (safe_readSlot s _).bind fun _ =>
      storeAdvance_safely ⟨rfl, rfl⟩ self _ _ 13⟩
  | idxDat a1 a2 a3 =>
    exact ⟨_, rfl, (safe_indexedAddr s a1 a2).bind fun _ => (safe_readSlot s _).bind fun _ =>
      storeAdvance_safely ⟨rfl, rfl⟩ self _ _ 13⟩
  | pshDat a1 =>
    exact ⟨_, rfl, (safe_readSlot s _).bind fun x => (pushUser_safely good x).bind fun _ k =>
      safely_ok ⟨k.data, k.csOk, k.usOk⟩⟩
  | popDat a1 =>
    exact ⟨_, rfl, (safe_checkSlot s _).bind fun _ => (safely_topUser good).bind fun x nonempty =>
      storeAdvance_safely (s := s) (u := dropUser s) ⟨rfl, rfl⟩
        ⟨rfl, rfl, good.csOk, depthOk_sub_one good.usOk nonempty⟩ _ _ 5⟩
  | jmpSub c =>
    exact ⟨_, rfl, (safely_checkCallRoom s).bind fun _ room => (safely_validate _ s _).bind fun _ _ =>
      (pushCall_safely good room _).bind fun _ k => safely_ok ⟨k.data, k.csOk, k.usOk⟩⟩
  | retSub =>
    exact ⟨_, rfl, (safely_topCall good).bind fun _ nonempty => (safely_validate _ s _).bind fun _ _ =>
      safely_ok ⟨.inl rfl, depthOk_sub_one good.csOk nonempty, good.usOk⟩⟩
  | jmpAdr c => exact ⟨_, rfl, (safely_validate _ s _).bind fun _ _ => quiet rfl rfl rfl⟩
  | bzrDat a1 d | bnzDat a1 d => exact ⟨_, rfl, branchOne_safely good _ a1 d⟩
  | bgtDat a1 a2 d | bltDat a1 a2 d | bgeDat a1 a2 d | bleDat a1 a2 d | beqDat a1 a2 d | bneDat a1 a2 d =>
    exact ⟨_, rfl, branchTwo_safely good _ a1 a2 d⟩
  | fizDat a1 | stzDat a1 =>
    refine ⟨_, rfl, (safe_readSlot s _).bind fun x => ?_⟩
    cases isZero x with
    | true => exact quiet rfl rfl rfl
    | false => exact quiet rfl rfl rfl
  | finImd => exact ⟨.ok (terminate s), rfl, quiet rfl rfl rfl⟩
  | stpImd => exact ⟨.ok (pause 1 s), rfl, quiet rfl rfl rfl⟩
  | errAdr c => exact ⟨_, rfl, (safely_validate _ s _).bind fun _ _ => quiet rfl rfl rfl⟩
  | setPcs => exact ⟨.ok (advance 1 (markPrologue s)), rfl, quiet rfl rfl rfl⟩
  | extFun f => exact ⟨.ok (advance 3 (callHost h (.host0 f) s).2), rfl, quiet rfl rfl rfl⟩
  | extFunDat f a1 => exact ⟨_, rfl, (safe_readSlot s _).bind fun _ => quiet rfl rfl rfl⟩
  | extFunDat2 f a1 a2 =>
    exact ⟨_, rfl, (safe_readSlot s _).bind fun _ => (safe_readSlot s _).bind fun _ =>
      quiet rfl rfl rfl⟩
  | extFunRet f a1 => exact ⟨_, rfl, storeResultAdvance_safely ⟨rfl, rfl⟩ self h _ a1 7⟩
  | extFunRetDat f a1 a2 =>
    exact ⟨_, rfl, (safe_readSlot s _).bind fun _ => storeResultAdvance_safely ⟨rfl, rfl⟩ self h _ a1 11⟩
  | extFunRetDat2 f a1 a2 a3 =>
    exact ⟨_, rfl, (safe_readSlot s _).bind fun _ => (safe_readSlot s _).bind fun _ =>
      storeResultAdvance_safely ⟨rfl, rfl⟩ self h _ a1 15⟩

/-! The step from a good state. -/

/-- If an instruction begun in a good state ends in a next state, it stayed inside its region, or a fault was
taken. -/
theorem execWith_next_staysInside {opc : Mnemonic → Byte} {h : HostFn} {i : Instr} {s t : State}
    (good : s.Inv opc) (e : execWith h i s = .next t) :
    StaysInside i.mnemonic s t ∨ ∃ f, t = takeFault f s := by
  obtain ⟨r, er, safe⟩ := execWith_commits_safely good h i
  rw [er] at e
  rcases safe with ⟨u, rfl, inside⟩ | ⟨f, rfl⟩
  · cases e; exact .inl ⟨inside.data, inside.csOk, inside.usOk⟩
  · cases e; exact .inr ⟨f, rfl⟩

/-- No instruction begun in a good state is stuck. -/
theorem execWith_progress {opc : Mnemonic → Byte} {s : State} (good : s.Inv opc) (h : HostFn) (i : Instr) :
    ∃ t, execWith h i s = .next t := by
  obtain ⟨r, er, safe⟩ := execWith_commits_safely good h i
  rcases safe with ⟨u, rfl, -⟩ | ⟨f, rfl⟩
  · exact ⟨_, er⟩
  · exact ⟨_, er⟩

theorem engineStep_progress {P : Params} {s : State} (good : s.Inv P.opc) (valid : s.jtValid = true) :
    ∃ t, engineStep P s = .next t := by
  rcases engineStep_cases P s with ⟨invalid, -⟩ | ⟨-, i, len, -, e⟩ | ⟨-, f, -, e⟩
  · rw [valid] at invalid; cases invalid
  · rw [e]; exact execWith_progress good P.host i
  · exact ⟨_, e⟩

/-- Settles O14: every access of an instruction is checked, or covered by the depth invariant. -/
theorem goodStatesAlwaysStep : Obligations.GoodStatesAlwaysStep :=
  ⟨fun _ good valid => engineStep_progress (P := defaultParams) good valid,
   fun _ _ good valid => engineStep_progress good valid⟩

/-! The invariant. -/

theorem StaysInside.dataWf {m : Mnemonic} {s u : State} (h : StaysInside m s u) (wf : s.data.wf = true) :
    u.data.wf = true := by
  rcases h.data with e | ⟨off, v, -, -, e⟩ <;> rw [e]
  · exact wf
  · exact wf_setWord off v wf

theorem StaysInside.dataWithin {m : Mnemonic} {s u : State} (h : StaysInside m s u)
    (within : s.data.within s.pages.segSize = true) : u.data.within s.pages.segSize = true := by
  rcases h.data with e | ⟨off, v, -, hi, e⟩ <;> rw [e]
  · exact within
  · have fits : off + 8 ≤ s.pages.segSize := hi.trans (storeEnd_le_segSize _ m)
    exact within_writeBytes off _ (by simpa using fits) within

/-- The Fixture Table after a completed instruction is the one before, or as the host left it. -/
theorem Performs.fixtureOk {h : HostFn} {m : Mnemonic} {s t : State} (p : Performs h m s t)
    (keeps : HostKeepsTable h) (ok : FixtureOk s.host.fixture) : FixtureOk t.host.fixture := by
  obtain ⟨v, w, frame⟩ := p
  obtain ⟨_, _, _, rfl⟩ := frame.exists
  cases w with
  | nothing | prologue | handler | call | ret | push | pop | stop | finish => exact ok
  | host c calls => exact keeps _ c s.hostView ok

theorem takeFault_inv {opc : Mnemonic → Byte} {s : State} (good : s.Inv opc) (f : FaultKind) :
    (takeFault f s).Inv opc := by
  obtain ⟨pagesOk, codeWf, codeWithin, dataWf, dataWithin, csOk, usOk, jtOk, fixtureOk⟩ := good
  rcases takeFault_cases f s with ⟨-, -, e⟩ | ⟨-, e⟩ <;> rw [e] <;>
    exact ⟨pagesOk, codeWf, codeWithin, dataWf, dataWithin, csOk, usOk, jtOk, fixtureOk⟩

/-- A completed instruction keeps the invariant: what it stores stays inside its region, and what no
instruction writes is as it was. -/
theorem inv_of_performs {opc : Mnemonic → Byte} {h : HostFn} {m : Mnemonic} {s t : State} (good : s.Inv opc)
    (keeps : HostKeepsTable h) (performed : Performs h m s t) (inside : StaysInside m s t) : t.Inv opc := by
  obtain ⟨code, pages, jt, jtValid, -⟩ := performed.writesItsRowOnly
  have view : t.codeView = s.codeView := by simp [State.codeView, code, pages]
  exact {
    pagesOk := pages ▸ good.pagesOk
    codeWf := code ▸ good.codeWf
    codeWithin := by rw [code, pages]; exact good.codeWithin
    dataWf := inside.dataWf good.dataWf
    dataWithin := pages ▸ inside.dataWithin good.dataWithin
    csOk := pages ▸ inside.csOk
    usOk := pages ▸ inside.usOk
    jtOk := by rw [jt, jtValid, view]; exact good.jtOk
    fixtureOk := performed.fixtureOk keeps good.fixtureOk }

theorem execWith_inv {opc : Mnemonic → Byte} {h : HostFn} {i : Instr} {s t : State} (good : s.Inv opc)
    (keeps : HostKeepsTable h) (e : execWith h i s = .next t) : t.Inv opc := by
  rcases execWith_next e with performed | ⟨f, rfl⟩
  · rcases execWith_next_staysInside good e with inside | ⟨f, rfl⟩
    · exact inv_of_performs good keeps performed inside
    · exact takeFault_inv good f
  · exact takeFault_inv good f

theorem engineStep_inv {P : Params} {s t : State} (keeps : HostKeepsTable P.host) (good : s.Inv P.opc)
    (e : engineStep P s = .next t) : t.Inv P.opc := by
  rcases engineStep_cases P s with ⟨-, e'⟩ | ⟨-, i, len, -, e'⟩ | ⟨-, f, -, e'⟩ <;> rw [e'] at e
  · cases e
  · exact execWith_inv good keeps e
  · cases e; exact takeFault_inv good f

theorem defaultHost_keepsTable : HostKeepsTable defaultHost := fun draw c v ok => by
  rcases defaultHost_cases draw c v with ⟨out, hb, e⟩ | ⟨-, e⟩ <;> rw [e]
  · rw [builtin_ctx hb]; exact ok
  · exact fixtureEffect_ok c ok

theorem drawingHost_keepsTable : HostKeepsTable drawingHost := fun draw c v ok => by
  unfold drawingHost
  split
  · next out hb => rw [builtin_ctx hb]; exact ok
  · exact ok

/-- Settles O13: the invariant of what an instruction has performed, and of a fault taken. -/
theorem everyStepKeepsTheInvariant : Obligations.EveryStepKeepsTheInvariant :=
  ⟨fun _ _ good e => engineStep_inv (P := defaultParams) defaultHost_keepsTable good e,
   fun _ _ _ keeps good e => engineStep_inv keeps good e,
   defaultHost_keepsTable, drawingHost_keepsTable⟩

/-! Where stores go. -/

theorem takeFault_data (f : FaultKind) (s : State) : (takeFault f s).data = s.data := by
  rcases takeFault_cases f s with ⟨-, -, e⟩ | ⟨-, e⟩ <;> rw [e] <;> rfl

/-- A byte that changed lies in the region of the mnemonic. -/
theorem StaysInside.changed_byte {m : Mnemonic} {s u : State} (h : StaysInside m s u) {k : Nat}
    (changed : u.data.read k ≠ s.data.read k) : storeStart s.pages m ≤ k ∧ k < storeEnd s.pages m := by
  rcases h.data with e | ⟨off, v, lo, hi, e⟩ <;> rw [e] at changed
  · exact absurd rfl changed
  · by_contra outside
    exact changed (read_setWord_outside _ v (by omega))

/-- Settles O15: only a completed instruction changes bytes, and those of its own region. -/
theorem storesStayInTheirRegion : Obligations.StoresStayInTheirRegion := by
  intro h opc i s t good e k changed
  rcases execWith_next_staysInside good e with inside | ⟨f, rfl⟩
  · obtain ⟨lo, hi⟩ := inside.changed_byte changed
    generalize i.mnemonic = m at lo hi ⊢
    unfold storeStart at lo
    unfold storeEnd at hi
    by_cases call : m = .jmpSub
    · subst call; exact .inr (.inl ⟨lo, hi, rfl⟩)
    by_cases push : m = .pshDat
    · subst push; exact .inr (.inr ⟨lo, hi, rfl⟩)
    exact .inl ⟨by simpa [call, push] using hi, call, push⟩
  · exact absurd (by rw [takeFault_data]) changed

end Sys2Proof.Machine
end

section
/-! 8-byte accesses (20_memory.md R43, R45), the slot check and the stack limits as OVERFLOW (R46, R50, R51;
60_exceptions.md R311), and the operator's loads and resizes (R60, R61). -/

namespace Sys2Proof.Machine

/-! Accesses. -/

/-- A little-endian number is the sum of its bytes, each at its place (20_memory.md R43). -/
theorem readLE_eq_sum (m : Memory) (off n : Nat) :
    m.readLE off n = ((List.range n).map fun k => (m.read (off + k)).toNat * 256 ^ k).sum := by
  induction n generalizing off with
  | zero => rfl
  | succ n ih =>
    have shift (k : Nat) : (m.read (off + 1 + k)).toNat * 256 ^ k * 256 =
        (m.read (off + (k + 1))).toNat * 256 ^ (k + 1) := by
      rw [Nat.pow_succ, Nat.mul_assoc, show off + 1 + k = off + (k + 1) by omega]
    rw [Memory.readLE, ih (off + 1), Nat.mul_comm, ← List.sum_map_mul_right, List.range_succ_eq_map]
    simp [shift, Function.comp_def]

theorem getElem_bytesLE {n v k : Nat} (h : k < (bytesLE n v).length) :
    (bytesLE n v)[k] = BitVec.ofNat 8 (v / 256 ^ k) := by
  induction n generalizing v k with
  | zero => simp [bytesLE] at h
  | succ n ih =>
    cases k with
    | zero => simp [bytesLE]
    | succ k => simp [bytesLE, ih, Nat.div_div_eq_div_mul, Nat.pow_succ, Nat.mul_comm]

/-- The bytes of a stored word, least significant first (20_memory.md R43). -/
theorem read_setWord_inside (m : Memory) (off : Nat) (v : Word) {k : Nat} (h : k < 8) :
    (m.setWord off v).read (off + k) = BitVec.ofNat 8 (v.toNat / 256 ^ k) := by
  rw [Memory.setWord, read_writeBytes_inside m _ (by simpa using h), getElem_bytesLE]

/-- Settles O10: a defined access is a read or a store of the word, any other fails its check. -/
theorem dataAccesses : Obligations.DataAccesses := by
  intro s off v
  refine ⟨fun ok => ⟨?_, storeWord off.toNat v s, memWrite_ok v ok, rfl, ?_, ?_, ?_⟩, fun bad => ⟨?_, ?_⟩⟩
  · rw [memRead_ok ok, Memory.word, readLE_eq_sum]
  · rw [memRead_ok (s := storeWord off.toNat v s) ok, storeWord_data, word_setWord_same]
  · exact fun k hk => read_setWord_inside _ _ v hk
  · exact storeWord_outside s off.toNat v
  · exact if_neg bad
  · exact if_neg bad

/-! OVERFLOW. -/

/-- A raised OVERFLOW is taken from the state the instruction began in. -/
theorem takesOverflow_of_raise {o : StepOutcome} {s : State} (h : o = commit s (raise .overflow)) :
    TakesOverflow o s := by
  rw [h, commit_raise]
  rcases takeFault_cases .overflow s with ⟨-, handler, e⟩ | ⟨noHandler, e⟩ <;> rw [e]
  · exact congrArg Host.Outcome.next (if_pos handler).symm
  · exact congrArg Host.Outcome.next (if_neg (not_not.mpr (noHandler rfl))).symm

/-- The part of an instruction that comes first answers a value only where this holds, and otherwise raises
OVERFLOW. -/
def Checks {α : Type} (r : Result α) (P : Prop) : Prop := (P ∧ ∃ x, r = .ok x) ∨ r = raise .overflow

/-- This holds, or the whole instruction raises OVERFLOW. -/
def Guarded (r : Result State) (P : Prop) : Prop := P ∨ r = raise .overflow

theorem Checks.bind {α : Type} {r : Result α} {f : α → Result State} {P Q : Prop} (h : Checks r P)
    (k : ∀ x, Guarded (f x) Q) : Guarded (r >>= f) (P ∧ Q) := by
  rcases h with ⟨p, x, rfl⟩ | rfl
  · exact (k x).imp_left (And.intro p)
  · exact .inr rfl

/-- A check whose outcome says nothing of the fields, as that of a computed address. -/
theorem Checks.any {α : Type} {r : Result α} {P : Prop} (h : Checks r P) : Checks r True :=
  h.imp_left (And.imp_left fun _ => trivial)

theorem guarded_any (r : Result State) : Guarded r True := .inl trivial

theorem checks_checkSlot (s : State) (a : Int) : Checks (checkSlot s a) (SlotOk s.pages.dataSize a) := by
  by_cases h : SlotOk s.pages.dataSize a
  · exact .inl ⟨h, _, checkSlot_ok h⟩
  · exact .inr (checkSlot_bad h)

theorem checks_readSlot (s : State) (a : Int) : Checks (readSlot s a) (SlotOk s.pages.dataSize a) :=
  (readSlot_cases s a).imp (And.imp_right fun e => ⟨_, e⟩) And.right

theorem checks_writeSlot (s : State) (a : Int) (v : Word) :
    Checks (writeSlot s a v) (SlotOk s.pages.dataSize a) :=
  (writeSlot_cases s a v).imp (And.imp_right fun e => ⟨_, e⟩) And.right

theorem checks_storeResult (h : HostFn) (c : HostCall) (a1 : SlotAddr) (s : State) :
    Checks (storeResult h c a1 s) (FieldOk s a1) :=
  (storeResult_cases h c a1 s).imp (And.imp_right fun e => ⟨_, e⟩) And.right

theorem checks_indirectAddr (s : State) (b : SlotAddr) : Checks (indirectAddr s b) (FieldOk s b) := by
  rcases checks_readSlot s b.toInt with ⟨hb, -⟩ | e
  · exact .inl ⟨hb, _, indirectAddr_ok hb⟩
  · exact .inr (by rw [indirectAddr, readDirect, e, raise_bind])

theorem checks_indexedAddr (s : State) (b i : SlotAddr) :
    Checks (indexedAddr s b i) (FieldOk s b ∧ FieldOk s i) := by
  rcases checks_readSlot s b.toInt with ⟨hb, -⟩ | e
  · rcases checks_readSlot s i.toInt with ⟨hi, -⟩ | e
    · exact .inl ⟨⟨hb, hi⟩, _, indexedAddr_ok hb hi⟩
    · exact .inr (by rw [indexedAddr, readDirect, readDirect, readSlot_ok hb, ok_bind, e, raise_bind])
  · exact .inr (by rw [indexedAddr, readDirect, e, raise_bind])

/-- Every slot address of the list passes the slot check (20_memory.md R46). -/
abbrev SlotsOk (s : State) (l : List SlotAddr) : Prop := ∀ a ∈ l, FieldOk s a

section
variable {s : State} {a1 a2 a3 : SlotAddr}

theorem slotsOk_nil : SlotsOk s [] := List.forall_mem_nil _

theorem slotsOk_one (h : FieldOk s a1) : SlotsOk s [a1] := List.forall_mem_singleton.mpr h

theorem slotsOk_two (h1 : FieldOk s a1) (h2 : FieldOk s a2) : SlotsOk s [a1, a2] :=
  List.forall_mem_cons.mpr ⟨h1, slotsOk_one h2⟩

theorem slotsOk_three (h1 : FieldOk s a1) (h2 : FieldOk s a2) (h3 : FieldOk s a3) : SlotsOk s [a1, a2, a3] :=
  List.forall_mem_cons.mpr ⟨h1, slotsOk_two h2 h3⟩

/-- An instruction that only stores to the slot of its field. -/
theorem guarded_store (v : Word) (f : State → Result State) :
    Guarded (writeDirect s a1 v >>= f) (SlotsOk s [a1]) :=
  ((checks_writeSlot s _ v).bind fun _ => guarded_any _).imp_left fun ⟨h1, _⟩ => slotsOk_one h1

/-- An instruction that reads its one slot first. -/
theorem guarded_read (f : Word → Result State) : Guarded (readDirect s a1 >>= f) (SlotsOk s [a1]) :=
  ((checks_readSlot s _).bind fun _ => guarded_any _).imp_left fun ⟨h1, _⟩ => slotsOk_one h1

/-- An instruction that reads its two slots first. -/
theorem guarded_readTwo (f : Word → Word → Result State) :
    Guarded (readDirect s a1 >>= fun x => readDirect s a2 >>= f x) (SlotsOk s [a1, a2]) :=
  ((checks_readSlot s _).bind fun _ => (checks_readSlot s _).bind fun _ => guarded_any _).imp_left
    fun ⟨h1, h2, _⟩ => slotsOk_two h1 h2

/-- An instruction that checks its one slot first. -/
theorem guarded_check (f : Unit → Result State) : Guarded (checkSlot s a1.toInt >>= f) (SlotsOk s [a1]) :=
  ((checks_checkSlot s _).bind fun _ => guarded_any _).imp_left fun ⟨h1, _⟩ => slotsOk_one h1

end

/-- Every instruction checks all its slot fields, or raises OVERFLOW before it gets to one. -/
theorem execWith_commits_guarded (h : HostFn) (i : Instr) (s : State) :
    ∃ r, execWith h i s = commit s r ∧ Guarded r (SlotsOk s i.slots) := by
  cases i with
  | nop n => exact ⟨.ok (advance n s), rfl, .inl slotsOk_nil⟩
  | slpImd => exact ⟨.ok (advance 1 s), rfl, .inl slotsOk_nil⟩
  | finImd => exact ⟨.ok (terminate s), rfl, .inl slotsOk_nil⟩
  | stpImd => exact ⟨.ok (pause 1 s), rfl, .inl slotsOk_nil⟩
  | setPcs => exact ⟨.ok (advance 1 (markPrologue s)), rfl, .inl slotsOk_nil⟩
  | extFun f => exact ⟨.ok (advance 3 (callHost h (.host0 f) s).2), rfl, .inl slotsOk_nil⟩
  | jmpSub c | retSub | jmpAdr c | errAdr c => exact ⟨_, rfl, .inl slotsOk_nil⟩
  | setVal a1 v | clrDat a1 => exact ⟨_, rfl, guarded_store _ _⟩
  | incDat a1 | decDat a1 | notDat a1 | pshDat a1 | bzrDat a1 d | bnzDat a1 d | fizDat a1 | stzDat a1
  | extFunDat f a1 => exact ⟨_, rfl, guarded_read _⟩
  | slpDat a1 | popDat a1 => exact ⟨_, rfl, guarded_check _⟩
  | addDat a1 a2 | subDat a1 a2 | mulDat a1 a2 | divDat a1 a2 | modDat a1 a2 | borDat a1 a2 | andDat a1 a2
  | xorDat a1 a2 | shlDat a1 a2 | shrDat a1 a2 | bgtDat a1 a2 d | bltDat a1 a2 d | bgeDat a1 a2 d
  | bleDat a1 a2 d | beqDat a1 a2 d | bneDat a1 a2 d | extFunDat2 f a1 a2 =>
    exact ⟨_, rfl, guarded_readTwo _⟩
  | setDat a1 a2 =>
    exact ⟨_, rfl, ((checks_readSlot s _).bind fun _ => guarded_store _ _).imp_left
      fun ⟨h2, h1⟩ => slotsOk_two (h1 _ List.mem_cons_self) h2⟩
  | setInd a1 a2 =>
    exact ⟨_, rfl, ((checks_indirectAddr s a2).bind fun _ => (checks_readSlot s _).any.bind fun _ =>
      (checks_writeSlot s _ _).bind fun _ => guarded_any _).imp_left fun ⟨h2, _, h1, _⟩ => slotsOk_two h1 h2⟩
  | setIdx a1 a2 a3 =>
    exact ⟨_, rfl, ((checks_indexedAddr s a2 a3).bind fun _ => (checks_readSlot s _).any.bind fun _ =>
      (checks_writeSlot s _ _).bind fun _ => guarded_any _).imp_left
      fun ⟨⟨h2, h3⟩, _, h1, _⟩ => slotsOk_three h1 h2 h3⟩
  | indDat a1 a2 =>
    exact ⟨_, rfl, ((checks_indirectAddr s a1).bind fun _ => (checks_readSlot s _).bind fun _ =>
      guarded_any _).imp_left fun ⟨h1, h2, _⟩ => slotsOk_two h1 h2⟩
  | idxDat a1 a2 a3 =>
    exact ⟨_, rfl, ((checks_indexedAddr s a1 a2).bind fun _ => (checks_readSlot s _).bind fun _ =>
      guarded_any _).imp_left fun ⟨⟨h1, h2⟩, h3, _⟩ => slotsOk_three h1 h2 h3⟩
  | extFunRet f a1 =>
    exact ⟨_, rfl, ((checks_storeResult h _ a1 s).bind fun _ => guarded_any _).imp_left
      fun ⟨h1, _⟩ => slotsOk_one h1⟩
  | extFunRetDat f a1 a2 =>
    exact ⟨_, rfl, ((checks_readSlot s _).bind fun _ => (checks_storeResult h _ a1 s).bind fun _ =>
      guarded_any _).imp_left fun ⟨h2, h1, _⟩ => slotsOk_two h1 h2⟩
  | extFunRetDat2 f a1 a2 a3 =>
    exact ⟨_, rfl, ((checks_readSlot s _).bind fun _ => (checks_readSlot s _).bind fun _ =>
      (checks_storeResult h _ a1 s).bind fun _ => guarded_any _).imp_left
      fun ⟨h2, h3, h1, _⟩ => slotsOk_three h1 h2 h3⟩

/-- Settles O20: what is left of an instruction with a bad slot field is the OVERFLOW. -/
theorem badSlotFieldTakesOverflow : Obligations.BadSlotFieldTakesOverflow := by
  intro h i s ⟨a, mem, bad⟩
  obtain ⟨r, er, ok | rfl⟩ := execWith_commits_guarded h i s
  · exact absurd (ok a mem) bad
  · exact takesOverflow_of_raise er

/-! Full and empty stacks. -/

theorem pushUser_full {s : State} (v : Word) (full : s.us.toInt = (s.pages.usCap : Int)) :
    pushUser s v = raise .overflow := if_neg (by omega)

theorem topUser_empty {s : State} (empty : s.us = 0) : topUser s = raise .overflow :=
  if_neg (by simp [empty])

theorem checkCallRoom_full {s : State} (full : s.cs.toInt = (s.pages.csCap : Int)) :
    checkCallRoom s = raise .overflow := if_neg (by omega)

theorem topCall_empty {s : State} (empty : s.cs = 0) : topCall s = raise .overflow :=
  if_neg (by simp [empty])

/-- Settles O35: each of the four looks at its stack before it writes, and the call before it looks at its
target. -/
theorem fullAndEmptyStacksOverflow : Obligations.FullAndEmptyStacksOverflow := by
  refine fun s => ⟨fun full a ok => ?_, fun empty a ok => ?_, fun full c => ?_, fun empty => ?_⟩ <;>
    apply takesOverflow_of_raise
  · simp [exec, execPshDat, readDirect, readSlot_ok ok, pushUser_full _ full]
  · simp [exec, execPopDat, checkSlot_ok ok, topUser_empty empty]
  · simp [exec, execJmpSub, checkCallRoom_full full]
  · simp [exec, execRetSub, topCall_empty empty]

/-! Loads and resizes. -/

/-- A load of code that fits is good: the table is no longer valid, so nothing is claimed of it. -/
theorem loadCode_inv {opc : Mnemonic → Byte} {s : State} (good : s.Inv opc) {off : Nat} {bs : List Byte}
    (fits : off + bs.length ≤ s.pages.codeSize) :
    State.Inv { s with code := s.code.writeBytes off bs, jtValid := false } opc :=
  { good with
    codeWf := wf_writeBytes off bs good.codeWf
    codeWithin := within_writeBytes off bs fits good.codeWithin
    jtOk := nofun }

theorem loadData_inv {opc : Mnemonic → Byte} {s : State} (good : s.Inv opc) {off : Nat} {bs : List Byte}
    (fits : off + bs.length ≤ s.pages.segSize) :
    State.Inv { s with data := s.data.writeBytes off bs } opc :=
  { good with
    dataWf := wf_writeBytes off bs good.dataWf
    dataWithin := within_writeBytes off bs fits good.dataWithin }

/-- A resize of the code leaves the other regions, so the data and both depths fit as before. -/
theorem resizeCode_inv {opc : Mnemonic → Byte} {s : State} (good : s.Inv opc) {n : Nat}
    (bounds : (s.pages.set .code n).InBounds) :
    State.Inv { s with pages := s.pages.set .code n, jtValid := false
                       code := s.code.truncate (s.pages.set .code n).codeSize } opc :=
  { good with
    pagesOk := bounds
    codeWf := wf_truncate _ good.codeWf
    codeWithin := within_truncate _ _
    jtOk := nofun }

/-- A resize of another region leaves the code's size and empties what the region's size bears on. -/
theorem resizeData_inv {opc : Mnemonic → Byte} {s : State} (good : s.Inv opc) {r : Region} {n : Nat}
    (bounds : (s.pages.set r n).InBounds) (other : r ≠ .code) :
    State.Inv { s with pages := s.pages.set r n, jtValid := false
                       data := zeroMemory, cs := 0, us := 0 } opc where
  pagesOk := bounds
  codeWf := good.codeWf
  codeWithin := by
    have same : (s.pages.set r n).codeSize = s.pages.codeSize := by
      cases r with
      | code => exact absurd rfl other
      | data | call | user => rfl
    rw [same]; exact good.codeWithin
  dataWf := wf_zeroMemory
  dataWithin := within_zeroMemory _
  csOk := depthOk_zero _
  usOk := depthOk_zero _
  jtOk := nofun
  fixtureOk := good.fixtureOk

theorem resize_code {s : State} {n : Nat} (bounds : (s.pages.set .code n).InBounds) :
    resize .code n s = some { s with pages := s.pages.set .code n, jtValid := false
                                     code := s.code.truncate (s.pages.set .code n).codeSize } :=
  if_pos bounds

theorem resize_data {s : State} {r : Region} {n : Nat} (bounds : (s.pages.set r n).InBounds)
    (other : r ≠ .code) :
    resize r n s = some { s with pages := s.pages.set r n, jtValid := false
                                 data := zeroMemory, cs := 0, us := 0 } := by
  cases r with
  | code => exact absurd rfl other
  | data | call | user => exact if_pos bounds

/-- A truncated memory reads as unlisted past the end it had before, longer or shorter. -/
theorem read_truncate_past {m : Memory} {old a : Nat} (new : Nat) (within : m.within old = true)
    (past : old ≤ a) : (m.truncate new).read a = unlisted := by
  by_cases h : a < new
  · rw [read_truncate m h, read_past within past]
  · exact read_past (within_truncate m new) (by omega)

/-- Settles O54: each command by what it makes where it fits, and by its check where it does not. -/
theorem operatorLoadsAndResizes : Obligations.OperatorLoadsAndResizes := by
  intro opc s good
  refine ⟨fun off bs big => if_neg (by omega), fun off bs fits => ?_,
    fun off bs big => if_neg (by omega), fun off bs fits => ?_, fun r n out => if_neg out, fun r n bounds => ?_⟩
  · exact ⟨_, if_pos fits, loadCode_inv good fits, readBytes_writeBytes _ off bs,
      fun _ outside => read_writeBytes_outside _ bs outside, rfl⟩
  · exact ⟨_, if_pos fits, loadData_inv good fits, readBytes_writeBytes _ off bs,
      fun _ outside => read_writeBytes_outside _ bs outside, rfl⟩
  · by_cases code : r = .code
    · subst code
      exact ⟨_, resize_code bounds, resizeCode_inv good bounds, rfl,
        fun _ => ⟨fun _ _ kept => read_truncate _ kept,
          fun _ past => read_truncate_past _ good.codeWithin past, rfl⟩,
        fun other => absurd rfl other⟩
    · exact ⟨_, resize_data bounds code, resizeData_inv good bounds code, rfl,
        fun same => absurd same code, fun _ => ⟨fun k => read_zeroMemory k, rfl⟩⟩

end Sys2Proof.Machine
end

section
/-! The decoder and the encoder against each other (30_encoding.md R70 to R87). An operand decoder is
described once by what it reads: where its bytes would pass the end of the Code Segment it raises OVERFLOW, any
bytes inside are the encoding of some operands, and on the encoding of given operands it answers them, or
OVERFLOW where a slot address fails its check. Each format is such a sequence of fields, so for every
instruction the decode of the bytes that stand in the segment is determined. -/

namespace Sys2Proof

open Machine

/-! Bytes that stand in the Code Segment. -/

theorem codeHolds_append {v : CodeView} {q : Nat} {xs ys : List Byte} :
    CodeHolds v q (xs ++ ys) ↔ CodeHolds v q xs ∧ CodeHolds v (q + xs.length) ys := by
  rw [CodeHolds, readBytes_eq_append, List.length_append, ← Nat.add_assoc]
  constructor
  · rintro ⟨fits, hx, hy⟩; exact ⟨⟨by omega, hx⟩, fits, hy⟩
  · rintro ⟨⟨-, hx⟩, fits, hy⟩; exact ⟨fits, hx, hy⟩

/-- An encoding stands at `q` exactly when the opcode byte does and the operand bytes follow. -/
theorem codeHolds_encodeWith {opc : Mnemonic → Byte} {v : CodeView} {q : Nat} {i : Instr} :
    CodeHolds v q (encodeWith opc i) ↔
      v.code.read q = opc i.mnemonic ∧ CodeHolds v (q + 1) (encodeFields opc i) := by
  rw [CodeHolds, encodeWith, readBytes_eq_cons, List.length_cons, Nat.add_comm _ 1, ← Nat.add_assoc]
  exact and_left_comm

/-- A run of one byte stands at `q` exactly when each of its bytes does. -/
theorem codeHolds_replicate {v : CodeView} {q n : Nat} {b : Byte} :
    CodeHolds v q (List.replicate n b) ↔ q + n ≤ v.codeSize ∧ ∀ k < n, v.code.read (q + k) = b := by
  rw [CodeHolds, List.length_replicate]
  refine and_congr_right fun _ => ⟨fun h k hk => ?_, fun all => ?_⟩
  · rw [← getElem_readBytes v.code q n k (by simpa using hk), List.getElem_of_eq h, List.getElem_replicate]
  · refine List.ext_getElem (by simp) fun k hk _ => ?_
    rw [getElem_readBytes, List.getElem_replicate, all k (by simpa using hk)]

/-! What an operand decoder reads. -/

/-- Every slot address of the list passes the slot check of a data-slot region of this size (20_memory.md
R46). -/
abbrev SlotAddrsOk (dataSize : Nat) (l : List SlotAddr) : Prop := ∀ a ∈ l, SlotOk dataSize a.toInt

theorem wf_iff {dataSize : Nat} {i : Instr} :
    i.wf dataSize = true ↔ i.runOk = true ∧ SlotAddrsOk dataSize i.slots := by
  simp [Instr.wf]

/-- `d` decodes `n` bytes at `q` as operands `x` with these bytes and slot addresses, and answers `value x`
for them (30_encoding.md R76). -/
structure Reads {ι β : Type} (v : CodeView) (q n : Nat) (d : Except FaultKind β) (value : ι → β)
    (bytes : ι → List Byte) (slots : ι → List SlotAddr) : Prop where
  length : ∀ x, (bytes x).length = n
  unfit : v.codeSize < q + n → d = .error .overflow
  covered : q + n ≤ v.codeSize → ∃ x, CodeHolds v q (bytes x)
  decoded : ∀ x, CodeHolds v q (bytes x) →
    d = if SlotAddrsOk v.dataSize (slots x) then .ok (value x) else .error .overflow

section
variable {ι α β : Type} {v : CodeView} {q n n' : Nat} {f : Except FaultKind α}
  {bytes : α → List Byte} {slots : α → List SlotAddr}

/-- A last field, whose value completes the operands. -/
theorem Reads.map (field : Reads v q n f id bytes slots) (g : α → β) :
    Reads v q n (f >>= fun x => .ok (g x)) g bytes slots where
  length := field.length
  unfit past := by rw [field.unfit past]; rfl
  covered := field.covered
  decoded x holds := by rw [field.decoded x holds]; split <;> rfl

/-- A field, and the rest of the operands behind it. -/
theorem Reads.bind {k : α → Except FaultKind β} {value : α → ι → β} {bytes' : ι → List Byte}
    {slots' : ι → List SlotAddr} (field : Reads v q n f id bytes slots)
    (rest : ∀ x, Reads v (q + n) n' (k x) (value x) bytes' slots') :
    Reads v q (n + n') (f >>= k) (fun x : α × ι => value x.1 x.2) (fun x => bytes x.1 ++ bytes' x.2)
      (fun x => slots x.1 ++ slots' x.2) where
  length x := by rw [List.length_append, field.length, (rest x.1).length]
  unfit past := by
    by_cases fits : q + n ≤ v.codeSize
    · obtain ⟨x, holds⟩ := field.covered fits
      rw [field.decoded x holds]
      split
      · exact (rest x).unfit (by omega)
      · rfl
    · rw [field.unfit (by omega)]; rfl
  covered fits := by
    obtain ⟨x, hx⟩ := field.covered (by omega)
    obtain ⟨y, hy⟩ := (rest x).covered (by omega)
    exact ⟨(x, y), codeHolds_append.mpr ⟨hx, (field.length x).symm ▸ hy⟩⟩
  decoded := by
    rintro ⟨x, y⟩ holds
    obtain ⟨hx, hy⟩ := codeHolds_append.mp holds
    rw [field.length] at hy
    simp only [SlotAddrsOk, List.forall_mem_append]
    rw [field.decoded x hx]
    by_cases ok : SlotAddrsOk v.dataSize (slots x)
    · rw [if_pos ok]
      exact ((rest x).decoded y hy).trans (if_congr (and_iff_right ok).symm rfl rfl)
    · rw [if_neg ok, if_neg fun both => ok both.1]; rfl

end

/-! Fields (30_encoding.md R71). -/

/-- A field that answers a value only where it fits raises OVERFLOW where it does not. -/
theorem overflow_of_unfit {α : Type} {size q n : Nat} {d : Except FaultKind α} {P : α → Prop} {Q : Prop}
    (outcomes : (∃ x, d = .ok x ∧ q + n ≤ size ∧ P x) ∨ (d = .error .overflow ∧ Q)) (past : size < q + n) :
    d = .error .overflow := by
  rcases outcomes with ⟨_, -, fits, -⟩ | ⟨e, -⟩
  · omega
  · exact e

theorem codeHolds_bytesLE {v : CodeView} {q n x : Nat} :
    CodeHolds v q (bytesLE n x) ↔ q + n ≤ v.codeSize ∧ v.code.readBytes q n = bytesLE n x := by
  rw [CodeHolds, length_bytesLE]

/-- Any `n` bytes are the bytes of a value as wide as they are. -/
theorem field_covered {w n : Nat} (hw : 256 ^ n = 2 ^ w) {v : CodeView} {q : Nat} (fits : q + n ≤ v.codeSize) :
    ∃ x : BitVec w, CodeHolds v q (bytesLE n x.toNat) :=
  ⟨_, codeHolds_bytesLE.mpr ⟨fits, (bytes_of_field hw v.code q).symm⟩⟩

/-- A field of `n` bytes whose every value is legal (30_encoding.md R82). -/
theorem Reads.anyValue {w n : Nat} (hw : 256 ^ n = 2 ^ w) {v : CodeView} {q : Nat}
    {d : Except FaultKind (BitVec w)} (unfit : v.codeSize < q + n → d = .error .overflow)
    (ofBytes : ∀ x : BitVec w, q + n ≤ v.codeSize → v.code.readBytes q n = bytesLE n x.toNat → d = .ok x) :
    Reads v q n d id (fun x => bytesLE n x.toNat) (fun _ => []) where
  length x := length_bytesLE n x.toNat
  unfit := unfit
  covered := field_covered hw
  decoded x holds := by
    obtain ⟨fits, h⟩ := codeHolds_bytesLE.mp holds
    rw [if_pos (List.forall_mem_nil _)]
    exact ofBytes x fits h

theorem fieldCA_reads (v : CodeView) (q : Nat) : Reads v q 4 (fieldCA v q) id encAddr (fun _ => []) :=
  .anyValue (by decide) (overflow_of_unfit (fieldCA_cases v q)) fun _ => fieldCA_of_bytes

theorem fieldImm_reads (v : CodeView) (q : Nat) : Reads v q 8 (fieldImm v q) id encImm (fun _ => []) :=
  .anyValue (by decide) (overflow_of_unfit (fieldImm_cases v q)) fun _ => fieldImm_of_bytes

theorem fieldDisp_reads (v : CodeView) (q : Nat) : Reads v q 1 (fieldDisp v q) id encDisp (fun _ => []) :=
  .anyValue (by decide) (overflow_of_unfit (fieldDisp_cases v q)) fun _ => fieldDisp_of_bytes

theorem fieldFn_reads (v : CodeView) (q : Nat) : Reads v q 2 (fieldFn v q) id encFn (fun _ => []) :=
  .anyValue (by decide) (overflow_of_unfit (fieldFn_cases v q)) fun _ => fieldFn_of_bytes

/-- A slot address is the one field whose value is checked (30_encoding.md R76). -/
theorem fieldSA_reads (v : CodeView) (q : Nat) : Reads v q 4 (fieldSA v q) id encAddr (fun a => [a]) where
  length a := length_bytesLE 4 a.toNat
  unfit := overflow_of_unfit (fieldSA_cases v q)
  covered := field_covered (by decide)
  decoded a holds := by
    obtain ⟨fits, h⟩ := codeHolds_bytesLE.mp holds
    simp only [SlotAddrsOk, List.forall_mem_singleton]
    split
    · next ok => exact fieldSA_of_bytes fits ok h
    · next bad =>
      obtain ⟨b, -, -, ok, hb⟩ | ⟨e, -⟩ := fieldSA_cases v q
      · have same : b = a := (field_of_bytes (by decide) hb).symm.trans (field_of_bytes (by decide) h)
        exact absurd (same ▸ ok) bad
      · exact e

/-! Formats (30_encoding.md R72). -/

/-- Format `N` has no operand bytes. -/
theorem decodeN_reads (i : Instr) {v : CodeView} {q : Nat} (inside : q < v.codeSize) :
    Reads v (q + 1) 0 (.ok (i, 1)) (fun _ : Unit => (i, 1)) (fun _ => []) (fun _ => []) where
  length _ := rfl
  unfit past := by omega
  covered fits := ⟨(), fits, rfl⟩
  decoded _ _ := (if_pos (List.forall_mem_nil _)).symm

section
variable (v : CodeView) (q : Nat)

theorem decodeA_reads (k : SlotAddr → Instr) :
    Reads v (q + 1) 4 (decodeA k v q) (fun a1 => (k a1, 5)) encAddr (fun a1 => [a1]) :=
  (fieldSA_reads v (q + 1)).map fun a1 => (k a1, 5)

theorem decodeC_reads (k : CodeAddr → Instr) :
    Reads v (q + 1) 4 (decodeC k v q) (fun c => (k c, 5)) encAddr (fun _ => []) :=
  (fieldCA_reads v (q + 1)).map fun c => (k c, 5)

theorem decodeAV_reads (k : SlotAddr → Imm → Instr) :
    Reads v (q + 1) 12 (decodeAV k v q) (fun x : SlotAddr × Imm => (k x.1 x.2, 13))
      (fun x => encAddr x.1 ++ encImm x.2) (fun x => [x.1]) :=
  (fieldSA_reads v (q + 1)).bind fun a1 => (fieldImm_reads v (q + 5)).map fun x => (k a1 x, 13)

theorem decodeAA_reads (k : SlotAddr → SlotAddr → Instr) :
    Reads v (q + 1) 8 (decodeAA k v q) (fun x : SlotAddr × SlotAddr => (k x.1 x.2, 9))
      (fun x => encAddr x.1 ++ encAddr x.2) (fun x => [x.1, x.2]) :=
  (fieldSA_reads v (q + 1)).bind fun a1 => (fieldSA_reads v (q + 5)).map fun a2 => (k a1 a2, 9)

theorem decodeAAA_reads (k : SlotAddr → SlotAddr → SlotAddr → Instr) :
    Reads v (q + 1) 12 (decodeAAA k v q)
      (fun x : SlotAddr × SlotAddr × SlotAddr => (k x.1 x.2.1 x.2.2, 13))
      (fun x => encAddr x.1 ++ encAddr x.2.1 ++ encAddr x.2.2) (fun x => [x.1, x.2.1, x.2.2]) := by
  simp only [List.append_assoc]
  exact (fieldSA_reads v (q + 1)).bind fun a1 => (fieldSA_reads v (q + 5)).bind fun a2 =>
    (fieldSA_reads v (q + 9)).map fun a3 => (k a1 a2 a3, 13)

theorem decodeAD_reads (k : SlotAddr → Disp → Instr) :
    Reads v (q + 1) 5 (decodeAD k v q) (fun x : SlotAddr × Disp => (k x.1 x.2, 6))
      (fun x => encAddr x.1 ++ encDisp x.2) (fun x => [x.1]) :=
  (fieldSA_reads v (q + 1)).bind fun a1 => (fieldDisp_reads v (q + 5)).map fun d => (k a1 d, 6)

theorem decodeAAD_reads (k : SlotAddr → SlotAddr → Disp → Instr) :
    Reads v (q + 1) 9 (decodeAAD k v q) (fun x : SlotAddr × SlotAddr × Disp => (k x.1 x.2.1 x.2.2, 10))
      (fun x => encAddr x.1 ++ encAddr x.2.1 ++ encDisp x.2.2) (fun x => [x.1, x.2.1]) := by
  simp only [List.append_assoc]
  exact (fieldSA_reads v (q + 1)).bind fun a1 => (fieldSA_reads v (q + 5)).bind fun a2 =>
    (fieldDisp_reads v (q + 9)).map fun d => (k a1 a2 d, 10)

theorem decodeF_reads (k : FnNum → Instr) :
    Reads v (q + 1) 2 (decodeF k v q) (fun f => (k f, 3)) encFn (fun _ => []) :=
  (fieldFn_reads v (q + 1)).map fun f => (k f, 3)

theorem decodeFA_reads (k : FnNum → SlotAddr → Instr) :
    Reads v (q + 1) 6 (decodeFA k v q) (fun x : FnNum × SlotAddr => (k x.1 x.2, 7))
      (fun x => encFn x.1 ++ encAddr x.2) (fun x => [x.2]) :=
  (fieldFn_reads v (q + 1)).bind fun f => (fieldSA_reads v (q + 3)).map fun a1 => (k f a1, 7)

theorem decodeFAA_reads (k : FnNum → SlotAddr → SlotAddr → Instr) :
    Reads v (q + 1) 10 (decodeFAA k v q) (fun x : FnNum × SlotAddr × SlotAddr => (k x.1 x.2.1 x.2.2, 11))
      (fun x => encFn x.1 ++ encAddr x.2.1 ++ encAddr x.2.2) (fun x => [x.2.1, x.2.2]) := by
  simp only [List.append_assoc]
  exact (fieldFn_reads v (q + 1)).bind fun f => (fieldSA_reads v (q + 3)).bind fun a1 =>
    (fieldSA_reads v (q + 7)).map fun a2 => (k f a1 a2, 11)

theorem decodeFAAA_reads (k : FnNum → SlotAddr → SlotAddr → SlotAddr → Instr) :
    Reads v (q + 1) 14 (decodeFAAA k v q)
      (fun x : FnNum × SlotAddr × SlotAddr × SlotAddr => (k x.1 x.2.1 x.2.2.1 x.2.2.2, 15))
      (fun x => encFn x.1 ++ encAddr x.2.1 ++ encAddr x.2.2.1 ++ encAddr x.2.2.2)
      (fun x => [x.2.1, x.2.2.1, x.2.2.2]) := by
  simp only [List.append_assoc]
  exact (fieldFn_reads v (q + 1)).bind fun f => (fieldSA_reads v (q + 3)).bind fun a1 =>
    (fieldSA_reads v (q + 7)).bind fun a2 => (fieldSA_reads v (q + 11)).map fun a3 => (k f a1 a2 a3, 15)

end

/-! Instructions. -/

section
variable {opc : Mnemonic → Byte} {v : CodeView} {q : Nat}

/-- The operand bytes of this mnemonic pass the end of the segment and decode to OVERFLOW, or they are those
of some instruction. -/
def OperandsKnown (opc : Mnemonic → Byte) (v : CodeView) (q : Nat) (m : Mnemonic) : Prop :=
  (v.codeSize < q + (formatOf m).bytes ∧ decodeFields opc v q m = .error .overflow) ∨
    ∃ i, i.mnemonic = m ∧ q + (formatOf m).bytes ≤ v.codeSize ∧ CodeHolds v (q + 1) (encodeFields opc i)

theorem Reads.operandsKnown {ι : Type} {n : Nat} {m : Mnemonic} {value : ι → Instr × Nat}
    {bytes : ι → List Byte} {slots : ι → List SlotAddr}
    (reads : Reads v (q + 1) n (decodeFields opc v q m) value bytes slots)
    (size : (formatOf m).bytes = n + 1)
    (encodes : ∀ x, (value x).1.mnemonic = m ∧ encodeFields opc (value x).1 = bytes x) :
    OperandsKnown opc v q m := by
  rcases Nat.lt_or_ge v.codeSize (q + (formatOf m).bytes) with past | fits
  · exact .inl ⟨past, reads.unfit (by omega)⟩
  · obtain ⟨x, holds⟩ := reads.covered (by omega)
    obtain ⟨mnem, enc⟩ := encodes x
    exact .inr ⟨(value x).1, mnem, fits, enc.symm ▸ holds⟩

/-- Whatever bytes follow an opcode inside the segment, they are the operands of an instruction. -/
theorem operandsKnown (inside : q < v.codeSize) {m : Mnemonic} (notNop : m ≠ .nop) :
    OperandsKnown opc v q m := by
  cases m with
  | nop => exact absurd rfl notNop
  | retSub | slpImd | finImd | stpImd | setPcs =>
    exact (decodeN_reads _ inside).operandsKnown rfl fun _ => ⟨rfl, rfl⟩
  | clrDat | incDat | decDat | notDat | pshDat | popDat | slpDat | fizDat | stzDat =>
    exact (decodeA_reads v q _).operandsKnown rfl fun _ => ⟨rfl, rfl⟩
  | jmpSub | jmpAdr | errAdr => exact (decodeC_reads v q _).operandsKnown rfl fun _ => ⟨rfl, rfl⟩
  | setVal => exact (decodeAV_reads v q _).operandsKnown rfl fun _ => ⟨rfl, rfl⟩
  | setDat | addDat | subDat | mulDat | divDat | modDat | borDat | andDat | xorDat | shlDat | shrDat
  | setInd | indDat => exact (decodeAA_reads v q _).operandsKnown rfl fun _ => ⟨rfl, rfl⟩
  | setIdx | idxDat => exact (decodeAAA_reads v q _).operandsKnown rfl fun _ => ⟨rfl, rfl⟩
  | bzrDat | bnzDat => exact (decodeAD_reads v q _).operandsKnown rfl fun _ => ⟨rfl, rfl⟩
  | bgtDat | bltDat | bgeDat | bleDat | beqDat | bneDat =>
    exact (decodeAAD_reads v q _).operandsKnown rfl fun _ => ⟨rfl, rfl⟩
  | extFun => exact (decodeF_reads v q _).operandsKnown rfl fun _ => ⟨rfl, rfl⟩
  | extFunDat | extFunRet => exact (decodeFA_reads v q _).operandsKnown rfl fun _ => ⟨rfl, rfl⟩
  | extFunDat2 | extFunRetDat => exact (decodeFAA_reads v q _).operandsKnown rfl fun _ => ⟨rfl, rfl⟩
  | extFunRetDat2 => exact (decodeFAAA_reads v q _).operandsKnown rfl fun _ => ⟨rfl, rfl⟩

/-- The operand bytes of an instruction decode to it and its length, or to OVERFLOW where one of its slot
addresses fails the check. -/
theorem decodeFields_of_holds {i : Instr} (notNop : i.mnemonic ≠ .nop)
    (holds : CodeHolds v (q + 1) (encodeFields opc i)) :
    decodeFields opc v q i.mnemonic =
      if SlotAddrsOk v.dataSize i.slots then .ok (i, i.len) else .error .overflow := by
  have inside : q < v.codeSize := by have := holds.1; omega
  cases i with
  | nop n => exact absurd rfl notNop
  | retSub | slpImd | finImd | stpImd | setPcs => exact (decodeN_reads _ inside).decoded () holds
  | clrDat a1 | incDat a1 | decDat a1 | notDat a1 | pshDat a1 | popDat a1 | slpDat a1 | fizDat a1 | stzDat a1 =>
    exact (decodeA_reads v q _).decoded a1 holds
  | jmpSub c | jmpAdr c | errAdr c => exact (decodeC_reads v q _).decoded c holds
  | setVal a1 x => exact (decodeAV_reads v q _).decoded (a1, x) holds
  | setDat a1 a2 | addDat a1 a2 | subDat a1 a2 | mulDat a1 a2 | divDat a1 a2 | modDat a1 a2 | borDat a1 a2
  | andDat a1 a2 | xorDat a1 a2 | shlDat a1 a2 | shrDat a1 a2 | setInd a1 a2 | indDat a1 a2 =>
    exact (decodeAA_reads v q _).decoded (a1, a2) holds
  | setIdx a1 a2 a3 | idxDat a1 a2 a3 => exact (decodeAAA_reads v q _).decoded (a1, a2, a3) holds
  | bzrDat a1 d | bnzDat a1 d => exact (decodeAD_reads v q _).decoded (a1, d) holds
  | bgtDat a1 a2 d | bltDat a1 a2 d | bgeDat a1 a2 d | bleDat a1 a2 d | beqDat a1 a2 d | bneDat a1 a2 d =>
    exact (decodeAAD_reads v q _).decoded (a1, a2, d) holds
  | extFun f => exact (decodeF_reads v q _).decoded f holds
  | extFunDat f a1 | extFunRet f a1 => exact (decodeFA_reads v q _).decoded (f, a1) holds
  | extFunDat2 f a1 a2 | extFunRetDat f a1 a2 => exact (decodeFAA_reads v q _).decoded (f, a1, a2) holds
  | extFunRetDat2 f a1 a2 a3 => exact (decodeFAAA_reads v q _).decoded (f, a1, a2, a3) holds

end

/-! NOP runs (30_encoding.md R73). -/

section
variable {opc : Mnemonic → Byte} {v : CodeView} {q : Nat}

theorem encodeWith_nop {n : Nat} (run : 1 ≤ n) : encodeWith opc (.nop n) = List.replicate n (opc .nop) := by
  obtain ⟨n, rfl⟩ := Nat.exists_eq_add_of_le' run
  rfl

/-- A maximal run decodes to its length. -/
theorem decodeFields_nop_of_holds {n : Nat} (run : 1 ≤ n) (holds : CodeHolds v q (encodeWith opc (.nop n)))
    (ends : RunEndsAt opc v q (.nop n)) : decodeFields opc v q .nop = .ok (.nop n, n) := by
  rw [encodeWith_nop run] at holds
  obtain ⟨fits, all⟩ := codeHolds_replicate.mp holds
  have count : runLength v.code (opc .nop) q (v.codeSize - q) = n :=
    runLength_eq (by omega) all fun more => (ends rfl).resolve_left fun last => by
      have : q + n = v.codeSize := last
      omega
  exact congrArg (fun n => Except.ok (Instr.nop n, n)) count

/-- What stands at a NOP byte inside the segment is a maximal run. -/
theorem nop_run_at (inside : q < v.codeSize) (op : v.code.read q = opc .nop) :
    ∃ n, 1 ≤ n ∧ CodeHolds v q (encodeWith opc (.nop n)) ∧ RunEndsAt opc v q (.nop n) := by
  obtain ⟨room, all, ends⟩ := runLength_spec v.code (opc .nop) q (v.codeSize - q)
  generalize runLength v.code (opc .nop) q (v.codeSize - q) = n at room all ends
  have run : 1 ≤ n := Nat.one_le_iff_ne_zero.mpr fun none => by
    subst none
    exact ends (by omega) op
  refine ⟨n, run, ?_, fun _ => ?_⟩
  · rw [encodeWith_nop run]
    exact codeHolds_replicate.mpr ⟨by omega, all⟩
  · show q + n = v.codeSize ∨ v.code.read (q + n) ≠ opc .nop
    rcases Nat.lt_or_ge n (v.codeSize - q) with more | last
    · exact .inr (ends more)
    · exact .inl (by omega)

end

/-! Decoding at an offset. -/

/-- The length of an instruction other than NOP is that of its format (30_encoding.md R74). -/
theorem len_eq_formatBytes {i : Instr} (notNop : i.mnemonic ≠ .nop) : i.len = (formatOf i.mnemonic).bytes := by
  cases i with
  | nop n => exact absurd rfl notNop
  | _ => rfl

theorem runOk_of_ne_nop {i : Instr} (notNop : i.mnemonic ≠ .nop) : i.runOk = true := by
  cases i with
  | nop n => exact absurd rfl notNop
  | _ => rfl

theorem exists_nop_of_mnemonic {i : Instr} (nop : i.mnemonic = .nop) : ∃ n, i = .nop n := by
  cases i with
  | nop n => exact ⟨n, rfl⟩
  | _ => cases nop

theorem length_encodeWith (opc : Mnemonic → Byte) {i : Instr} (run : i.runOk = true) :
    (encodeWith opc i).length = i.len := by
  cases i with
  | nop n => exact (Laws.EncodedLength.nop n opc).2 run
  | _ => rfl

section
variable {opc : Mnemonic → Byte} {v : CodeView} {q : Nat}

theorem decodeWith_of_mnemonicOf {m : Mnemonic} (inside : q < v.codeSize)
    (found : mnemonicOf opc (v.code.read q) = some m) : decodeWith opc v q = decodeFields opc v q m := by
  rw [decodeWith, if_neg (by omega), Int.toNat_natCast, found]

/-- Under an injective map the opcode byte of an instruction leads to its operands (30_encoding.md R81). -/
theorem decodeWith_of_opc {m : Mnemonic} (inj : Function.Injective opc) (inside : q < v.codeSize)
    (op : v.code.read q = opc m) : decodeWith opc v q = decodeFields opc v q m :=
  decodeWith_of_mnemonicOf inside (op ▸ mnemonicOf_opc inj m)

/-- The bytes of an instruction other than NOP decode to it, or to OVERFLOW where a slot address fails its
check. -/
theorem decodeWith_of_holds {i : Instr} (inj : Function.Injective opc) (notNop : i.mnemonic ≠ .nop)
    (holds : CodeHolds v q (encodeWith opc i)) :
    decodeWith opc v q = if SlotAddrsOk v.dataSize i.slots then .ok (i, i.len) else .error .overflow := by
  obtain ⟨op, fields⟩ := codeHolds_encodeWith.mp holds
  rw [decodeWith_of_opc inj (by have := fields.1; omega) op, decodeFields_of_holds notNop fields]

/-- A decode that answers an instruction found the mnemonic at a byte of the segment. -/
theorem mnemonicOf_of_decodeWith_ok {p : Int} {r : Instr × Nat} (ok : decodeWith opc v p = .ok r) :
    ∃ (q : Nat) (m : Mnemonic), p = q ∧ q < v.codeSize ∧ mnemonicOf opc (v.code.read q) = some m ∧
      decodeFields opc v q m = .ok r := by
  rcases decodeWith_cases opc v p with ⟨-, e⟩ | ⟨-, -, e⟩ | ⟨range, m', op, -⟩
  · cases e.symm.trans ok
  · cases e.symm.trans ok
  · obtain ⟨q, rfl⟩ := Int.eq_ofNat_of_zero_le range.1
    cases found : mnemonicOf opc (v.code.read q) with
    | none => exact absurd op (mnemonicOf_none.mp found m')
    | some m =>
      have inside : q < v.codeSize := by omega
      exact ⟨q, m, rfl, inside, found, decodeWith_of_mnemonicOf inside found ▸ ok⟩

/-- What the operands of a mnemonic decode to stands in the segment behind its opcode, well formed, and a NOP
run is maximal. -/
theorem decodeFields_ok {m : Mnemonic} {i : Instr} {len : Nat} (inside : q < v.codeSize)
    (op : v.code.read q = opc m) (ok : decodeFields opc v q m = .ok (i, len)) :
    i.mnemonic = m ∧ len = i.len ∧ i.wf v.dataSize = true ∧ CodeHolds v q (encodeWith opc i) ∧
      RunEndsAt opc v q i := by
  by_cases nop : m = .nop
  · subst nop
    obtain ⟨n, run, holds, ends⟩ := nop_run_at inside op
    cases (decodeFields_nop_of_holds run holds ends).symm.trans ok
    exact ⟨rfl, rfl, wf_iff.mpr ⟨decide_eq_true run, List.forall_mem_nil _⟩, holds, ends⟩
  · rcases operandsKnown inside nop with ⟨-, e⟩ | ⟨j, rfl, -, fields⟩
    · cases e.symm.trans ok
    · rw [decodeFields_of_holds nop fields] at ok
      split at ok
      · next slotsOk =>
        cases ok
        exact ⟨rfl, rfl, wf_iff.mpr ⟨runOk_of_ne_nop nop, slotsOk⟩,
          codeHolds_encodeWith.mpr ⟨op, fields⟩, fun h => absurd h nop⟩
      · cases ok

/-- The only fault operands raise is OVERFLOW (30_encoding.md R76). -/
theorem decodeFields_error {m : Mnemonic} {f : FaultKind} (inside : q < v.codeSize)
    (failed : decodeFields opc v q m = .error f) : f = .overflow := by
  by_cases nop : m = .nop
  · subst nop; cases failed
  · rcases operandsKnown inside nop with ⟨-, e⟩ | ⟨j, rfl, -, fields⟩
    · cases e.symm.trans failed; rfl
    · rw [decodeFields_of_holds nop fields] at failed
      split at failed <;> cases failed
      rfl

end

/-! The statements. -/

/-- Settles O1: a NOP by the length of its run, any other instruction by its format. -/
theorem decodeOfEncodeIsTheInstruction : Obligations.DecodeOfEncodeIsTheInstruction := by
  intro opc v p i inj wf holds ends
  obtain ⟨run, slotsOk⟩ := wf_iff.mp wf
  by_cases nop : i.mnemonic = .nop
  · obtain ⟨n, rfl⟩ := exists_nop_of_mnemonic nop
    obtain ⟨op, fields⟩ := codeHolds_encodeWith.mp holds
    rw [decodeWith_of_opc inj (by have := fields.1; omega) op]
    exact decodeFields_nop_of_holds (of_decide_eq_true run) holds ends
  · rw [decodeWith_of_holds inj nop holds, if_pos slotsOk]

/-- Settles O2: the opcode byte determines the mnemonic, and the mnemonic the length. -/
theorem decodedBytesAreTheEncoding : Obligations.DecodedBytesAreTheEncoding := by
  intro opc v p i len ok
  obtain ⟨q, m, rfl, inside, found, fieldsOk⟩ := mnemonicOf_of_decodeWith_ok ok
  obtain ⟨rfl, rfl, wf, holds, ends⟩ := decodeFields_ok inside (mnemonicOf_some found).symm fieldsOk
  have size := length_encodeWith opc (wf_iff.mp wf).1
  refine ⟨q, rfl, rfl, size ▸ Nat.succ_pos _, size, wf, holds, ends, fun notNop => ?_⟩
  refine ⟨len_eq_formatBytes notNop, fun p' i' len' ok' sameByte => ?_⟩
  obtain ⟨q', m', rfl, inside', found', fieldsOk'⟩ := mnemonicOf_of_decodeWith_ok ok'
  obtain ⟨rfl, rfl, -⟩ := decodeFields_ok inside' (mnemonicOf_some found').symm fieldsOk'
  have same : i'.mnemonic = i.mnemonic :=
    Option.some.inj (found'.symm.trans ((congrArg _ sameByte).trans found))
  rw [len_eq_formatBytes (same ▸ notNop), len_eq_formatBytes notNop, same]

/-- Settles O3: the three ways a decode can go are exclusive. -/
theorem decodeFailureKinds : Obligations.DecodeFailureKinds := by
  intro opc v p
  refine ⟨fun outside => if_pos outside, fun range unknown => ?_, fun range ⟨m, op⟩ f failed => ?_⟩
  · rw [decodeWith, if_neg (by omega), mnemonicOf_none.mpr unknown]
  · rcases decodeWith_cases opc v p with ⟨outside, -⟩ | ⟨-, unknown, -⟩ | ⟨-, m', -, e⟩
    · omega
    · exact absurd op (unknown m)
    · exact decodeFields_error (by omega) (e ▸ failed)

/-- Settles O4: operands that do not fit, and operands of an instruction with a bad slot address. -/
theorem unfittingFieldsAndBadSlotsOverflow : Obligations.UnfittingFieldsAndBadSlotsOverflow := by
  refine fun opc inj => ⟨fun v p m inside op past => ?_, fun v p i holds ⟨a, mem, bad⟩ => ?_⟩
  · have notNop : m ≠ .nop := by
      rintro rfl
      exact absurd past (Nat.not_lt.mpr inside)
    rw [decodeWith_of_opc inj inside op]
    rcases operandsKnown inside notNop with ⟨-, e⟩ | ⟨-, -, fits, -⟩
    · exact e
    · omega
  · have notNop : i.mnemonic ≠ .nop := fun nop => by
      obtain ⟨n, rfl⟩ := exists_nop_of_mnemonic nop
      cases mem
    rw [decodeWith_of_holds inj notNop holds, if_neg fun ok => bad (ok a mem)]

/-- Settles O5: the illegal bytes are those for which no mnemonic is found. -/
theorem defaultOpcodeMap : Obligations.DefaultOpcodeMap := by
  refine ⟨opcDefault_ok, fun b => mnemonicOf_none.symm.trans ?_⟩
  revert b
  decide

/-- A segment that is just the encoding of a well-formed instruction decodes to it. -/
theorem decode_viewOfBytes_encode (i : Instr) (notNop : i.mnemonic ≠ .nop)
    (wf : i.wf (viewOfBytes []).dataSize = true) : decode (viewOfBytes (encode i)) 0 = .ok (i, i.len) :=
  decodeOfEncodeIsTheInstruction opcDefault (viewOfBytes (encode i)) 0 i opcDefault_ok.injective wf
    ⟨(Nat.zero_add _).le, readBytes_writeBytes _ 0 _⟩ fun nop => absurd nop notNop

/-- Settles O6: each word is the encoding of a well-formed instruction. -/
theorem sampleWordsDecode : Obligations.SampleWordsDecode :=
  ⟨decode_viewOfBytes_encode (.setVal 0 0x22b8) (by decide) (by decide),
    decode_viewOfBytes_encode (.extFunDat 1 0) (by decide) (by decide),
    decode_viewOfBytes_encode .finImd (by decide) (by decide),
    decode_viewOfBytes_encode (.bzrDat 3 (-128)) (by decide) (by decide),
    decode_viewOfBytes_encode (.jmpAdr (-5)) (by decide) (by decide),
    decode_viewOfBytes_encode (.extFun 65535) (by decide) (by decide)⟩

end Sys2Proof
end

section
/-! The no-op, copy and unary instructions (40_nop_copy_unary.md R100 to R106; 44_system.md R190, R191), and the
steps over the bytes the source fixes (R101; 44_system.md R195). -/

namespace Sys2Proof.Machine

/-! How a completed instruction ends. -/

/-- An instruction that only goes on. -/
theorem commit_advance (s : State) (len : Nat) :
    ∃ t, commit s (.ok (advance len s)) = .next t ∧ WentOn s t len ∧ OnlyPcSteps s t :=
  ⟨countStep (advance len s), rfl, ⟨rfl, rfl⟩, rfl⟩

/-- An instruction that stores to a slot and goes on. -/
theorem commit_storeAdvance {s : State} {a : Int} (v : Word) (len : Nat) (ok : SlotOk s.pages.dataSize a) :
    ∃ t, commit s (writeSlot s a v >>= fun u => .ok (advance len u)) = .next t ∧ WroteSlot s t a v len := by
  refine ⟨countStep (advance len (storeWord (8 * a).toNat v s)), ?_, storeWord_slot_same s a v,
    storeWord_outside s _ v, ⟨rfl, rfl⟩, rfl⟩
  rw [writeSlot_ok v ok, ok_bind, commit_ok]

/-- An instruction that replaces a slot by a function of its value. -/
theorem commit_unaryOp {s : State} {a1 : SlotAddr} (f : Word → Word) (ok : FieldOk s a1) :
    ∃ t, commit s (unaryOp f a1 s) = .next t ∧ WroteSlot s t a1.toInt (f (s.fieldSlot a1)) 5 := by
  rw [unaryOp, readDirect, readSlot_ok ok, ok_bind]
  exact commit_storeAdvance _ 5 ok

/-! Wrapped results (00_scope.md R8). -/

theorem wrap64_toInt (x : Word) : wrap64 x.toInt = x := BitVec.ofInt_toInt

theorem wrap64_add (i j : Int) : wrap64 (i + j) = wrap64 i + wrap64 j := BitVec.ofInt_add i j

theorem wrap64_sub (i j : Int) : wrap64 (i - j) = wrap64 i - wrap64 j := by
  rw [Int.sub_eq_add_neg, wrap64_add, BitVec.sub_eq_add_neg]
  exact congrArg _ BitVec.ofInt_neg

/-- The complement of a signed value never wraps (R106). -/
theorem toInt_complement (x : Word) : (~~~x).toInt = -x.toInt - 1 := by
  have bound := x.isLt
  simp only [BitVec.toInt_eq_toNat_cond, BitVec.toNat_not]
  split <;> split <;> omega

/-! The statements. -/

/-- Settles O21: each of the three only advances, SLP_DAT after its slot check. -/
theorem nopAndSleepOnlyAdvance : Obligations.NopAndSleepOnlyAdvance := by
  refine fun s => ⟨commit_advance s, fun a1 ok => ?_, commit_advance s 1⟩
  show ∃ t, commit s (checkSlot s a1.toInt >>= fun _ => .ok (advance 5 s)) = .next t ∧ _
  rw [checkSlot_ok ok, ok_bind]
  exact commit_advance s 5

/-- Settles O22: each of the three ends in a store to slot `a1`, SET_DAT after a read of slot `a2`. -/
theorem copyInstructionsWriteTheSlot : Obligations.CopyInstructionsWriteTheSlot := by
  refine fun s a1 ok => ⟨fun v => commit_storeAdvance v 13 ok, fun a2 ok2 => ?_, commit_storeAdvance 0 5 ok⟩
  show ∃ t, commit s (readSlot s a2.toInt >>= fun y =>
    writeSlot s a1.toInt y >>= fun u => .ok (advance 9 u)) = .next t ∧ _
  rw [readSlot_ok ok2, ok_bind]
  exact commit_storeAdvance _ 9 ok

/-- Settles O23: each is a unary operation whose word function is the wrapped integer one. -/
theorem unaryInstructionsUpdateTheSlot : Obligations.UnaryInstructionsUpdateTheSlot := by
  intro s a1 ok
  dsimp only
  refine ⟨?_, ?_, ?_⟩
  · rw [wrap64_add, wrap64_toInt]
    exact commit_unaryOp (fun x => x + 1) ok
  · rw [wrap64_sub, wrap64_toInt]
    exact commit_unaryOp (fun x => x - 1) ok
  · obtain ⟨t, done, value, frame⟩ := commit_unaryOp (fun x => ~~~x) ok
    rw [← toInt_complement, wrap64_toInt]
    exact ⟨t, done, ⟨value, frame⟩, congrArg BitVec.toInt value⟩

/-! Steps over given bytes. -/

section
variable {P : Params} {s : State} {q : Nat}

/-- A step over bytes that decode is the execution of what they decode to (60_exceptions.md R315). -/
theorem engineStep_of_decode_ok {i : Instr} {len : Nat} (valid : s.jtValid = true)
    (decoded : decodeWith P.opc s.codeView s.pc.toInt = .ok (i, len)) :
    engineStep P s = execWith P.host i s := by
  rw [engineStep, if_pos valid, decoded]

/-- A step over bytes that do not decode takes the decoder's fault (60_exceptions.md R315). -/
theorem engineStep_of_decode_error {f : FaultKind} (valid : s.jtValid = true)
    (failed : decodeWith P.opc s.codeView s.pc.toInt = .error f) :
    engineStep P s = commit s (raise f) := by
  rw [engineStep, if_pos valid, failed]

/-- A step over the bytes of an instruction other than NOP executes it, its slot fields being legal. -/
theorem engineStep_of_holds {i : Instr} (valid : s.jtValid = true) (at_q : s.pc.toInt = q)
    (notNop : i.mnemonic ≠ .nop) (holds : CodeHolds s.codeView q (encodeWith P.opc i)) (ok : SlotsOk s i.slots) :
    engineStep P s = execWith P.host i s := by
  apply engineStep_of_decode_ok valid
  rw [at_q, decodeWith_of_holds P.opcOk.injective notNop holds]
  exact if_pos ok

end

/-- The bytes of SET_VAL under any opcode map, as the source fixes them (30_encoding.md R81). -/
theorem encodeWith_setVal (P : Params) (a1 : SlotAddr) (v : Imm) :
    encodeWith P.opc (.setVal a1 v) = 0x01 :: (bytesLE 4 a1.toNat ++ bytesLE 8 v.toNat) :=
  congrArg (· :: (encAddr a1 ++ encImm v)) P.opcOk.setVal

/-- The byte of FIN_IMD under any opcode map, as the source fixes it (30_encoding.md R81). -/
theorem encodeWith_finImd (P : Params) : encodeWith P.opc .finImd = [0x28] :=
  congrArg (· :: []) P.opcOk.finImd

/-- Settles O11: the bytes are the encodings of SET_VAL and FIN_IMD, so the step executes them or takes the
OVERFLOW of their decoding. -/
theorem stepsOfTheSourceFixedBytes : Obligations.StepsOfTheSourceFixedBytes := by
  intro P s q valid at_q
  obtain ⟨unfit, badSlot⟩ := unfittingFieldsAndBadSlotsOverflow P.opc P.opcOk.injective
  have overflows (failed : decodeWith P.opc s.codeView q = .error .overflow) : TakesOverflow (engineStep P s) s :=
    takesOverflow_of_raise (engineStep_of_decode_error valid (at_q.symm ▸ failed))
  refine ⟨fun a1 v holds => ?_, fun inside past op => ?_, fun holds => ?_⟩
  · rw [← encodeWith_setVal P] at holds
    refine ⟨fun ok => ?_, fun bad => overflows (badSlot _ q _ holds ⟨a1, List.mem_cons_self, bad⟩)⟩
    have notNop : (Instr.setVal a1 v).mnemonic ≠ .nop := Mnemonic.noConfusion
    rw [engineStep_of_holds valid at_q notNop holds (slotsOk_one ok)]
    exact (copyInstructionsWriteTheSlot s a1 ok).1 v
  · exact overflows (unfit s.codeView q .setVal inside (op.trans P.opcOk.setVal.symm) past)
  · rw [← encodeWith_finImd P] at holds
    rw [engineStep_of_holds valid at_q (by decide) holds slotsOk_nil]
    exact ⟨countStep (terminate s), rfl, rfl, rfl, rfl, rfl⟩

end Sys2Proof.Machine
end

section
/-! The binary arithmetic, bitwise and shift instructions (41_arith_bitwise.md R120 to R130). -/

namespace Sys2Proof.Machine

/-! How a binary instruction ends, by what its function answers. -/

section
variable {f : Word → Word → Result Word} {a1 a2 : SlotAddr} {s : State}

/-- A binary instruction whose function answers replaces slot `a1` by the answer (R120). -/
theorem commit_binaryOp {r : Word} (ok1 : FieldOk s a1) (ok2 : FieldOk s a2)
    (answer : f (s.fieldSlot a1) (s.fieldSlot a2) = .ok r) :
    ∃ t, commit s (binaryOp f a1 a2 s) = .next t ∧ WroteSlot s t a1.toInt r 9 := by
  rw [binaryOp, readDirect, readDirect, readSlot_ok ok1, readSlot_ok ok2, ok_bind, ok_bind, answer, ok_bind]
  exact commit_storeAdvance r 9 ok1

/-- INVALID_OP is taken as a latch whether or not a handler is installed (60_exceptions.md R318). -/
theorem takesFatal_of_raise_invalidOp {o : StepOutcome} (h : o = commit s (raise .invalidOp)) :
    TakesFatal o s .invalidOp := by
  rw [h, commit_raise]
  rcases takeFault_cases .invalidOp s with ⟨overflow, -⟩ | ⟨-, e⟩
  · cases overflow
  · exact congrArg Host.Outcome.next e

/-- A binary instruction whose function raises INVALID_OP latches it. -/
theorem commit_binaryOp_invalidOp (ok1 : FieldOk s a1) (ok2 : FieldOk s a2)
    (raised : f (s.fieldSlot a1) (s.fieldSlot a2) = raise .invalidOp) :
    TakesFatal (commit s (binaryOp f a1 a2 s)) s .invalidOp := by
  rcases binaryOp_cases f a1 a2 s with ⟨-, -, -, fails⟩ | ⟨bad, -⟩
  · exact takesFatal_of_raise_invalidOp (congrArg (commit s) (fails _ raised))
  · exact absurd ⟨ok1, ok2⟩ bad

end

/-! The division functions by their divisor. -/

theorem aluDiv_of_zero {x y : Word} (zero : y = 0) : aluDiv x y = raise .invalidOp := if_pos zero

theorem aluMod_of_zero {x y : Word} (zero : y = 0) : aluMod x y = raise .invalidOp := if_pos zero

theorem aluDiv_of_ne {x y : Word} (ne : y ≠ 0) : aluDiv x y = .ok (x.sdiv y) := if_neg ne

theorem aluMod_of_ne {x y : Word} (ne : y ≠ 0) : aluMod x y = .ok (x.srem y) := if_neg ne

/-! The word operations as wrapped integer operations (00_scope.md R8). -/

theorem wrap64_mul (i j : Int) : wrap64 (i * j) = wrap64 i * wrap64 j := BitVec.ofInt_mul i j

theorem wrap64_tdiv (x y : Word) : wrap64 (x.toInt.tdiv y.toInt) = x.sdiv y :=
  BitVec.eq_of_toInt_eq ((BitVec.toInt_ofInt _).trans (BitVec.toInt_sdiv x y).symm)

theorem wrap64_tmod (x y : Word) : wrap64 (x.toInt.tmod y.toInt) = x.srem y := by
  rw [← BitVec.toInt_srem, wrap64_toInt]

/-- Quotient and remainder give the dividend back, the one wrapped quotient (-2^63 by -1) included. -/
theorem wrap64_mul_sdiv_add_srem (x y : Word) :
    wrap64 (y.toInt * (x.sdiv y).toInt + (x.srem y).toInt) = x := by
  calc wrap64 (y.toInt * (x.sdiv y).toInt + (x.srem y).toInt)
      = y * x.sdiv y + x.srem y := by rw [wrap64_add, wrap64_mul, wrap64_toInt, wrap64_toInt, wrap64_toInt]
    _ = wrap64 (y.toInt * x.toInt.tdiv y.toInt + x.toInt.tmod y.toInt) := by
        rw [wrap64_add, wrap64_mul, wrap64_toInt, wrap64_tdiv, wrap64_tmod]
    _ = x := by rw [Int.mul_tdiv_add_tmod, wrap64_toInt]

/-- The remainder of a division that truncates has the dividend's sign (R125). -/
theorem tmod_mul_self_nonneg (i j : Int) : 0 ≤ i.tmod j * i := by
  rcases Int.le_total 0 i with nonneg | nonpos
  · exact Int.mul_nonneg (Int.tmod_nonneg j nonneg) nonneg
  · have neg : 0 ≤ (-i).tmod j := Int.tmod_nonneg j (Int.neg_nonneg_of_nonpos nonpos)
    rw [Int.neg_tmod] at neg
    exact Int.mul_nonneg_of_nonpos_of_nonpos (Int.nonpos_of_neg_nonneg neg) nonpos

theorem natAbs_tmod_lt (i : Int) {j : Int} (ne : j ≠ 0) : (i.tmod j).natAbs < j.natAbs := by
  rw [Int.natAbs_tmod]
  exact Nat.mod_lt _ (Int.natAbs_pos.mpr ne)

theorem wrap64_two_pow (c : Nat) : wrap64 (2 ^ c) = BitVec.twoPow 64 c := by
  apply BitVec.eq_of_toNat_eq
  rw [BitVec.toNat_twoPow, ← BitVec.toNat_ofNat, ← BitVec.ofInt_natCast, Nat.cast_pow]
  rfl

theorem wrap64_mul_two_pow (x : Word) (c : Nat) : wrap64 (x.toInt * 2 ^ c) = x <<< c := by
  rw [wrap64_mul, wrap64_toInt, wrap64_two_pow, BitVec.shiftLeft_eq_mul_twoPow]

theorem toInt_sshiftRight_eq_fdiv (x : Word) (c : Nat) : (x.sshiftRight c).toInt = x.toInt.fdiv (2 ^ c) := by
  rw [BitVec.toInt_sshiftRight, Int.shiftRight_eq_div_pow, Nat.cast_pow, Nat.cast_ofNat,
    Int.fdiv_eq_ediv_of_nonneg _ (Int.pow_nonneg (by decide))]

/-! The statements. -/

/-- Settles O24: each is a binary operation whose word function is the wrapped integer one. -/
theorem addSubMulWrap : Obligations.AddSubMulWrap := by
  intro s a1 a2 ok1 ok2
  dsimp only
  refine ⟨?_, ?_, ?_⟩
  · rw [wrap64_add, wrap64_toInt, wrap64_toInt]
    exact commit_binaryOp (f := aluAdd) ok1 ok2 rfl
  · rw [wrap64_sub, wrap64_toInt, wrap64_toInt]
    exact commit_binaryOp (f := aluSub) ok1 ok2 rfl
  · rw [wrap64_mul, wrap64_toInt, wrap64_toInt]
    exact commit_binaryOp (f := aluMul) ok1 ok2 rfl

/-- Settles O25: the two functions answer the signed quotient and remainder of the words. -/
theorem divModTruncate : Obligations.DivModTruncate := by
  intro s a1 a2 ok1 ok2 ne
  dsimp only
  obtain ⟨q, divided, wroteQuotient⟩ := commit_binaryOp ok1 ok2 (aluDiv_of_ne ne)
  obtain ⟨r, reduced, wroteRemainder⟩ := commit_binaryOp ok1 ok2 (aluMod_of_ne ne)
  have quotient : q.fieldSlot a1 = (s.fieldSlot a1).sdiv (s.fieldSlot a2) := wroteQuotient.1
  have remainder : r.fieldSlot a1 = (s.fieldSlot a1).srem (s.fieldSlot a2) := wroteRemainder.1
  have ne' : (s.fieldSlot a2).toInt ≠ 0 := fun zero => ne (BitVec.eq_of_toInt_eq zero)
  rw [wrap64_tdiv, ← Int.tmod_def, wrap64_tmod]
  refine ⟨⟨q, divided, wroteQuotient⟩, ⟨r, reduced, wroteRemainder, ?_⟩, fun q' r' isDiv isMod => ?_⟩
  · rw [remainder, BitVec.toInt_srem]
    exact ⟨rfl, natAbs_tmod_lt _ ne', tmod_mul_self_nonneg _ _⟩
  · cases divided.symm.trans isDiv
    cases reduced.symm.trans isMod
    rw [quotient, remainder, wrap64_mul_sdiv_add_srem]

/-- Settles O27: the word functions are bitwise. -/
theorem bitwiseCombineEveryBit : Obligations.BitwiseCombineEveryBit := by
  intro s a1 a2 ok1 ok2
  obtain ⟨t, ored, wroteOr⟩ := commit_binaryOp (f := aluOr) ok1 ok2 rfl
  obtain ⟨u, anded, wroteAnd⟩ := commit_binaryOp (f := aluAnd) ok1 ok2 rfl
  obtain ⟨v, xored, wroteXor⟩ := commit_binaryOp (f := aluXor) ok1 ok2 rfl
  exact ⟨⟨t, _, ored, wroteOr, fun _ _ => BitVec.getLsbD_or⟩,
    ⟨u, _, anded, wroteAnd, fun _ _ => BitVec.getLsbD_and⟩,
    ⟨v, _, xored, wroteXor, fun _ _ => BitVec.getLsbD_xor⟩⟩

/-- Settles O28: a shift by `c` is a product or a floored quotient by `2 ^ c`. -/
theorem shiftsByTheLowSixBits : Obligations.ShiftsByTheLowSixBits := by
  intro s a1 a2 ok1 ok2
  obtain ⟨t, shifted, wrote⟩ := commit_binaryOp (f := aluShr) ok1 ok2 rfl
  refine ⟨?_, t, _, shifted, wrote, toInt_sshiftRight_eq_fdiv _ _⟩
  rw [wrap64_mul_two_pow]
  exact commit_binaryOp (f := aluShl) ok1 ok2 rfl

/-- Settles O26: the division functions raise INVALID_OP on a zero divisor, and it is never absorbed. -/
theorem zeroDivisorIsFatal : Obligations.ZeroDivisorIsFatal := by
  intro s a1 a2 ok1 ok2 zero
  exact ⟨commit_binaryOp_invalidOp ok1 ok2 (aluDiv_of_zero zero),
    commit_binaryOp_invalidOp ok1 ok2 (aluMod_of_zero zero)⟩

end Sys2Proof.Machine
end

section
/-! Loads and stores through a computed address and the user stack (42_indirect_stack.md R140 to R146). -/

namespace Sys2Proof.Machine

/-! Computed addresses (R144). -/

/-- What SET_IND and SET_IDX do with their computed address: load the slot there into slot `a1` and go on. -/
def loadThrough (s : State) (a1 : SlotAddr) (len : Nat) (ea : Int) : Result State := do
  let x ← readSlot s ea
  let t ← writeDirect s a1 x
  .ok (advance len t)

/-- What IND_DAT and IDX_DAT do with their computed address: store slot `src` there and go on. -/
def storeThrough (s : State) (src : SlotAddr) (len : Nat) (ea : Int) : Result State := do
  let x ← readDirect s src
  let t ← writeSlot s ea x
  .ok (advance len t)

section
variable {s : State} {a1 a2 a3 src : SlotAddr} {len : Nat} {ea : Int}

theorem exec_setInd (a1 : SlotAddr) (ok2 : FieldOk s a2) :
    exec (.setInd a1 a2) s = commit s (loadThrough s a1 9 (s.fieldSlot a2).toInt) := by
  rw [exec, execSetInd, indirectAddr_ok ok2, ok_bind, loadThrough]

theorem exec_setIdx (a1 : SlotAddr) (ok2 : FieldOk s a2) (ok3 : FieldOk s a3) :
    exec (.setIdx a1 a2 a3) s =
      commit s (loadThrough s a1 13 ((s.fieldSlot a2).toInt + (s.fieldSlot a3).toInt)) := by
  rw [exec, execSetIdx, indexedAddr_ok ok2 ok3, ok_bind, loadThrough]

theorem exec_indDat (a2 : SlotAddr) (ok1 : FieldOk s a1) :
    exec (.indDat a1 a2) s = commit s (storeThrough s a2 9 (s.fieldSlot a1).toInt) := by
  rw [exec, execIndDat, indirectAddr_ok ok1, ok_bind, storeThrough]

theorem exec_idxDat (a3 : SlotAddr) (ok1 : FieldOk s a1) (ok2 : FieldOk s a2) :
    exec (.idxDat a1 a2 a3) s =
      commit s (storeThrough s a3 13 ((s.fieldSlot a1).toInt + (s.fieldSlot a2).toInt)) := by
  rw [exec, execIdxDat, indexedAddr_ok ok1 ok2, ok_bind, storeThrough]

theorem commit_loadThrough (len : Nat) (ok1 : FieldOk s a1) (ok : SlotOk s.pages.dataSize ea) :
    ∃ t, commit s (loadThrough s a1 len ea) = .next t ∧ WroteSlot s t a1.toInt (s.slot ea) len := by
  rw [loadThrough, readSlot_ok ok, ok_bind]
  exact commit_storeAdvance _ len ok1

theorem commit_storeThrough (len : Nat) (okSrc : FieldOk s src) (ok : SlotOk s.pages.dataSize ea) :
    ∃ t, commit s (storeThrough s src len ea) = .next t ∧ WroteSlot s t ea (s.fieldSlot src) len := by
  rw [storeThrough, readDirect, readSlot_ok okSrc, ok_bind]
  exact commit_storeAdvance _ len ok

theorem loadThrough_bad (a1 : SlotAddr) (len : Nat) (bad : ¬SlotOk s.pages.dataSize ea) :
    loadThrough s a1 len ea = raise .overflow := by
  rw [loadThrough, readSlot_bad bad, raise_bind]

/-- The operand is read before the address is checked; nothing is written in between. -/
theorem storeThrough_bad (len : Nat) (okSrc : FieldOk s src) (bad : ¬SlotOk s.pages.dataSize ea) :
    storeThrough s src len ea = raise .overflow := by
  rw [storeThrough, readDirect, readSlot_ok okSrc, ok_bind, writeSlot_bad _ bad, raise_bind]

end

/-- Settles O29: both compute their address from slots that pass the check and then load through it. -/
theorem loadsThroughAComputedAddress : Obligations.LoadsThroughAComputedAddress := by
  refine fun s a1 a2 ok1 ok2 => ⟨fun ok => ?_, fun a3 ok3 ok => ?_⟩
  · rw [exec_setInd a1 ok2]
    exact commit_loadThrough 9 ok1 ok
  · rw [exec_setIdx a1 ok2 ok3]
    exact commit_loadThrough 13 ok1 ok

/-- Settles O30: both compute their address from slots that pass the check and then store through it. -/
theorem storesThroughAComputedAddress : Obligations.StoresThroughAComputedAddress := by
  refine fun s a1 a2 ok1 ok2 => ⟨fun ok => ?_, fun a3 ok3 ok => ?_⟩
  · rw [exec_indDat a2 ok1]
    exact commit_storeThrough 9 ok2 ok
  · rw [exec_idxDat a3 ok1 ok2]
    exact commit_storeThrough 13 ok3 ok

/-- Settles O31: a load or a store through an address that fails the check raises OVERFLOW. -/
theorem badComputedAddressOverflows : Obligations.BadComputedAddressOverflows := by
  refine fun s a1 a2 ok1 ok2 => ⟨fun bad => ?_, fun bad => ?_, fun a3 ok3 => ⟨fun bad => ?_, fun bad => ?_⟩⟩ <;>
    apply takesOverflow_of_raise
  · rw [exec_setInd a1 ok2, loadThrough_bad a1 9 bad]
  · rw [exec_indDat a2 ok1, storeThrough_bad 9 ok2 bad]
  · rw [exec_setIdx a1 ok2 ok3, loadThrough_bad a1 13 bad]
  · rw [exec_idxDat a3 ok1 ok2, storeThrough_bad 13 ok3 bad]

/-! The user stack (20_memory.md R51). -/

section
variable {s : State}

theorem pushUser_ok (v : Word) (nonneg : 0 ≤ s.us.toInt) (room : s.us.toInt < (s.pages.usCap : Int)) :
    pushUser s v = .ok (countUser (storeWord (usOff s (s.us.toInt + 1)).toNat v s)) := by
  have access : AccessOk s (usOff s (s.us.toInt + 1)) := accessOk_usOff (by omega) (by omega)
  rw [pushUser, if_pos room, memWrite_ok v access, ok_bind]

theorem topUser_ok (nonempty : 0 < s.us.toInt) (inside : s.us.toInt ≤ (s.pages.usCap : Int)) :
    topUser s = .ok (s.data.word (usOff s s.us.toInt).toNat) := by
  have access : AccessOk s (usOff s s.us.toInt) := accessOk_usOff (by omega) inside
  rw [topUser, if_pos nonempty, memRead_ok access]

/-- A push with room on the stack: the entry stored, the depth counted, 5 bytes on (42_indirect_stack.md
R145). -/
theorem exec_pshDat {a1 : SlotAddr} (ok : FieldOk s a1) (nonneg : 0 ≤ s.us.toInt)
    (room : s.us.toInt < (s.pages.usCap : Int)) :
    exec (.pshDat a1) s = .next (countStep (advance 5 (countUser
      (storeWord (usOff s (s.us.toInt + 1)).toNat (s.fieldSlot a1) s)))) := by
  rw [exec, execPshDat, readDirect, readSlot_ok ok, ok_bind, pushUser_ok _ nonneg room, ok_bind, commit_ok]

/-- A pop from a stack that is not empty: the depth counted off, the entry stored to slot `a1`, 5 bytes on
(42_indirect_stack.md R146). -/
theorem exec_popDat {a1 : SlotAddr} (ok : FieldOk s a1) (nonempty : 0 < s.us.toInt)
    (inside : s.us.toInt ≤ (s.pages.usCap : Int)) :
    exec (.popDat a1) s = .next (countStep (advance 5
      (storeWord (8 * a1.toInt).toNat (s.data.word (usOff s s.us.toInt).toNat) (dropUser s)))) := by
  have okDropped : FieldOk (dropUser s) a1 := ok
  rw [exec, execPopDat, checkSlot_ok ok, ok_bind, topUser_ok nonempty inside, ok_bind, writeDirect,
    writeSlot_ok _ okDropped, ok_bind, commit_ok]

end

/-- Settles O32: with room on the stack the push is the store of its entry and the count. -/
theorem pushStoresTheNextUserEntry : Obligations.PushStoresTheNextUserEntry :=
  fun s _ ok nonneg room => ⟨_, exec_pshDat ok nonneg room, word_setWord_same s.data _ _,
    storeWord_outside s _ _, rfl, ⟨rfl, rfl⟩, rfl⟩

/-- Settles O33: the entry is read, the depth counted off, and what was read stored to slot `a1`. -/
theorem popLoadsTheYoungestUserEntry : Obligations.PopLoadsTheYoungestUserEntry :=
  fun s a1 ok nonempty inside => ⟨_, exec_popDat ok nonempty inside,
    storeWord_slot_same (dropUser s) a1.toInt _, storeWord_outside (dropUser s) _ _, rfl, ⟨rfl, rfl⟩, rfl⟩

/-! A push and then a pop. -/

/-- A slot whose 8 bytes lie outside a changed word is as it was. -/
theorem SameDataOutside.slot_eq {s t : State} {off : Nat} {c : Int} (h : SameDataOutside s t off)
    (apart : (8 * c).toNat + 8 ≤ off ∨ off + 8 ≤ (8 * c).toNat) : t.slot c = s.slot c := by
  unfold State.slot Memory.word
  rw [readLE_congr fun k hk => h _ (by omega)]

/-- A depth below its capacity counts up without wrapping. -/
theorem toInt_depth_add_one {d : Reg32} {cap : Nat} (ok : DepthOk d cap) (room : d.toInt < (cap : Int))
    (small : cap < 2 ^ 31) : (d + 1).toInt = d.toInt + 1 := by
  obtain ⟨nonneg, -⟩ := ok
  rw [BitVec.toInt_add]
  exact Int.bmod_eq_of_le (by simp; omega) (by simp; omega)

/-- Settles O34: the pop reads the entry that the push stored, which lies behind every data slot. -/
theorem popReturnsWhatPushStored : Obligations.PopReturnsWhatPushStored := by
  intro opc s t u a b good okA okB room push pop
  obtain ⟨_, pushes, entry, sameBefore, pushedDepth, -, pushFrame⟩ :=
    pushStoresTheNextUserEntry s a okA good.usOk.1 room
  cases push.symm.trans pushes
  have pages : t.pages = s.pages := by rw [pushFrame]
  have depth : t.us.toInt = s.us.toInt + 1 := by
    rw [pushedDepth, toInt_depth_add_one good.usOk room (stackCaps_lt good.pagesOk).2]
  have nonneg : 0 ≤ s.us.toInt := good.usOk.1
  obtain ⟨_, pops, value, sameAfter, poppedDepth, -, -⟩ :=
    popLoadsTheYoungestUserEntry t b (by rw [FieldOk, pages]; exact okB) (by omega) (by rw [pages]; omega)
  cases pop.symm.trans pops
  refine ⟨?_, ?_, fun c okC ne => ?_⟩
  · rw [value, pages, depth, entry]
  · rw [poppedDepth, pushedDepth, BitVec.add_sub_cancel]
  · have behindSlots := (usOff_inside (s := s) (k := s.us.toInt + 1) (by omega) (by omega)).1
    obtain ⟨nonnegC, -, endC⟩ := okC
    obtain ⟨nonnegB, -, -⟩ := okB
    calc u.slot c = t.slot c := sameAfter.slot_eq (by omega)
      _ = s.slot c := sameBefore.slot_eq (.inl (by rw [usOff] at behindSlots; omega))

end Sys2Proof.Machine
end

section
/-! Control transfer: jumps, calls, returns and branches (43_control.md R160 to R173), and the validation of an error
handler (44_system.md R198). -/

namespace Sys2Proof.Machine

/-! Faults that no handler absorbs. -/

/-- Only OVERFLOW is absorbed: any other fault is latched whatever handler is installed (60_exceptions.md
R318). -/
theorem takesFatal_of_raise {o : StepOutcome} {s : State} {f : FaultKind} (fatal : f ≠ .overflow)
    (h : o = commit s (raise f)) : TakesFatal o s f := by
  rw [h, commit_raise]
  rcases takeFault_cases f s with ⟨overflow, -⟩ | ⟨-, latched⟩
  · exact absurd overflow fatal
  · exact congrArg Host.Outcome.next latched

/-! Jumps (R160, R163). -/

/-- A transfer that only moves `pc`. -/
theorem commit_jumpTo (s : State) (target : Int) :
    ∃ t, commit s (.ok (jumpTo target s)) = .next t ∧ WentTo s t target :=
  ⟨countStep (jumpTo target s), rfl, rfl, rfl, rfl⟩

/-- Settles O40: a jump is a validated transfer. -/
theorem jumpGoesToAMember : Obligations.JumpGoesToAMember := by
  intro s c member
  obtain ⟨t, done, went⟩ := commit_jumpTo s c.toInt
  refine ⟨t, ?_, went.1.trans BitVec.ofInt_toInt, went⟩
  rw [exec, execJmpAdr, transfer, validate_ok member, ok_bind, done]

/-! Branches (R172). -/

/-- The end of a branch whose test decides `taken`. -/
theorem branchesAs_branch {s : State} {test : Bool} {taken : Prop} (d : Disp) (len : Nat)
    (decides : test = true ↔ taken) : BranchesAs (commit s (branch test d len s)) s d len taken := by
  rcases branch_cases test d len s with ⟨passes, e⟩ | ⟨takes, member, e⟩ | ⟨takes, bad, e⟩ <;> rw [e]
  · have notTaken : ¬taken := fun h => absurd (decides.mpr h) (Bool.eq_false_iff.mp passes)
    exact ⟨fun _ => commit_advance s len, fun h => absurd h notTaken, fun h => absurd h notTaken⟩
  · exact ⟨fun h => absurd (decides.mp takes) h, fun _ _ => commit_jumpTo s _, fun _ bad => absurd member bad⟩
  · exact ⟨fun h => absurd (decides.mp takes) h, fun _ member => absurd member bad,
      fun _ _ => takesFatal_of_raise (by decide) rfl⟩

section
variable {s : State} {a1 a2 : SlotAddr} {taken : Prop}

theorem branchesAs_branchOne {cond : Word → Bool} (d : Disp) (ok : FieldOk s a1)
    (decides : cond (s.fieldSlot a1) = true ↔ taken) :
    BranchesAs (commit s (branchOne cond a1 d s)) s d 6 taken := by
  rw [branchOne, readDirect, readSlot_ok ok, ok_bind]
  exact branchesAs_branch d 6 decides

theorem branchesAs_branchTwo {cond : Word → Word → Bool} (d : Disp) (ok1 : FieldOk s a1) (ok2 : FieldOk s a2)
    (decides : cond (s.fieldSlot a1) (s.fieldSlot a2) = true ↔ taken) :
    BranchesAs (commit s (branchTwo cond a1 a2 d s)) s d 10 taken := by
  rw [branchTwo, readDirect, readDirect, readSlot_ok ok1, readSlot_ok ok2, ok_bind, ok_bind]
  exact branchesAs_branch d 10 decides

end

/-! What the conditions compare: the signed values of the words (R164 to R171). -/

theorem eqWord_iff (x y : Word) : eqWord x y = true ↔ x.toInt = y.toInt := by
  rw [eqWord, beq_iff_eq, BitVec.toInt_inj]

theorem neWord_iff (x y : Word) : neWord x y = true ↔ x.toInt ≠ y.toInt := by
  rw [neWord, bne_iff_ne, Ne, Ne, BitVec.toInt_inj]

theorem ltSigned_iff (x y : Word) : ltSigned x y = true ↔ x.toInt < y.toInt := BitVec.slt_iff_toInt_lt

theorem leSigned_iff (x y : Word) : leSigned x y = true ↔ x.toInt ≤ y.toInt := BitVec.sle_iff_toInt_le

theorem gtSigned_iff (x y : Word) : gtSigned x y = true ↔ x.toInt > y.toInt := ltSigned_iff y x

theorem geSigned_iff (x y : Word) : geSigned x y = true ↔ x.toInt ≥ y.toInt := leSigned_iff y x

theorem isZero_iff (x : Word) : isZero x = true ↔ x.toInt = 0 := eqWord_iff x 0

theorem isNonzero_iff (x : Word) : isNonzero x = true ↔ x.toInt ≠ 0 := neWord_iff x 0

/-- Settles O41: both test the slot's signed value against 0. -/
theorem oneSlotBranches : Obligations.OneSlotBranches := fun _ _ d ok =>
  ⟨branchesAs_branchOne d ok (isZero_iff _), branchesAs_branchOne d ok (isNonzero_iff _)⟩

/-- Settles O42: each test is the signed comparison it is named after. -/
theorem twoSlotBranches : Obligations.TwoSlotBranches := fun _ _ _ d ok1 ok2 =>
  ⟨branchesAs_branchTwo d ok1 ok2 (gtSigned_iff _ _), branchesAs_branchTwo d ok1 ok2 (ltSigned_iff _ _),
    branchesAs_branchTwo d ok1 ok2 (geSigned_iff _ _), branchesAs_branchTwo d ok1 ok2 (leSigned_iff _ _),
    branchesAs_branchTwo d ok1 ok2 (eqWord_iff _ _), branchesAs_branchTwo d ok1 ok2 (neWord_iff _ _)⟩

/-! The call stack (20_memory.md R50). -/

section
variable {s : State}

/-- The entry offset with the two region sizes as separate summands. -/
theorem csOff_eq (s : State) (k : Int) : csOff s k = s.pages.dataSize + s.pages.csSize - 8 * k := by
  rw [csOff, Nat.cast_add]

theorem checkCallRoom_ok (room : s.cs.toInt < (s.pages.csCap : Int)) : checkCallRoom s = .ok () := if_pos room

theorem pushCall_ok (v : Word) (nonneg : 0 ≤ s.cs.toInt) (room : s.cs.toInt < (s.pages.csCap : Int)) :
    pushCall s v = .ok (countCall (storeWord (csOff s (s.cs.toInt + 1)).toNat v s)) := by
  have access : AccessOk s (csOff s (s.cs.toInt + 1)) := accessOk_csOff (by omega) (by omega)
  rw [pushCall, memWrite_ok v access, ok_bind]

theorem topCall_ok (nonempty : 0 < s.cs.toInt) (inside : s.cs.toInt ≤ (s.pages.csCap : Int)) :
    topCall s = .ok (s.data.word (csOff s s.cs.toInt).toNat) := by
  have access : AccessOk s (csOff s s.cs.toInt) := accessOk_csOff (by omega) inside
  rw [topCall, if_pos nonempty, memRead_ok access]

/-- A call with room on the stack to a member: the return address stored, the depth counted, on to the target
(R161). -/
theorem exec_jmpSub {c : CodeAddr} (nonneg : 0 ≤ s.cs.toInt) (room : s.cs.toInt < (s.pages.csCap : Int))
    (member : InJT s c.toInt) :
    exec (.jmpSub c) s = .next (countStep (jumpTo c.toInt (countCall
      (storeWord (csOff s (s.cs.toInt + 1)).toNat (wrap64 (s.pc.toInt + 5)) s)))) := by
  rw [exec, execJmpSub, checkCallRoom_ok room, ok_bind, validate_ok member, ok_bind, pushCall_ok _ nonneg room,
    ok_bind, commit_ok]

/-- A return to a member: the depth counted off, on to the entry (R162). -/
theorem exec_retSub {r : Word} (top : topCall s = .ok r) (member : InJT s r.toInt) :
    exec .retSub s = .next (countStep (jumpTo r.toInt (dropCall s))) := by
  rw [exec, execRetSub, top, ok_bind, validate_ok member, ok_bind, commit_ok]

end

/-- Settles O36: the call is the store of its entry, the count and the jump. -/
theorem callPushesTheReturnAddress : Obligations.CallPushesTheReturnAddress := by
  intro s c nonneg room member
  rw [← csOff_eq]
  exact ⟨_, exec_jmpSub nonneg room member, word_setWord_same s.data _ _, storeWord_outside s _ _, rfl,
    BitVec.ofInt_toInt, rfl, rfl⟩

/-- Settles O37: the return is the count and the jump to the entry it read, whatever word that is. -/
theorem returnPopsTheReturnAddress : Obligations.ReturnPopsTheReturnAddress := by
  intro s nonempty inside
  dsimp only
  rw [← csOff_eq]
  have top := topCall_ok nonempty inside
  generalize s.data.word (csOff s s.cs.toInt).toNat = r at top ⊢
  exact fun member => ⟨_, exec_retSub top member, rfl, rfl, rfl, rfl⟩

/-- Settles O39: each validates its target before it writes, the call after it has found room and the return
after it has read the entry. -/
theorem nonMemberTargetsAreFatal : Obligations.NonMemberTargetsAreFatal := by
  refine fun s => ⟨fun c bad => ⟨?_, fun room => ?_, ?_⟩, fun nonempty inside bad => ?_⟩ <;>
    apply takesFatal_of_raise (by decide)
  · rw [exec, execJmpAdr, transfer, validate_bad bad, raise_bind]
  · rw [exec, execJmpSub, checkCallRoom_ok room, ok_bind, validate_bad bad, raise_bind]
  · rw [exec, execErrAdr, validate_bad bad, raise_bind]
  · rw [← csOff_eq] at bad
    rw [exec, execRetSub, topCall_ok nonempty inside, ok_bind, validate_bad bad, raise_bind]

/-! A call and then a return. -/

/-- A return address, at most 5 past a 32-bit `pc`, is stored in 64 bits without wrapping. -/
theorem toInt_wrap64_returnAddress (pc : Reg32) : (wrap64 (pc.toInt + 5)).toInt = pc.toInt + 5 := by
  have lower : -2 ^ 31 ≤ pc.toInt := BitVec.le_toInt pc
  have upper : pc.toInt < 2 ^ 31 := BitVec.toInt_lt
  rw [wrap64, BitVec.toInt_ofInt]
  exact Int.bmod_eq_of_le (by omega) (by omega)

/-- Settles O38: the return reads the entry that the call stored, which lies behind every data slot. -/
theorem returnComesBackAfterTheCall : Obligations.ReturnComesBackAfterTheCall := by
  intro opc s t u c good room member back call ret
  have nonneg : 0 ≤ s.cs.toInt := good.csOk.1
  obtain ⟨_, calls, entry, sameData, countedDepth, -, callSteps, callFrame⟩ :=
    callPushesTheReturnAddress s c nonneg room member
  cases call.symm.trans calls
  have pages : t.pages = s.pages := by rw [callFrame]
  have table : InJT t = InJT s := by rw [callFrame]
  have depth : t.cs.toInt = s.cs.toInt + 1 := by
    rw [countedDepth, toInt_depth_add_one good.csOk room (stackCaps_lt good.pagesOk).1]
  have top : (t.data.word (t.pages.dataSize + t.pages.csSize - 8 * t.cs.toInt : Int).toNat).toInt =
      s.pc.toInt + 5 := by
    rw [pages, depth, entry, toInt_wrap64_returnAddress]
  obtain ⟨_, returns, target, droppedDepth, returnSteps, returnFrame⟩ :=
    returnPopsTheReturnAddress t (by omega) (by rw [pages]; omega) (by rw [top, table]; exact back)
  cases ret.symm.trans returns
  refine ⟨by rw [target, top], ?_, by rw [returnFrame, callFrame], ?_, fun a ok => ?_⟩
  · rw [droppedDepth, countedDepth, BitVec.add_sub_cancel]
  · rw [returnSteps, callSteps, BitVec.add_assoc]
    rfl
  · have behindSlots := (csOff_inside (s := s) (k := s.cs.toInt + 1) (by omega) (by omega)).1
    rw [csOff_eq] at behindSlots
    obtain ⟨nonnegSlot, -, slotEnd⟩ := ok
    calc u.slot a = t.slot a := by rw [returnFrame]; rfl
      _ = s.slot a := sameData.slot_eq (.inl (by omega))

end Sys2Proof.Machine
end

section
/-! The system instructions that finish or stop a run and those that set a control register (44_system.md R192 to
R199). -/

namespace Sys2Proof.Machine

/-! The test for a zero slot (R194, R196). -/

section
variable {s : State} {a1 : SlotAddr}

/-- An instruction that ends in one state on a zero slot and in another on any other slot. -/
theorem commit_testZero (onZero otherwise : State) (ok : FieldOk s a1) :
    commit s (readDirect s a1 >>= fun x => .ok (if isZero x then onZero else otherwise)) =
      .next (countStep (if s.fieldSlot a1 = 0 then onZero else otherwise)) := by
  rw [readDirect, readSlot_ok ok, ok_bind, commit_ok]
  simp only [isZero, beq_iff_eq]

theorem exec_fizDat_zero (ok : FieldOk s a1) (zero : s.fieldSlot a1 = 0) :
    exec (.fizDat a1) s = .next (countStep (terminate s)) := by
  rw [exec, execFizDat, commit_testZero _ _ ok, if_pos zero]

theorem exec_fizDat_nonzero (ok : FieldOk s a1) (nonzero : s.fieldSlot a1 ≠ 0) :
    exec (.fizDat a1) s = commit s (.ok (advance 5 s)) := by
  rw [exec, execFizDat, commit_testZero _ _ ok, if_neg nonzero, commit_ok]

theorem exec_stzDat_zero (ok : FieldOk s a1) (zero : s.fieldSlot a1 = 0) :
    exec (.stzDat a1) s = .next (countStep (pause 5 s)) := by
  rw [exec, execStzDat, commit_testZero _ _ ok, if_pos zero]

theorem exec_stzDat_nonzero (ok : FieldOk s a1) (nonzero : s.fieldSlot a1 ≠ 0) :
    exec (.stzDat a1) s = commit s (.ok (advance 5 s)) := by
  rw [exec, execStzDat, commit_testZero _ _ ok, if_neg nonzero, commit_ok]

end

/-- A handler that is a member passes the validator and is installed (R198). -/
theorem exec_errAdr {s : State} {c : CodeAddr} (member : InJT s c.toInt) :
    exec (.errAdr c) s = .next (countStep (advance 5 (installHandler c s))) := by
  rw [exec, execErrAdr, validate_ok member, ok_bind, commit_ok]

/-! The statements. -/

/-- Settles O43: FIN_IMD terminates, and FIZ_DAT terminates or advances by its zero test. -/
theorem finishGoesToThePrologueAddress : Obligations.FinishGoesToThePrologueAddress := by
  refine fun s => ⟨⟨countStep (terminate s), rfl, rfl, rfl, rfl, rfl⟩,
    fun a1 ok => ⟨fun zero => ?_, fun nonzero => ?_⟩⟩
  · exact ⟨_, exec_fizDat_zero ok zero, rfl, rfl, rfl, rfl⟩
  · rw [exec_fizDat_nonzero ok nonzero]
    exact commit_advance s 5

/-- Settles O44: STP_IMD pauses, and STZ_DAT pauses or advances by its zero test. -/
theorem stopAdvancesAndSetsStopped : Obligations.StopAdvancesAndSetsStopped := by
  refine fun s => ⟨⟨countStep (pause 1 s), rfl, ⟨rfl, rfl⟩, rfl, rfl⟩,
    fun a1 ok => ⟨fun zero => ?_, fun nonzero => ?_⟩⟩
  · exact ⟨_, exec_stzDat_zero ok zero, ⟨rfl, rfl⟩, rfl, rfl⟩
  · rw [exec_stzDat_nonzero ok nonzero]
    exact commit_advance s 5

/-- Settles O45: each writes its control register and advances, ERR_ADR after the validator has passed its
target. -/
theorem controlRegisterInstructions : Obligations.ControlRegisterInstructions := by
  refine fun s => ⟨fun c member => ?_, ?_⟩
  · exact ⟨_, exec_errAdr member, rfl, ⟨rfl, rfl⟩, rfl⟩
  · exact ⟨countStep (advance 1 (markPrologue s)), rfl, rfl, ⟨rfl, rfl⟩, rfl⟩

end Sys2Proof.Machine
end

section
/-! The external-function instructions and the default host (45_external.md R210 to R232). -/

namespace Sys2Proof.Machine

/-! How a completed call of the host ends, whatever the host (R211, R223 to R228). -/

/-- An instruction that has called the host and goes on. -/
theorem commit_callAdvance (h : HostFn) (c : HostCall) (len : Nat) (s : State) :
    ∃ t, commit s (.ok (advance len (callHost h c s).2)) = .next t ∧ CalledHost s t (hostAnswer h c s).2 len :=
  ⟨countStep (advance len (setHostView (hostAnswer h c s).2 s)), rfl, rfl, rfl, rfl, ⟨rfl, rfl⟩, rfl⟩

/-- An instruction that calls the host, stores its result and goes on. -/
theorem commit_storeResultAdvance (h : HostFn) (c : HostCall) {a1 : SlotAddr} (len : Nat) {s : State}
    (ok : FieldOk s a1) :
    ∃ t, commit s (storeResult h c a1 s >>= fun u => .ok (advance len u)) = .next t ∧
      CalledHostInto s t (hostAnswer h c s) a1.toInt len := by
  rcases storeResult_cases h c a1 s with ⟨-, e⟩ | ⟨bad, -⟩
  · rw [e, ok_bind, commit_ok]
    exact ⟨_, rfl, storeWord_slot_same _ _ _, storeWord_outside (setHostView (hostAnswer h c s).2 s) _ _,
      rfl, rfl, rfl, ⟨rfl, rfl⟩, rfl⟩
  · exact absurd ok bad

section
variable (h : HostFn) (f : FnNum) {a1 a2 a3 : SlotAddr} {s : State}

theorem execWith_extFunDat (ok1 : FieldOk s a1) :
    ∃ t, execWith h (.extFunDat f a1) s = .next t ∧
      CalledHost s t (hostAnswer h (.host1 f (s.fieldSlot a1)) s).2 7 := by
  rw [execWith, extFunDat, readDirect, readSlot_ok ok1, ok_bind]
  exact commit_callAdvance h _ 7 s

theorem execWith_extFunDat2 (ok1 : FieldOk s a1) (ok2 : FieldOk s a2) :
    ∃ t, execWith h (.extFunDat2 f a1 a2) s = .next t ∧
      CalledHost s t (hostAnswer h (.host2 f (s.fieldSlot a1) (s.fieldSlot a2)) s).2 11 := by
  rw [execWith, extFunDat2, readDirect, readDirect, readSlot_ok ok1, ok_bind, readSlot_ok ok2, ok_bind]
  exact commit_callAdvance h _ 11 s

theorem execWith_extFunRetDat (ok1 : FieldOk s a1) (ok2 : FieldOk s a2) :
    ∃ t, execWith h (.extFunRetDat f a1 a2) s = .next t ∧
      CalledHostInto s t (hostAnswer h (.host1 f (s.fieldSlot a2)) s) a1.toInt 11 := by
  rw [execWith, extFunRetDat, readDirect, readSlot_ok ok2, ok_bind]
  exact commit_storeResultAdvance h _ 11 ok1

theorem execWith_extFunRetDat2 (ok1 : FieldOk s a1) (ok2 : FieldOk s a2) (ok3 : FieldOk s a3) :
    ∃ t, execWith h (.extFunRetDat2 f a1 a2 a3) s = .next t ∧
      CalledHostInto s t (hostAnswer h (.host2 f (s.fieldSlot a2) (s.fieldSlot a3)) s) a1.toInt 15 := by
  rw [execWith, extFunRetDat2, readDirect, readDirect, readSlot_ok ok2, ok_bind, readSlot_ok ok3, ok_bind]
  exact commit_storeResultAdvance h _ 15 ok1

end

/-- Settles O47: after its reads each of the six is one of the two ends of a host call, and a bad slot field
is O20. -/
theorem anyHostIsConfined : Obligations.AnyHostIsConfined := fun h s f =>
  ⟨commit_callAdvance h (.host0 f) 3 s,
    fun _ ok1 => ⟨execWith_extFunDat h f ok1, commit_storeResultAdvance h (.host0 f) 7 ok1,
      fun _ ok2 => ⟨execWith_extFunDat2 h f ok1 ok2, execWith_extFunRetDat h f ok1 ok2,
        fun _ ok3 => execWith_extFunRetDat2 h f ok1 ok2 ok3⟩⟩,
    fun i _ bad => badSlotFieldTakesOverflow h i s bad⟩

/-- Settles O46: O47 at the default host, with which `execWith` is `exec`. -/
theorem externalInstructionsCallTheHost : Obligations.ExternalInstructionsCallTheHost := by
  intro s f
  obtain ⟨noField, fields, -⟩ := anyHostIsConfined defaultHost s f
  simp only [execWith_default] at noField fields
  exact ⟨noField, fields⟩

/-! The register functions (R214 to R222). -/

theorem defaultHost_of_builtin {c : HostCall} {v : HostView} {out : Word × HostView}
    (known : builtin v c = some out) (draw : Word) : defaultHost draw c v = out := by
  rcases defaultHost_cases draw c v with ⟨_, e, answer⟩ | ⟨e, -⟩
  · rw [answer, ← Option.some.injEq, ← e, known]
  · rw [known] at e; cases e

/-- A call that leaves what the host sees leaves all but `pc` and the step count. -/
theorem CalledHost.onlyPcSteps {s t : State} {len : Nat} (called : CalledHost s t s.hostView len) :
    WentOn s t len ∧ OnlyPcSteps s t := by
  obtain ⟨a, b, host, went, frame⟩ := called
  rw [a, b, host] at frame
  exact ⟨went, frame⟩

/-- The same with a destination: the result is stored and nothing else. -/
theorem CalledHostInto.wroteSlot {s t : State} {r : Word} {a : Int} {len : Nat}
    (called : CalledHostInto s t (r, s.hostView) a len) : WroteSlot s t a r len := by
  obtain ⟨value, outside, a, b, host, went, frame⟩ := called
  rw [a, b, host] at frame
  exact ⟨value, outside, went, frame⟩

/-- A function that answers and leaves everything as it was, through EXT_FUN and EXT_FUN_RET. -/
theorem exec_of_readOnly {fn : FnNum} {r : Word} {s : State}
    (reads : ∀ draw, defaultHost draw (.host0 fn) s.hostView = (r, s.hostView)) :
    (∃ t, exec (.extFun fn) s = .next t ∧ WentOn s t 3 ∧ OnlyPcSteps s t) ∧
      ∀ a1, FieldOk s a1 → ∃ t, exec (.extFunRet fn a1) s = .next t ∧ WroteSlot s t a1.toInt r 7 := by
  have answer : hostAnswer defaultHost (.host0 fn) s = (r, s.hostView) := reads _
  refine ⟨?_, fun a1 ok => ?_⟩
  · obtain ⟨t, done, called⟩ := commit_callAdvance defaultHost (.host0 fn) 3 s
    rw [answer] at called
    exact ⟨t, done, called.onlyPcSteps⟩
  · obtain ⟨t, done, called⟩ := commit_storeResultAdvance defaultHost (.host0 fn) 7 ok
    rw [answer] at called
    exact ⟨t, done, called.wroteSlot⟩

/-- Settles O48: each number of the table is a built-in that answers its register and only reads. -/
theorem getFunctionsReturnTheRegister : Obligations.GetFunctionsReturnTheRegister := by
  intro v fn r row
  have known : builtin v (.host0 fn) = some (r, v) := by
    simp only [List.mem_cons, Prod.mk.injEq, List.not_mem_nil, or_false] at row
    rcases row with ⟨rfl, rfl⟩ | ⟨rfl, rfl⟩ | ⟨rfl, rfl⟩ | ⟨rfl, rfl⟩ | ⟨rfl, rfl⟩ | ⟨rfl, rfl⟩ |
      ⟨rfl, rfl⟩ | ⟨rfl, rfl⟩ <;> rfl
  refine ⟨defaultHost_of_builtin known, ?_⟩
  rintro s rfl
  exact exec_of_readOnly (defaultHost_of_builtin known)

/-- Two groups are equal when their four registers are (R220). -/
theorem truth_group_eq (p q : RegGroup) :
    truth (p == q) = if p.r1 = q.r1 ∧ p.r2 = q.r2 ∧ p.r3 = q.r3 ∧ p.r4 = q.r4 then 1 else 0 := by
  cases p
  cases q
  simp only [truth, beq_iff_eq, RegGroup.mk.injEq]

/-- Settles O49: every row is the built-in of its number, and the compare functions test the four registers. -/
theorem registerFunctions : Obligations.RegisterFunctions := by
  intro draw v x y
  simp only [List.mem_cons, Prod.mk.injEq, List.not_mem_nil, or_false]
  refine ⟨fun fn g row => ?_, fun fn g row => ?_, rfl, rfl, rfl, rfl, rfl, rfl, rfl, rfl, rfl, rfl,
    fun g fn row => ?_, ?_, fun fnA fnB op row => ?_⟩
  · rcases row with ⟨rfl, rfl⟩ | ⟨rfl, rfl⟩ | ⟨rfl, rfl⟩ | ⟨rfl, rfl⟩ <;> rfl
  · rcases row with ⟨rfl, rfl⟩ | ⟨rfl, rfl⟩ | ⟨rfl, rfl⟩ | ⟨rfl, rfl⟩ <;> rfl
  · rcases row with ⟨rfl, rfl⟩ | ⟨rfl, rfl⟩ <;> exact congrArg (·, v) (truth_group_eq _ zeroGroup)
  · exact congrArg (·, v) (truth_group_eq v.a v.b)
  · rcases row with ⟨rfl, rfl, rfl⟩ | ⟨rfl, rfl, rfl⟩ | ⟨rfl, rfl, rfl⟩ <;> exact ⟨rfl, rfl⟩

/-! The fixture side (R229 to R232). -/

theorem defaultHost_of_no_builtin {c : HostCall} {v : HostView} (unknown : builtin v c = none) (draw : Word) :
    defaultHost draw c v = ((statedResult c v.ctx).getD draw, { v with ctx := fixtureEffect c v.ctx }) := by
  rcases defaultHost_cases draw c v with ⟨_, e, -⟩ | ⟨-, answer⟩
  · rw [unknown] at e; cases e
  · exact answer

theorem isEcho_iff (c : HostCall) : isEcho c = true ↔ c.arity = 1 ∧ c.fn = 1 := by
  simp only [isEcho, Bool.and_eq_true, beq_iff_eq]

theorem isEcho_eq_false {c : HostCall} (notEcho : ¬(c.arity = 1 ∧ c.fn = 1)) : isEcho c = false :=
  Bool.eq_false_iff.mpr fun echo => notEcho ((isEcho_iff c).mp echo)

/-! The table's lookup (R230). -/

theorem findEntry_none {fix : List FixtureEntry} {key : BitVec 32} (absent : ∀ e ∈ fix, e.fn ≠ key) :
    findEntry fix key = none :=
  List.find?_eq_none.mpr fun e mem => by simpa using absent e mem

theorem findEntry_some {fix : List FixtureEntry} {key : BitVec 32} {e : FixtureEntry}
    (found : findEntry fix key = some e) : e ∈ fix ∧ e.fn = key := by
  have holds := List.find?_some found
  exact ⟨List.mem_of_find?_eq_some found, of_decide_eq_true holds⟩

/-- No number has two entries (10_state.md R31). -/
theorem FixtureOk.eq_of_fn_eq {fix : List FixtureEntry} (ok : FixtureOk fix) {e e' : FixtureEntry}
    (mem : e ∈ fix) (mem' : e' ∈ fix) (same : e.fn = e'.fn) : e = e' := by
  have distinct : (fix.map FixtureEntry.fn).Nodup := by
    refine List.pairwise_map.mpr (ok.ascending.imp fun less equal => ?_)
    rw [equal, BitVec.slt_iff_toInt_lt] at less
    exact lt_irrefl _ less
  exact List.inj_on_of_nodup_map distinct mem mem' same

theorem findEntry_of_mem {fix : List FixtureEntry} (ok : FixtureOk fix) {e : FixtureEntry} (mem : e ∈ fix) :
    findEntry fix e.fn = some e := by
  cases found : findEntry fix e.fn with
  | none => exact absurd (decide_eq_true rfl) (List.find?_eq_none.mp found e mem)
  | some e' =>
    obtain ⟨mem', same⟩ := findEntry_some found
    rw [ok.eq_of_fn_eq mem' mem same]

/-! A call's result (R212, R230). -/

section
variable {c : HostCall} {ctx : HostCtx}

theorem statedResult_of_entry {e : FixtureEntry} (stays : clearsFixture c ctx = false)
    (found : findEntry ctx.fixture (fixtureKey c) = some e) : statedResult c ctx = entryValue e := by
  simp only [statedResult, stays, found, Bool.false_eq_true, if_false]

/-- A number the fixture does not know answers 0 (R212). -/
theorem statedResult_of_unknown (stays : clearsFixture c ctx = false)
    (absent : findEntry ctx.fixture (fixtureKey c) = none) (notEcho : isEcho c = false)
    (notIncr : fixtureKey c ≠ ctx.incrFn) : statedResult c ctx = some 0 := by
  simp [statedResult, stays, absent, knownToFixture, notEcho, notIncr]

/-! A call's effect (R231, R232). -/

theorem clearsFixture_of_not_echo (notEcho : isEcho c = false) :
    clearsFixture c ctx = (!ctx.fixture.isEmpty && Config.isBalanceQueryVariant c.arity c.fn ctx.incrFn) := by
  rw [clearsFixture, notEcho, Bool.false_or]
  cases ctx.fixture.isEmpty <;> rfl

theorem fixtureEffect_of_clears (clears : clearsFixture c ctx = true) : (fixtureEffect c ctx).fixture = [] := by
  simp only [fixtureEffect, clears, if_true]

theorem fixtureEffect_of_other (stays : clearsFixture c ctx = false) (notIncr : fixtureKey c ≠ ctx.incrFn) :
    fixtureEffect c ctx = ctx := by
  simp [fixtureEffect, stays, notIncr]

theorem fixtureEffect_of_incr (stays : clearsFixture c ctx = false) (notEcho : isEcho c = false)
    (incr : fixtureKey c = ctx.incrFn) : fixtureEffect c ctx = increment (fixtureKey c) ctx := by
  simp [fixtureEffect, stays, notEcho, incr]

end

/-- What a later call of the increment function with this key does to an entry (R231). -/
def moveUnless (key : BitVec 32) (e : FixtureEntry) : FixtureEntry := if e.fn = key then e else advanceCursor e

theorem increment_first {key : BitVec 32} {ctx : HostCtx} (first : ctx.firstCall = true) :
    increment key ctx = { ctx with firstCall := false } := if_pos first

theorem increment_later {key : BitVec 32} {ctx : HostCtx} (later : ctx.firstCall = false) :
    increment key ctx = { ctx with fixture := ctx.fixture.map (moveUnless key) } :=
  if_neg (Bool.eq_false_iff.mp later)

theorem moveUnless_same {key : BitVec 32} {e : FixtureEntry} (same : e.fn = key) : moveUnless key e = e :=
  if_pos same

theorem moveUnless_other {key : BitVec 32} {e : FixtureEntry} (other : e.fn ≠ key) :
    moveUnless key e = advanceCursor e := if_neg other

theorem advanceCursor_eq (e : FixtureEntry) : advanceCursor e = { e with cursor := (advanceCursor e).cursor } := by
  obtain ⟨fn, loop, values⟩ := advanceCursor_keeps e
  rw [← fn, ← loop, ← values]

theorem moveUnless_eq (key : BitVec 32) (e : FixtureEntry) :
    moveUnless key e = { e with cursor := (moveUnless key e).cursor } := by
  by_cases same : e.fn = key
  · rw [moveUnless_same same]
  · rw [moveUnless_other same]
    exact advanceCursor_eq e

theorem advanceCursor_below {e : FixtureEntry} (short : e.values.length < 2 ^ 64)
    (below : e.cursor.toNat + 1 < e.values.length) : (advanceCursor e).cursor.toNat = e.cursor.toNat + 1 := by
  rw [advanceCursor, if_pos below]
  exact BitVec.toNat_add_of_lt (show e.cursor.toNat + 1 < 2 ^ 64 by omega)

/-- On the last value the cursor loops or stays (R231). -/
theorem advanceCursor_last {e : FixtureEntry} (last : e.cursor.toNat + 1 = e.values.length) :
    (advanceCursor e).cursor = if e.loop then 0 else e.cursor := by
  rw [advanceCursor, if_neg (by omega)]
  cases e.loop <;> rfl

/-! The statements. -/

/-- Settles O50: nothing the fixture knows is asked for, and echo has no effect. -/
theorem unknownFunctionReturnsZero : Obligations.UnknownFunctionReturnsZero := by
  refine ⟨fun draw c v unknown absent notEcho notIncr stays => ?_, fun draw x v => ?_⟩
  · have notEcho := isEcho_eq_false notEcho
    rw [defaultHost_of_no_builtin unknown, fixtureEffect_of_other stays notIncr,
      statedResult_of_unknown stays (findEntry_none absent) notEcho notIncr]
    rfl
  · have unknown : builtin v (.host1 1 x) = none := rfl
    rw [defaultHost_of_no_builtin unknown, fixtureEffect_echo v.ctx rfl]

/-- Settles O51: lookup, increment and clearing each by what it does to the table of a state in order. -/
theorem fixtureLookupAndAdvance : Obligations.FixtureLookupAndAdvance := by
  intro draw c v key unknown notEcho ok
  have notEcho := isEcho_eq_false notEcho
  rw [← clearsFixture_of_not_echo notEcho, defaultHost_of_no_builtin unknown]
  refine ⟨rfl, rfl, ?_⟩
  cases clears : clearsFixture c v.ctx with
  | true => exact fixtureEffect_of_clears clears
  | false =>
    refine ⟨fun e mem same inside => ?_, fun notIncr => ?_, fun incr first => ?_, fun incr later => ?_⟩
    · have found : findEntry v.ctx.fixture key = some e := same ▸ findEntry_of_mem ok mem
      rw [statedResult_of_entry clears found, entryValue, List.getElem?_eq_getElem inside, Option.getD_some]
    · rw [fixtureEffect_of_other clears notIncr]
    · rw [fixtureEffect_of_incr clears notEcho incr, increment_first first]
    · refine ⟨v.ctx.fixture.map (moveUnless key), ?_, List.length_map _, fun n x y at_n moved => ?_⟩
      · rw [fixtureEffect_of_incr clears notEcho incr, increment_later later]
        rfl
      · have short : x.values.length < 2 ^ 64 := ok.lengths x (List.mem_of_getElem? at_n)
        rw [List.getElem?_map, at_n, Option.map_some, Option.some.injEq] at moved
        subst moved
        refine ⟨moveUnless_eq key x, fun same => ?_, fun other below => ?_, fun other last => ?_⟩
        · rw [moveUnless_same same]
        · rw [moveUnless_other other, advanceCursor_below short below]
        · rw [moveUnless_other other, advanceCursor_last last]

end Sys2Proof.Machine
end

section
/-! The Jump Table Builder (47_jump_table_builder.md R250 to R257). Every decoded instruction moves the sweep on by at
least a byte and ends inside the segment, so a sweep with a round for every byte left stops only where nothing
decodes. -/

namespace Sys2Proof.Machine

section
variable {opc : Mnemonic → Byte} {v : CodeView} {room p o m len : Nat} {i : Instr}

/-- A decoded instruction has a byte and ends inside the segment (30_encoding.md R73, R76). -/
theorem decodeWith_ok_bounds (ok : decodeWith opc v o = .ok (i, len)) : 1 ≤ len ∧ o + len ≤ v.codeSize := by
  obtain ⟨q, at_q, -, pos, size, -, holds, -⟩ := decodedBytesAreTheEncoding opc v o i len ok
  obtain rfl : o = q := Int.ofNat_inj.mp at_q
  exact ⟨pos, size ▸ holds.1⟩

theorem DecodesAt.lt_codeSize (decodes : DecodesAt opc v o) : o < v.codeSize := by
  obtain ⟨i, len, ok⟩ := decodes
  have := decodeWith_ok_bounds ok
  omega

/-! Sweeps from any offset, with any room. -/

theorem mem_sweepFrom_succ :
    o ∈ sweepFrom opc v (room + 1) p ↔
      ∃ i len, decodeWith opc v p = .ok (i, len) ∧ (o = p ∨ o ∈ sweepFrom opc v room (p + len)) := by
  cases decoded : decodeWith opc v p with
  | ok r => simp [sweepFrom_ok (i := r.1) (len := r.2) decoded, Prod.ext_iff]
  | error f => simp [sweepFrom_halts decoded]

theorem sweepFrom_eq_nil (halts : ¬DecodesAt opc v p) : sweepFrom opc v room p = [] := by
  refine List.eq_nil_iff_forall_not_mem.mpr fun o mem => ?_
  cases room with
  | zero => cases mem
  | succ room =>
    obtain ⟨i, len, ok, -⟩ := mem_sweepFrom_succ.mp mem
    exact halts ⟨i, len, ok⟩

theorem self_mem_sweepFrom (enough : v.codeSize ≤ p + room) (decodes : DecodesAt opc v p) :
    p ∈ sweepFrom opc v room p := by
  have inside := decodes.lt_codeSize
  obtain ⟨room, rfl⟩ := Nat.exists_eq_add_of_le' (show 1 ≤ room by omega)
  obtain ⟨i, len, ok⟩ := decodes
  exact mem_sweepFrom_succ.mpr ⟨i, len, ok, .inl rfl⟩

/-- With a round for every byte left, the sweep goes on after each offset it records, unless nothing decodes
there (R252). -/
theorem next_mem_sweepFrom (enough : v.codeSize ≤ p + room) (mem : o ∈ sweepFrom opc v room p)
    (ok : decodeWith opc v o = .ok (i, len)) (decodes : DecodesAt opc v (o + len)) :
    o + len ∈ sweepFrom opc v room p := by
  induction room generalizing p with
  | zero => cases mem
  | succ room ih =>
    obtain ⟨j, width, first, here⟩ := mem_sweepFrom_succ.mp mem
    have bounds := decodeWith_ok_bounds first
    refine mem_sweepFrom_succ.mpr ⟨j, width, first, .inr ?_⟩
    rcases here with rfl | later
    · cases first.symm.trans ok
      exact self_mem_sweepFrom (by omega) decodes
    · exact ih (by omega) later

theorem sweepComesTo_of_mem_sweepFrom (comes : SweepComesTo opc v p) (mem : o ∈ sweepFrom opc v room p) :
    SweepComesTo opc v o := by
  induction room generalizing p with
  | zero => cases mem
  | succ room ih =>
    obtain ⟨i, len, ok, rfl | later⟩ := mem_sweepFrom_succ.mp mem
    · exact comes
    · exact ih (comes.onward ok) later

/-- A later member lies behind the whole instruction of an earlier one (R257). -/
theorem end_le_of_mem_sweepFrom (mem : o ∈ sweepFrom opc v room p) (mem' : m ∈ sweepFrom opc v room p)
    (ok : decodeWith opc v o = .ok (i, len)) (lt : o < m) : o + len ≤ m := by
  induction room generalizing p with
  | zero => cases mem
  | succ room ih =>
    have start_le := (mem_sweepFrom mem).1
    obtain ⟨j, width, first, here⟩ := mem_sweepFrom_succ.mp mem
    rw [sweepFrom_ok first] at mem'
    have later' := (List.mem_cons.mp mem').resolve_left (by omega)
    rcases here with rfl | later
    · cases first.symm.trans ok
      exact (mem_sweepFrom later').1
    · exact ih later later'

theorem length_sweepFrom_le (opc : Mnemonic → Byte) (v : CodeView) (room p : Nat) :
    (sweepFrom opc v room p).length ≤ room := by
  induction room generalizing p with
  | zero => exact le_refl _
  | succ room ih =>
    cases decoded : decodeWith opc v p with
    | ok r => rw [sweepFrom_ok (i := r.1) (len := r.2) decoded]; exact Nat.succ_le_succ (ih _)
    | error f => rw [sweepFrom_halts decoded]; exact Nat.zero_le _

/-! The Jump Table. -/

/-- The members are where the sweep comes to and an instruction decodes (R250). -/
theorem mem_jumpTable : o ∈ jumpTable opc v ↔ SweepComesTo opc v o ∧ DecodesAt opc v o := by
  have enough : v.codeSize ≤ 0 + v.codeSize := (Nat.zero_add _).ge
  refine ⟨fun mem => ⟨sweepComesTo_of_mem_sweepFrom .start mem, (mem_sweepFrom mem).2⟩, ?_⟩
  rintro ⟨comes, decodes⟩
  induction comes with
  | start => exact self_mem_sweepFrom enough decodes
  | onward _ ok ih => exact next_mem_sweepFrom enough (ih ⟨_, _, ok⟩) ok decodes

theorem zero_mem_jumpTable : 0 ∈ jumpTable opc v ↔ DecodesAt opc v 0 :=
  mem_jumpTable.trans (and_iff_right .start)

theorem jumpTable_eq_nil : jumpTable opc v = [] ↔ ¬DecodesAt opc v 0 := by
  refine ⟨fun empty decodes => ?_, sweepFrom_eq_nil⟩
  have mem := zero_mem_jumpTable.mpr decodes
  rw [empty] at mem
  cases mem

end

/-! The statements. -/

/-- Settles O52: the validity bit is set and the members are those of `mem_jumpTable`. -/
theorem jumpTableIsTheSweep : Obligations.JumpTableIsTheSweep := by
  refine fun opc s => ⟨rfl, fun x => ⟨?_, ?_⟩⟩
  · rintro ⟨-, o, mem, rfl⟩
    exact ⟨o, rfl, mem_jumpTable.mp mem⟩
  · rintro ⟨o, rfl, recorded⟩
    exact ⟨rfl, o, mem_jumpTable.mpr recorded, rfl⟩

/-- Settles O53: a table is empty or begins at 0, and its members are the sweep's, one after another. -/
theorem jumpTableProperties : Obligations.JumpTableProperties := by
  intro opc v
  refine ⟨fun o mem => ?_, fun nonempty => ?_, jumpTable_eq_nil, fun o mem i len ok => ⟨?_, ?_⟩,
    length_sweepFrom_le opc v v.codeSize 0⟩
  · have decodes := (mem_jumpTable.mp mem).2
    exact ⟨decodes.lt_codeSize, decodes⟩
  · exact zero_mem_jumpTable.mpr (not_not.mp (mt jumpTable_eq_nil.mpr nonempty))
  · rintro m mem' ⟨lt, inside⟩
    exact absurd (end_le_of_mem_sweepFrom mem mem' ok lt) (Nat.not_le.mpr inside)
  · have comes : SweepComesTo opc v (o + len) := (mem_jumpTable.mp mem).1.onward ok
    exact (em (DecodesAt opc v (o + len))).imp (fun decodes => mem_jumpTable.mpr ⟨comes, decodes⟩) id

end Sys2Proof.Machine
end

section
/-! The Run Driver (48_run_driver.md R265 to R274): what one round does to the host context and to the fuel, what
the loop shows when it ends, and that a run is refused only before its first round. -/

namespace Sys2Proof.Machine

/-! The step, and the host context after it (45_external.md R211). -/

/-- A step is refused only for its Jump Table (70_reset_and_hazards.md R347). -/
theorem engineStep_not_refused {P : Params} {s : State} (valid : s.jtValid = true) (r : Refusal) :
    engineStep P s ≠ .refused r := by
  rcases engineStep_cases P s with ⟨invalid, -⟩ | ⟨-, i, len, -, e⟩ | ⟨-, f, -, e⟩
  · exact absurd valid (by simp [invalid])
  · rw [e]; exact execWith_not_refused P.host i s r
  · rw [e]; nofun

/-- A step ends in a next state by the instruction at `pc`, or by taking a fault. -/
theorem engineStep_next {P : Params} {s t : State} (e : engineStep P s = .next t) :
    (∃ i, execWith P.host i s = .next t) ∨ ∃ f, t = takeFault f s := by
  rcases engineStep_cases P s with ⟨-, e'⟩ | ⟨-, i, len, -, e'⟩ | ⟨-, f, -, e'⟩ <;> rw [e'] at e
  · cases e
  · exact .inl ⟨i, e⟩
  · cases e; exact .inr ⟨f, rfl⟩

/-- The host context is as before, or as the host left it after one call. -/
theorem Performs.host {h : HostFn} {m : Mnemonic} {s t : State} (p : Performs h m s t) :
    t.host = s.host ∨ ∃ draw c, t.host = (h draw c s.hostView).2.ctx := by
  obtain ⟨v, w, frame⟩ := p
  obtain ⟨_, _, _, rfl⟩ := frame.exists
  cases w with
  | nothing | prologue | handler | call | ret | push | pop | stop | finish => exact .inl rfl
  | host c calls => exact .inr ⟨_, c, rfl⟩

theorem engineStep_host {P : Params} {s t : State} (e : engineStep P s = .next t) :
    t.host = s.host ∨ ∃ draw c, t.host = (P.host draw c s.hostView).2.ctx := by
  rcases engineStep_next e with ⟨i, e⟩ | ⟨f, rfl⟩
  · rcases execWith_next e with performed | ⟨f, rfl⟩
    · exact performed.host
    · exact .inl (takeFault_host f s)
  · exact .inl (takeFault_host f s)

/-! Fuel (R268, R274). -/

/-- Taking a unit of the fuel that is left does not wrap. -/
theorem takeFuel_toInt {s : State} (fuel : 0 < s.host.fuel.toInt) :
    (takeFuel s).host.fuel.toInt = s.host.fuel.toInt - 1 := by
  have small : s.host.fuel.toInt < 2 ^ 63 := BitVec.toInt_lt
  rw [takeFuel_host, BitVec.toInt_sub]
  exact Int.bmod_eq_of_le (by simp; omega) (by simp; omega)

section
variable {P : Params} {bps : List Int} {n : Nat} {s t : State}

theorem engineStep_fuel_le (noBack : HostPutsNoFuelBack P.host) (e : engineStep P s = .next t) :
    t.host.fuel.toInt ≤ s.host.fuel.toInt := by
  rcases engineStep_host e with same | ⟨draw, c, left⟩
  · rw [same]
  · rw [left]; exact noBack draw c s.hostView

theorem engineStep_fuel_default (isDefault : P.host = defaultHost) (e : engineStep P s = .next t) :
    t.host.fuel = s.host.fuel := by
  rcases engineStep_host e with same | ⟨draw, c, left⟩
  · rw [same]
  · rw [left, isDefault]; exact defaultHost_fuel draw c s.hostView

/-- Every round takes at least its unit, unless the host puts fuel back. -/
theorem TookRounds.fuel_le (noBack : HostPutsNoFuelBack P.host) (took : TookRounds P bps n s t) :
    t.host.fuel.toInt + n ≤ s.host.fuel.toInt := by
  induction took with
  | none s => simp
  | more fuel steps _ _ ih =>
    have unit := takeFuel_toInt fuel
    have step := engineStep_fuel_le noBack steps
    omega

/-- Every round takes its unit and no more with the default host. -/
theorem TookRounds.fuel_default (isDefault : P.host = defaultHost) (took : TookRounds P bps n s t) :
    s.host.fuel.toInt - t.host.fuel.toInt = n := by
  induction took with
  | none s => simp
  | more fuel steps _ _ ih =>
    have unit := takeFuel_toInt fuel
    have step := engineStep_fuel_default isDefault steps
    rw [step, unit] at ih
    omega

end

/-! The flag `finished` (44_system.md R192). -/

theorem takeFault_finished (f : FaultKind) (s : State) : (takeFault f s).finished = s.finished := by
  rcases takeFault_cases f s with ⟨-, -, e⟩ | ⟨-, e⟩ <;> rw [e] <;> rfl

/-- FIZ_DAT terminates, goes on, or takes a fault. -/
theorem exec_fizDat_next {a1 : SlotAddr} {s t : State} (e : exec (.fizDat a1) s = .next t) :
    t = countStep (terminate s) ∨ t = countStep (advance 5 s) ∨ ∃ f, t = takeFault f s := by
  rcases commit_next e with ⟨u, ok, rfl⟩ | ⟨f, -, rfl⟩
  · obtain ⟨x, -, tested⟩ := bind_ok ok
    cases zero : isZero x <;> rw [zero] at tested <;> cases tested
    · exact .inr (.inl rfl)
    · exact .inl rfl
  · exact .inr (.inr ⟨f, rfl⟩)

/-- Only termination sets the flag, and it leaves `pc` at the prologue address. -/
theorem execWith_finishes {h : HostFn} {i : Instr} {s t : State} (e : execWith h i s = .next t)
    (before : s.finished = false) (after : t.finished = true) : t.pc = t.pcs := by
  rcases execWith_next e with performed | ⟨f, rfl⟩
  · obtain ⟨-, -, -, -, -, -, -, -, -, finishes, -⟩ := performed.writesItsRowOnly
    obtain ⟨-, finisher⟩ := finishes (by simp [before, after])
    cases i with
    | finImd => cases e; rfl
    | fizDat a1 =>
      rcases exec_fizDat_next e with rfl | rfl | ⟨f, rfl⟩
      · rfl
      · exact absurd after (by simp [before])
      · exact absurd after (by simp [takeFault_finished, before])
    | _ => simp [Instr.mnemonic] at finisher
  · exact absurd after (by simp [takeFault_finished, before])

theorem engineStep_finishes {P : Params} {s t : State} (e : engineStep P s = .next t)
    (before : s.finished = false) (after : t.finished = true) : t.pc = t.pcs := by
  rcases engineStep_next e with ⟨i, e⟩ | ⟨f, rfl⟩
  · exact execWith_finishes e before after
  · exact absurd after (by simp [takeFault_finished, before])

/-! States in which a run goes on. -/

/-- Neither the latch nor a flag ends the run here (R271). -/
structure Unended (s : State) : Prop where
  noFault : s.fault = none
  notFinished : s.finished = false
  notStopped : s.stopped = false

/-- What the loop keeps from round to round. -/
structure Continues (opc : Mnemonic → Byte) (s : State) : Prop where
  good : s.Inv opc
  valid : s.jtValid = true
  unended : Unended s

/-- The invariant does not look at the flags. -/
theorem begin_inv {opc : Mnemonic → Byte} {s : State} (good : s.Inv opc) :
    ({ s with stopped := false } : State).Inv opc := by
  obtain ⟨pagesOk, codeWf, codeWithin, dataWf, dataWithin, csOk, usOk, jtOk, fixtureOk⟩ := good
  exact ⟨pagesOk, codeWf, codeWithin, dataWf, dataWithin, csOk, usOk, jtOk, fixtureOk⟩

/-- The invariant does not look at the fuel. -/
theorem takeFuel_inv {opc : Mnemonic → Byte} {s : State} (good : s.Inv opc) : (takeFuel s).Inv opc := by
  obtain ⟨pagesOk, codeWf, codeWithin, dataWf, dataWithin, csOk, usOk, jtOk, fixtureOk⟩ := good
  exact ⟨pagesOk, codeWf, codeWithin, dataWf, dataWithin, csOk, usOk, jtOk, fixtureOk⟩

theorem MayRun.continues {opc : Mnemonic → Byte} {s : State} (may : MayRun s) (good : s.Inv opc) :
    Continues opc { s with stopped := false } :=
  let ⟨valid, notFinished, noFault⟩ := may
  ⟨begin_inv good, valid, noFault, notFinished, rfl⟩

/-! The tests after a step (R271, R272). -/

/-- What the last state of a run that took a round or none shows of its outcome. -/
def ShowsOutcome (bps : List Int) (t : State) : RunEnd → Prop
  | .refused | .stuck _ => False
  | .faulted f => t.fault = some f
  | .finished => t.fault = none ∧ t.finished = true ∧ t.pc = t.pcs
  | .stopped => t.fault = none ∧ t.finished = false ∧ t.stopped = true
  | .outOfFuel => Unended t ∧ OutOfFuel t
  | .breakpoint => Unended t ∧ t.pc.toInt ∈ bps
  | .stepLimit | .running => Unended t

/-- A run that did not end in a fault has none latched. -/
theorem ShowsOutcome.noFault {bps : List Int} {t : State} {e : RunEnd} (shows : ShowsOutcome bps t e)
    (notFaulted : ∀ f, e ≠ .faulted f) : t.fault = none := by
  cases e with
  | refused | stuck r => exact shows.elim
  | faulted f => exact absurd rfl (notFaulted f)
  | finished | stopped => exact shows.1
  | outOfFuel | breakpoint => exact shows.1.noFault
  | stepLimit | running => exact Unended.noFault shows

/-- What the tests after a step say is shown by that state, and is not the end of the limit or of the rounds. A step
that finishes is one to the prologue address. -/
theorem endAfterStep_some {bps : List Int} {t : State} {e : RunEnd} (ends : endAfterStep bps t = some e)
    (atPrologue : t.finished = true → t.pc = t.pcs) :
    ShowsOutcome bps t e ∧ e ≠ .stepLimit ∧ e ≠ .running := by
  rcases endAfterStep_cases bps t with ⟨f, fault, is⟩ | ⟨noFault, finished, is⟩ |
    ⟨noFault, notFinished, stopped, is⟩ | ⟨noFault, notFinished, notStopped, empty, is⟩ |
    ⟨noFault, notFinished, notStopped, -, mem, is⟩ | ⟨-, -, -, -, -, is⟩ <;> cases is.symm.trans ends
  · exact ⟨fault, nofun, nofun⟩
  · exact ⟨⟨noFault, finished, atPrologue finished⟩, nofun, nofun⟩
  · exact ⟨⟨noFault, notFinished, stopped⟩, nofun, nofun⟩
  · exact ⟨⟨⟨noFault, notFinished, notStopped⟩, empty⟩, nofun, nofun⟩
  · exact ⟨⟨⟨noFault, notFinished, notStopped⟩, mem⟩, nofun, nofun⟩

theorem endAfterStep_none {bps : List Int} {t : State} (goesOn : endAfterStep bps t = none) :
    Unended t ∧ ¬OutOfFuel t ∧ t.pc.toInt ∉ bps := by
  rcases endAfterStep_cases bps t with ⟨f, -, is⟩ | ⟨-, -, is⟩ | ⟨-, -, -, is⟩ | ⟨-, -, -, -, is⟩ |
    ⟨-, -, -, -, -, is⟩ | ⟨noFault, notFinished, notStopped, fuel, notMem, is⟩ <;> cases is.symm.trans goesOn
  exact ⟨⟨noFault, notFinished, notStopped⟩, fuel, notMem⟩

theorem endAfterStep_ne_refused (bps : List Int) (t : State) : endAfterStep bps t ≠ some .refused := by
  rcases endAfterStep_cases bps t with ⟨f, -, is⟩ | ⟨-, -, is⟩ | ⟨-, -, -, is⟩ | ⟨-, -, -, -, is⟩ |
    ⟨-, -, -, -, -, is⟩ | ⟨-, -, -, -, -, is⟩ <;> rw [is] <;> nofun

/-! The loop. -/

/-- What is known of a loop of at most so many rounds that ended after `n` of them: `tookLimit` and `tookRounds` say
when the limit or the rounds were used up, `idle` why there was no round. -/
structure LoopEnded (P : Params) (bps : List Int) (rounds : Nat) (limit : Option Nat) (s : State)
    (e : RunEnd) (t : State) (n : Nat) : Prop where
  took : TookRounds P bps n s t
  good : t.Inv P.opc
  shows : ShowsOutcome bps t e
  withinLimit : ∀ l, limit = some l → n ≤ l
  tookLimit : e = .stepLimit → limit = some n
  tookRounds : e = .running → n = rounds ∧ ¬OutOfFuel t
  idle : n = 0 → OutOfFuel s ∨ limit = some 0 ∨ rounds = 0

section
variable {P : Params} {bps : List Int} {rounds : Nat} {limit : Option Nat} {s t u : State} {e : RunEnd}

theorem one_le_of_allowed {l : Nat} (allowed : limit ≠ some 0) (is : limit = some l) : 1 ≤ l :=
  Nat.one_le_iff_ne_zero.mpr fun zero => allowed (zero ▸ is)

/-- A loop that goes on into a next round still has a step of its limit, and so has one more behind it. -/
theorem LoopEnded.afterRound {n : Nat} (fuel : ¬OutOfFuel s) (allowed : limit ≠ some 0)
    (steps : engineStep P (takeFuel s) = .next t) (goesOn : endAfterStep bps t = none)
    (rest : LoopEnded P bps rounds (limit.map (· - 1)) t e u n) :
    LoopEnded P bps (rounds + 1) limit s e u (n + 1) := by
  obtain ⟨⟨noFault, notFinished, notStopped⟩, -, notMem⟩ := endAfterStep_none goesOn
  refine ⟨.more (not_le.mp fuel) steps (fun _ => ⟨noFault, notFinished, notStopped, notMem⟩) rest.took,
    rest.good, rest.shows, ?_, fun is => ?_, fun is => ?_, nofun⟩
  · rintro l rfl
    have pos := one_le_of_allowed allowed rfl
    have le := rest.withinLimit (l - 1) rfl
    omega
  · have took := rest.tookLimit is
    cases limit with
    | none => cases took
    | some l =>
      cases took
      exact congrArg some (Nat.sub_add_cancel (one_le_of_allowed allowed rfl)).symm
  · obtain ⟨all, fuel⟩ := rest.tookRounds is
    exact ⟨congrArg (· + 1) all, fuel⟩

/-- The round in which the tests after the step end the loop. -/
theorem loopEnded_lastRound (fuel : ¬OutOfFuel s) (allowed : limit ≠ some 0)
    (steps : engineStep P (takeFuel s) = .next t) (good : t.Inv P.opc) (notFinished : s.finished = false)
    (ends : endAfterStep bps t = some e) : LoopEnded P bps (rounds + 1) limit s e t 1 := by
  obtain ⟨shows, notLimit, notRunning⟩ := endAfterStep_some ends (engineStep_finishes steps notFinished)
  exact ⟨.more (not_le.mp fuel) steps nofun (.none t), good, shows, fun _ => one_le_of_allowed allowed,
    fun is => absurd is notLimit, fun is => absurd is notRunning, nofun⟩

/-- The loop that ends before its first round. -/
theorem loopEnded_atOnce (good : s.Inv P.opc) (shows : ShowsOutcome bps s e)
    (idle : OutOfFuel s ∨ limit = some 0 ∨ rounds = 0) (tookLimit : e = .stepLimit → limit = some 0)
    (tookRounds : e = .running → 0 = rounds ∧ ¬OutOfFuel s) : LoopEnded P bps rounds limit s e s 0 :=
  ⟨.none s, good, shows, fun _ _ => Nat.zero_le _, tookLimit, tookRounds, fun _ => idle⟩

/-- Every loop from a state in which a run goes on ends as its outcome says. -/
theorem driveLoop_ended (keeps : HostKeepsTable P.host) (start : Continues P.opc s)
    (is : driveLoop P bps rounds limit s = (e, u)) : ∃ n, LoopEnded P bps rounds limit s e u n := by
  induction rounds using Nat.strong_induction_on generalizing s limit with
  | _ rounds ih =>
  rcases driveLoop_cases P bps rounds limit s with ⟨empty, ends⟩ | ⟨-, noStep, ends⟩ |
    ⟨fuel, -, noRound, ends⟩ | ⟨fuel, allowed, rounds, rfl, round⟩
  · cases ends.symm.trans is
    exact ⟨0, loopEnded_atOnce start.good ⟨start.unended, empty⟩ (.inl empty) nofun nofun⟩
  · cases ends.symm.trans is
    exact ⟨0, loopEnded_atOnce start.good start.unended (.inr (.inl noStep)) (fun _ => noStep) nofun⟩
  · cases ends.symm.trans is
    exact ⟨0, loopEnded_atOnce start.good start.unended (.inr (.inr noRound)) nofun
      fun _ => ⟨noRound.symm, fuel⟩⟩
  obtain ⟨t, steps⟩ := engineStep_progress (takeFuel_inv start.good) start.valid
  have good : t.Inv P.opc := engineStep_inv keeps (takeFuel_inv start.good) steps
  rcases round with ⟨r, refused, -⟩ | ⟨r, stuck, -⟩ | ⟨t', e', steps', tests, ends⟩ |
    ⟨t', steps', tests, ends⟩
  · cases refused.symm.trans steps
  · cases stuck.symm.trans steps
  · cases steps'.symm.trans steps
    cases ends.symm.trans is
    exact ⟨1, loopEnded_lastRound fuel allowed steps good start.unended.notFinished tests⟩
  · cases steps'.symm.trans steps
    obtain ⟨-, -, -, sameValid⟩ := engineStep_keeps steps
    obtain ⟨n, rest⟩ := ih rounds (Nat.lt_succ_self _)
      ⟨good, sameValid.trans start.valid, (endAfterStep_none tests).1⟩ (ends.symm.trans is)
    exact ⟨n + 1, rest.afterRound fuel allowed steps tests⟩

/-- One round for each unit of fuel is enough, unless the host puts fuel back (R274). -/
theorem LoopEnded.not_running {n : Nat} (ended : LoopEnded P bps rounds limit s e t n)
    (noBack : HostPutsNoFuelBack P.host) (enough : s.host.fuel.toInt.toNat ≤ rounds) : e ≠ .running := by
  intro running
  obtain ⟨rfl, fuelLeft⟩ := ended.tookRounds running
  have balance := ended.took.fuel_le noBack
  exact fuelLeft (show t.host.fuel.toInt ≤ 0 by omega)

/-- With fuel, a step and a round allowed, there is a round (R271). -/
theorem LoopEnded.took_round {n : Nat} (ended : LoopEnded P bps rounds limit s e t n) (fuel : ¬OutOfFuel s)
    (allowed : limit ≠ some 0) (room : 0 < rounds) : 1 ≤ n :=
  Nat.one_le_iff_ne_zero.mpr fun zero =>
    (ended.idle zero).elim fuel fun h => h.elim allowed room.ne'

theorem driveLoop_outOfFuel (empty : OutOfFuel s) : driveLoop P bps rounds limit s = (.outOfFuel, s) := by
  unfold driveLoop
  exact if_pos empty

theorem driveLoop_stepLimit (fuel : ¬OutOfFuel s) (noStep : limit = some 0) :
    driveLoop P bps rounds limit s = (.stepLimit, s) := by
  unfold driveLoop
  rw [if_neg fuel, if_pos noStep]

/-- A loop with fuel and a step left ends after its first round where the tests say so. -/
theorem driveLoop_firstRound (fuel : ¬OutOfFuel s) (allowed : limit ≠ some 0)
    (steps : engineStep P (takeFuel s) = .next t) (ends : endAfterStep bps t = some e) :
    driveLoop P bps (rounds + 1) limit s = (e, t) := by
  simp only [driveLoop, if_neg fuel, if_neg allowed, steps, ends]

/-- No round of a loop is refused, whatever the host does to the Fixture Table. -/
theorem driveLoop_not_refused (valid : s.jtValid = true) : (driveLoop P bps rounds limit s).1 ≠ .refused := by
  induction rounds using Nat.strong_induction_on generalizing s limit with
  | _ rounds ih =>
  rcases driveLoop_cases P bps rounds limit s with ⟨-, ends⟩ | ⟨-, -, ends⟩ | ⟨-, -, -, ends⟩ |
    ⟨-, -, n, rfl, ⟨r, refused, -⟩ | ⟨r, -, ends⟩ | ⟨t, e, -, tests, ends⟩ | ⟨t, steps, -, ends⟩⟩
  · rw [ends]; nofun
  · rw [ends]; nofun
  · rw [ends]; nofun
  · exact absurd refused (engineStep_not_refused (s := takeFuel s) valid r)
  · rw [ends]; nofun
  · rw [ends]
    rintro rfl
    exact endAfterStep_ne_refused bps t tests
  · obtain ⟨-, -, -, sameValid⟩ := engineStep_keeps steps
    rw [ends]
    exact ih n (Nat.lt_succ_self n) (sameValid.trans valid)

end

/-! Runs. -/

section
variable {P : Params} {bps : List Int} {limit : Option Nat} {s : State}

theorem drive_of_mayRun (may : MayRun s) :
    drive P bps limit s = driveLoop P bps s.host.fuel.toInt.toNat limit { s with stopped := false } := if_pos may

theorem drive_of_not_mayRun (mayNot : ¬MayRun s) : drive P bps limit s = (.refused, s) := if_neg mayNot

theorem faultCode_eq_zero : s.faultCode = 0 ↔ s.fault = none := by
  cases noFault : s.fault with
  | none => simp [State.faultCode, noFault]
  | some f => cases f <;> simp [State.faultCode, noFault, faultCode]

/-- A run is refused exactly where it may not start (R266). -/
theorem drive_refused_iff : (drive P bps limit s).1 = .refused ↔ ¬MayRun s := by
  refine ⟨fun refused may => ?_, fun mayNot => by rw [drive_of_not_mayRun mayNot]⟩
  rw [drive_of_mayRun may] at refused
  exact driveLoop_not_refused (s := { s with stopped := false }) may.1 refused

/-- With fuel and a step allowed, a run ends after its first round where the tests say so (R268, R271). -/
theorem drive_firstRound {t : State} {e : RunEnd} (may : MayRun s) (fuel : 0 < s.host.fuel.toInt)
    (allowed : limit ≠ some 0) (steps : engineStep P (takeFuel { s with stopped := false }) = .next t)
    (tests : endAfterStep bps t = some e) : drive P bps limit s = (e, t) := by
  obtain ⟨rounds, succ⟩ := Nat.exists_eq_add_of_lt (show 0 < s.host.fuel.toInt.toNat by omega)
  rw [drive_of_mayRun may, succ, Nat.zero_add]
  exact driveLoop_firstRound (s := { s with stopped := false }) (not_le.mpr fuel) allowed steps tests

end

/-! The statements. -/

/-- Settles O56: the loop from the begun state by induction on its rounds, and the fuel of the rounds it took. -/
theorem runsEndAsTheirOutcomeSays : Obligations.RunsEndAsTheirOutcomeSays := by
  intro P bps limit s t e keeps good is notRefused
  have may : MayRun s := by
    by_contra mayNot
    cases (drive_of_not_mayRun mayNot).symm.trans is
    exact notRefused rfl
  rw [drive_of_mayRun may] at is
  obtain ⟨n, ended⟩ := driveLoop_ended keeps (may.continues good) is
  have shows := ended.shows
  refine ⟨ended.good, fun noBack => ended.not_running noBack (le_refl _), ?_, n, ended.took, ended.withinLimit,
    ended.took.fuel_default, fun fuel allowed => ?_, ?_, ?_, ?_, shows.noFault, ?_, ?_, ?_⟩
  · rintro r rfl
    exact shows
  · exact ended.took_round (not_le.mpr fuel) allowed (show 0 < s.host.fuel.toInt.toNat by omega)
  · rintro rfl
    exact shows
  · rintro rfl
    exact shows
  · rintro f rfl
    exact shows
  · rintro rfl
    obtain ⟨unended, empty⟩ := shows
    exact ⟨empty, unended.notFinished, unended.notStopped⟩
  · rintro rfl
    obtain ⟨unended, mem⟩ := shows
    exact ⟨mem, unended.notFinished, unended.notStopped⟩
  · rintro rfl
    obtain ⟨-, notFinished, notStopped⟩ := shows
    exact ⟨ended.tookLimit rfl, notFinished, notStopped⟩

/-- Settles O55: whether the run may start decides on a refusal, and then the first turn of its loop. -/
theorem runsRefusedOrOutOfFuelAtOnce : Obligations.RunsRefusedOrOutOfFuelAtOnce := by
  intro P bps limit s good begun
  refine ⟨drive_refused_iff.trans ?_, fun refused => ?_, fun valid notFinished noFault => ?_⟩
  · rw [not_and_or, not_and_or, Bool.not_eq_true, Bool.not_eq_false, ne_eq, faultCode_eq_zero]
  · rw [drive_of_not_mayRun (drive_refused_iff.mp refused)]
  have may : MayRun s := ⟨valid, notFinished, faultCode_eq_zero.mp noFault⟩
  refine ⟨fun empty => ?_, fun fuel noStep => ?_, fun fuel allowed => ?_⟩
  · rw [drive_of_mayRun may, driveLoop_outOfFuel (s := begun) empty]
  · rw [drive_of_mayRun may, driveLoop_stepLimit (s := begun) (not_le.mpr fuel) noStep]
  obtain ⟨t, steps⟩ := engineStep_progress (takeFuel_inv (begin_inv good)) valid
  have endsBy {e : RunEnd} (tests : endAfterStep bps t = some e) : drive P bps limit s = (e, t) :=
    drive_firstRound may fuel allowed steps tests
  refine ⟨t, steps, fun f fault => endsBy ?_, fun fault finished => endsBy ?_,
    fun fault finished stopped => endsBy ?_, fun fault finished stopped empty => endsBy ?_,
    fun fault finished stopped left mem => endsBy ?_⟩
  · simp [endAfterStep, fault]
  · simp [endAfterStep, fault, finished]
  · simp [endAfterStep, fault, finished, stopped]
  · simp [endAfterStep, fault, finished, stopped, empty]
  · simp [endAfterStep, fault, finished, stopped, left, mem]

end Sys2Proof.Machine
end

section
/-! A step as the execution of what is decoded at `pc` and the faults it may take (60_exceptions.md R315 to R318),
its refusal while the Jump Table is not valid (70_reset_and_hazards.md R347), and what `init` and `reset` set
(R340 to R342). -/

namespace Sys2Proof.Machine

/-! The step. -/

/-- Settles O7: a step over bytes that decode executes them, and a host is asked only by the six callers. -/
theorem stepRunsTheDecodedInstruction : Obligations.StepRunsTheDecodedInstruction := by
  refine ⟨fun P s i len valid decoded => ?_, fun s i len valid decoded => ?_, step_eq⟩
  · have executes := engineStep_of_decode_ok valid decoded
    exact ⟨executes, fun other => executes.trans (execWith_other P.host s other)⟩
  · rw [step_eq, engineStep_of_decode_ok (P := defaultParams) valid decoded]
    exact execWith_default i s

/-- Settles O8: the decoder's fault is raised, and it is absorbed only where it is OVERFLOW. -/
theorem stepTakesTheDecodeFault : Obligations.StepTakesTheDecodeFault := by
  intro P s f valid failed
  have raised := engineStep_of_decode_error valid failed
  refine ⟨?_, fun fatal => takesFatal_of_raise fatal raised⟩
  rintro rfl
  exact takesOverflow_of_raise raised

/-- A step is refused while the Jump Table is not valid (70_reset_and_hazards.md R347). -/
theorem engineStep_of_invalid {s : State} (P : Params) (invalid : s.jtValid = false) :
    engineStep P s = .refused .jumpTableInvalid := by
  rw [engineStep, invalid]
  rfl

/-- Settles O9: a step looks at the validity bit first, and so does every run. -/
theorem refusedWhileTheJumpTableIsInvalid : Obligations.RefusedWhileTheJumpTableIsInvalid := by
  intro P s invalid
  have mayNot : ¬MayRun s := by
    rintro ⟨valid, -⟩
    cases invalid.symm.trans valid
  exact ⟨engineStep_of_invalid P invalid, engineStep_of_invalid defaultParams invalid, fun _ _ =>
    ⟨drive_of_not_mayRun mayNot, drive_of_not_mayRun mayNot, drive_of_not_mayRun mayNot⟩⟩

/-! Faults. -/

/-- Settles O18: what an instruction commits is a state with the step count and the latch kept, or a fault that is
taken from the state it began in. -/
theorem completesOrFaultsWhole : Obligations.CompletesOrFaultsWhole := by
  intro h i s t next
  obtain ⟨r, commits, keeps⟩ := execWith_commits h i s
  rw [commits] at next
  rcases commit_next next with ⟨u, completed, rfl⟩ | ⟨f, -, rfl⟩
  · have kept := keeps u completed
    exact .inl ⟨congrArg (· + 1) kept.steps, kept.fault⟩
  · rcases takeFault_cases f s with ⟨-, handler, taken⟩ | ⟨fatal, taken⟩
    · exact .inr (.inl ⟨handler, taken⟩)
    · exact .inr (.inr ⟨f, fatal, taken⟩)

/-! Init and reset. -/

theorem initState_inBounds {p : Pages} (bounds : p.InBounds) : initState p = some (blankState p) := if_pos bounds

theorem initState_outOfBounds {p : Pages} (outside : ¬p.InBounds) : initState p = none := if_neg outside

/-- Settles O16: `init` makes the blank state of its page counts, whose `reset` is the reset state. -/
theorem initializationValues : Obligations.InitializationValues := by
  refine ⟨fun p bounds => ⟨blankState p, initState_inBounds bounds, ?_⟩, fun p => initState_outOfBounds, ?_⟩
  · have zeros (k : Nat) : (blankState p).code.read k = 0 ∧ (blankState p).data.read k = 0 := ⟨rfl, rfl⟩
    exact ⟨rfl, rfl, rfl, rfl, rfl, rfl, rfl, rfl, rfl, rfl, rfl, rfl, zeros, rfl, rfl, rfl, rfl, rfl, rfl, rfl, rfl⟩
  · rw [reset_eq_resetOp]
    exact congrArg _ (initState_inBounds resetPages_inBounds)

/-- Cursors moved back to 0 stay there (70_reset_and_hazards.md R341). -/
theorem resetHost_resetHost (h : HostCtx) : resetHost (resetHost h) = resetHost h := by
  simp [resetHost]

/-- A second `reset` finds `pc` at `pcs`, everything it clears clear, and the code it sweeps as it was
(70_reset_and_hazards.md R342). -/
theorem resetOp_resetOp (opc : Mnemonic → Byte) (s : State) : resetOp opc (resetOp opc s) = resetOp opc s := by
  have host : resetHost (resetOp opc s).host = (resetOp opc s).host := resetHost_resetHost s.host
  rw [resetOp, host]
  rfl

/-- Settles O17: `reset` writes the fields one by one, and writes them the same again. -/
theorem resetSetsAndKeeps : Obligations.ResetSetsAndKeeps := by
  intro opc s t
  have zeros (k : Nat) : t.data.read k = 0 := rfl
  exact ⟨rfl, rfl, rfl, rfl, rfl, rfl, rfl, rfl, rfl, rfl, rfl, zeros, rfl, rfl, rfl, rfl, rfl, rfl, rfl, rfl, rfl,
    rfl, resetOp_resetOp opc s⟩

end Sys2Proof.Machine
end

section
/-! The Snapshot Codec (49_snapshot_codec.md R285 to R297). For every reader one inversion: what it accepts is
what the writer of the field writes, followed by the rest of the stream. `load` after `save` is the laws of
Laws/Engine.lean put together; `save` after `load` and the goodness of what is loaded are the inversions put
together. -/

namespace Sys2Proof.Machine

/-! How long the fields are (R286, R287). -/

@[simp] theorem length_put64 (x : BitVec 64) : (put64 x).length = 8 := length_bytesLE 8 _

@[simp] theorem length_put32 (x : BitVec 32) : (put32 x).length = 4 := length_bytesLE 4 _

@[simp] theorem length_putFlag (b : Bool) : (putFlag b).length = 1 := by cases b <;> rfl

@[simp] theorem length_putHost (h : HostCtx) : (putHost h).length = 29 := by simp [putHost]

@[simp] theorem length_putRegisters (s : State) : (putRegisters s).length = 88 := by
  simp [putRegisters, putGroup]

@[simp] theorem length_putSegments (p : Pages) (code data : Memory) :
    (putSegments p code data).length = 16 + p.codeSize + p.segSize := by
  simp only [putSegments, List.length_append, length_bytesLE, length_readBytes]
  omega

@[simp] theorem length_putFixtureEntry (e : FixtureEntry) :
    (putFixtureEntry e).length = 21 + 8 * e.values.length := by
  simp only [putFixtureEntry, List.length_append, List.length_flatMap, length_put32, length_putFlag, length_put64,
    length_bytesLE, List.map_const', List.sum_replicate, smul_eq_mul]
  omega

/-! Fixed-width fields that were read (R291). -/

/-- A reader followed by another answers a value only if both did. -/
theorem reader_bind {α β : Type} {r : Option (α × List Byte)} {f : α × List Byte → Option β} {y : β}
    (h : (r >>= f) = some y) : ∃ x rest, r = some (x, rest) ∧ f (x, rest) = some y := by
  obtain ⟨⟨x, rest⟩, hr, hf⟩ := Option.bind_eq_some_iff.mp h
  exact ⟨x, rest, hr, hf⟩

theorem takeBytes_some {n : Nat} {bs xs rest : List Byte} (h : takeBytes n bs = some (xs, rest)) :
    bs = xs ++ rest ∧ xs.length = n := by
  induction n generalizing bs xs with
  | zero => cases h; exact ⟨rfl, rfl⟩
  | succ n ih =>
    cases bs with
    | nil => cases h
    | cons b bs =>
      unfold takeBytes at h
      split at h
      · next ys _ read =>
        cases h
        obtain ⟨rfl, rfl⟩ := ih read
        exact ⟨rfl, rfl⟩
      · cases h

theorem leValue_lt (xs : List Byte) : leValue xs < 256 ^ xs.length := by
  induction xs with
  | nil => exact Nat.one_pos
  | cons x xs ih =>
    have bound := x.isLt
    rw [leValue, List.length_cons, Nat.pow_succ']
    omega

/-- The bytes of a number that was assembled from bytes are those bytes (20_memory.md R43). -/
theorem bytesLE_leValue (xs : List Byte) : bytesLE xs.length (leValue xs) = xs := by
  induction xs with
  | nil => rfl
  | cons x xs ih =>
    have bound := x.isLt
    have low : BitVec.ofNat 8 (x.toNat + 256 * leValue xs) = x := by
      apply BitVec.eq_of_toNat_eq
      rw [BitVec.toNat_ofNat]
      omega
    rw [leValue, List.length_cons, bytesLE, low, show (x.toNat + 256 * leValue xs) / 256 = leValue xs by omega, ih]

theorem takeLE_some {n x : Nat} {bs rest : List Byte} (h : takeLE n bs = some (x, rest)) :
    bs = bytesLE n x ++ rest ∧ x < 256 ^ n := by
  obtain ⟨xs, _, read, h⟩ := reader_bind h
  cases h
  obtain ⟨rfl, rfl⟩ := takeBytes_some read
  exact ⟨by rw [bytesLE_leValue], leValue_lt xs⟩

theorem take64_some {x : BitVec 64} {bs rest : List Byte} (h : take64 bs = some (x, rest)) :
    bs = put64 x ++ rest := by
  obtain ⟨v, _, read, h⟩ := reader_bind h
  cases h
  obtain ⟨rfl, bound⟩ := takeLE_some read
  rw [put64, BitVec.toNat_ofNat, Nat.mod_eq_of_lt (by omega)]

theorem take32_some {x : BitVec 32} {bs rest : List Byte} (h : take32 bs = some (x, rest)) :
    bs = put32 x ++ rest := by
  obtain ⟨v, _, read, h⟩ := reader_bind h
  cases h
  obtain ⟨rfl, bound⟩ := takeLE_some read
  rw [put32, BitVec.toNat_ofNat, Nat.mod_eq_of_lt (by omega)]

/-- A flag byte is some byte; `save` writes it again where it is 0 or 1 (R291, R296). -/
theorem takeFlag_some {b : Bool} {bs rest : List Byte} (h : takeFlag bs = some (b, rest)) :
    ∃ c : Byte, bs = c :: rest ∧ (c ≤ 1 → putFlag b = [c]) := by
  obtain ⟨x, _, read, h⟩ := reader_bind h
  cases h
  obtain ⟨rfl, bound⟩ := takeLE_some read
  refine ⟨BitVec.ofNat 8 x, rfl, fun le => ?_⟩
  have le : x ≤ 1 := by simpa [BitVec.le_def, Nat.mod_eq_of_lt (show x < 256 from bound)] using le
  interval_cases x <;> rfl

theorem takePages_some {bound x : Nat} {bs rest : List Byte} (h : takePages bound bs = some (x, rest)) :
    bs = bytesLE 4 x ++ rest ∧ x ≤ bound := by
  obtain ⟨v, _, read, h⟩ := reader_bind h
  dsimp only at h
  split at h
  · next le => cases h; exact ⟨(takeLE_some read).1, le⟩
  · cases h

theorem takeGroup_some {g : RegGroup} {bs rest : List Byte} (h : takeGroup bs = some (g, rest)) :
    bs = putGroup g ++ rest := by
  obtain ⟨r1, _, read1, h⟩ := reader_bind h
  obtain ⟨r2, _, read2, h⟩ := reader_bind h
  obtain ⟨r3, _, read3, h⟩ := reader_bind h
  obtain ⟨r4, _, read4, h⟩ := reader_bind h
  cases h
  simp only [take64_some read1, take64_some read2, take64_some read3, take64_some read4, putGroup,
    List.append_assoc]

theorem takeValues_some {n : Nat} {xs : List Word} {bs rest : List Byte}
    (h : takeValues n bs = some (xs, rest)) : bs = xs.flatMap put64 ++ rest ∧ xs.length = n := by
  induction n generalizing bs xs with
  | zero => cases h; exact ⟨rfl, rfl⟩
  | succ n ih =>
    obtain ⟨y, _, read, h⟩ := reader_bind h
    obtain ⟨ys, _, reads, h⟩ := reader_bind h
    cases h
    obtain ⟨rfl, rfl⟩ := ih reads
    rw [take64_some read, List.flatMap_cons, List.append_assoc]
    exact ⟨rfl, rfl⟩

/-! The host context, the registers and the segments that were read. -/

/-- Fields 1 to 5 of a stream whose flag byte is 0 or 1 are the fields `save` writes. -/
theorem takeHost_plain {h₀ h : HostCtx} {bs rest : List Byte} (read : takeHost h₀ bs = some (h, rest))
    (plain : bs.getD 24 0 ≤ 1) : bs = putHost h ++ rest := by
  obtain ⟨scratch1, _, read1, read⟩ := reader_bind read
  obtain ⟨scratch2, _, read2, read⟩ := reader_bind read
  obtain ⟨fuel, _, read3, read⟩ := reader_bind read
  obtain ⟨firstCall, _, read4, read⟩ := reader_bind read
  obtain ⟨incrFn, _, read5, read⟩ := reader_bind read
  cases read
  obtain ⟨c, flagByte, flag⟩ := takeFlag_some read4
  rw [take64_some read1, take64_some read2, take64_some read3, flagByte] at plain ⊢
  have flag := flag (by simpa [List.getElem?_append_right] using plain)
  simp [putHost, flag, take32_some read5]

theorem takeRegisters_some {s₀ t : State} {bs rest : List Byte} (h : takeRegisters s₀ bs = some (t, rest)) :
    bs = putRegisters t ++ rest := by
  obtain ⟨pc, _, read1, h⟩ := reader_bind h
  obtain ⟨cs, _, read2, h⟩ := reader_bind h
  obtain ⟨us, _, read3, h⟩ := reader_bind h
  obtain ⟨pce, _, read4, h⟩ := reader_bind h
  obtain ⟨pcs, _, read5, h⟩ := reader_bind h
  obtain ⟨steps, _, read6, h⟩ := reader_bind h
  obtain ⟨a, _, readA, h⟩ := reader_bind h
  obtain ⟨b, _, readB, h⟩ := reader_bind h
  cases h
  simp only [take32_some read1, take32_some read2, take32_some read3, take32_some read4, take32_some read5,
    take32_some read6, takeGroup_some readA, takeGroup_some readB, putRegisters, List.append_assoc]

/-- The contents of a segment of `size` bytes, in canonical form. -/
structure Fills (m : Memory) (size : Nat) : Prop where
  wf : m.wf = true
  within : m.within size = true

/-- A zero segment filled with as many bytes as it has. -/
theorem fills_writeBytes (xs : List Byte) : Fills (zeroMemory.writeBytes 0 xs) xs.length where
  wf := wf_writeBytes 0 xs wf_zeroMemory
  within := within_writeBytes 0 xs (Nat.zero_add _).le (within_zeroMemory _)

/-- Fields 20 to 25: the page counts are within their bounds and both segments are canonical (R292). -/
theorem takeSegments_some {p : Pages} {code data : Memory} {bs rest : List Byte}
    (h : takeSegments bs = some ((p, code, data), rest)) :
    bs = putSegments p code data ++ rest ∧ p.InBounds ∧ Fills code p.codeSize ∧ Fills data p.segSize := by
  obtain ⟨cp, _, read1, h⟩ := reader_bind h
  obtain ⟨codeBytes, _, readCode, h⟩ := reader_bind h
  obtain ⟨dp, _, read2, h⟩ := reader_bind h
  obtain ⟨kp, _, read3, h⟩ := reader_bind h
  obtain ⟨up, _, read4, h⟩ := reader_bind h
  obtain ⟨dataBytes, _, readData, h⟩ := reader_bind h
  cases h
  obtain ⟨rfl, le1⟩ := takePages_some read1
  obtain ⟨rfl, codeLen⟩ := takeBytes_some readCode
  obtain ⟨rfl, le2⟩ := takePages_some read2
  obtain ⟨rfl, le3⟩ := takePages_some read3
  obtain ⟨rfl, le4⟩ := takePages_some read4
  obtain ⟨rfl, dataLen⟩ := takeBytes_some readData
  refine ⟨?_, ⟨le1, le2, le3, le4⟩, ?_, ?_⟩
  · have codeBack := readBytes_writeBytes zeroMemory 0 codeBytes
    have dataBack := readBytes_writeBytes zeroMemory 0 dataBytes
    rw [codeLen] at codeBack
    rw [dataLen] at dataBack
    simp only [putSegments, Pages.codeSize, codeBack, dataBack, List.append_assoc]
  · rw [Pages.codeSize, ← codeLen]; exact fills_writeBytes codeBytes
  · rw [← dataLen]; exact fills_writeBytes dataBytes

/-! The Fixture Table that was read. -/

/-- An entry may stand in a good table (10_state.md R31). -/
structure EntryOk (e : FixtureEntry) : Prop where
  cursor : CursorOk e
  short : e.values.length < 2 ^ 64

/-- An accepted entry may stand in a good table, and `save` writes it again where its flag byte, the fifth, is
0 or 1 (R292, R296). -/
theorem takeFixtureEntry_some {e : FixtureEntry} {bs rest : List Byte}
    (h : takeFixtureEntry bs = some (e, rest)) :
    EntryOk e ∧ (bs.getD 4 0 ≤ 1 → bs = putFixtureEntry e ++ rest) := by
  obtain ⟨fn, _, read1, h⟩ := reader_bind h
  obtain ⟨loop, _, read2, h⟩ := reader_bind h
  obtain ⟨cursor, _, read3, h⟩ := reader_bind h
  obtain ⟨count, _, read4, h⟩ := reader_bind h
  obtain ⟨values, _, read5, h⟩ := reader_bind h
  dsimp only at h
  split at h
  · next inside =>
    cases h
    obtain ⟨c, flagByte, flag⟩ := takeFlag_some read2
    obtain ⟨countBytes, bound⟩ := takeLE_some read4
    obtain ⟨valueBytes, rfl⟩ := takeValues_some read5
    refine ⟨⟨inside, bound⟩, fun plain => ?_⟩
    rw [take32_some read1, flagByte] at plain ⊢
    have flag := flag (by simpa [List.getElem?_append_right] using plain)
    simp [putFixtureEntry, flag, take64_some read3, countBytes, valueBytes]
  · cases h

/-- The order in which a good table holds its entries (10_state.md R31). -/
abbrev Ascending (fix : List FixtureEntry) : Prop := fix.Pairwise fun x y => x.fn.slt y.fn = true

/-- An entry below the first of a table becomes the first (R289). -/
theorem insertEntry_first {e : FixtureEntry} {es : List FixtureEntry}
    (below : ∀ x ∈ es.head?, e.fn.slt x.fn = true) : insertEntry e es = some (e :: es) := by
  cases es with
  | nil => rfl
  | cons x xs => exact if_pos (below x rfl)

/-- A table with an entry put in place holds that entry and those it held. -/
theorem insertEntry_perm {e : FixtureEntry} {es fs : List FixtureEntry} (h : insertEntry e es = some fs) :
    fs.Perm (e :: es) := by
  induction es generalizing fs with
  | nil => cases h; exact .refl _
  | cons x xs ih =>
    unfold insertEntry at h
    split at h
    · cases h; exact .refl _
    · split at h
      · cases h
      · split at h
        · next ys put => cases h; exact ((ih put).cons x).trans (.swap e x xs)
        · cases h

theorem slt_trans {x y z : BitVec 32} (xy : x.slt y = true) (yz : y.slt z = true) : x.slt z = true := by
  rw [BitVec.slt_iff_toInt_lt] at *
  exact xy.trans yz

/-- An entry put in place keeps the ascending order: it goes before the first larger number (R289). -/
theorem insertEntry_ascending {e : FixtureEntry} {es fs : List FixtureEntry} (h : insertEntry e es = some fs)
    (asc : Ascending es) : Ascending fs := by
  induction es generalizing fs with
  | nil => cases h; exact List.pairwise_singleton _ e
  | cons x xs ih =>
    obtain ⟨first, ascRest⟩ := List.pairwise_cons.mp asc
    unfold insertEntry at h
    split at h
    · next below =>
      cases h
      refine List.pairwise_cons.mpr ⟨fun y mem => ?_, asc⟩
      rcases List.mem_cons.mp mem with rfl | mem
      · exact below
      · exact slt_trans below (first y mem)
    · next notBelow =>
      split at h
      · cases h
      · next other =>
        split at h
        · next ys put =>
          cases h
          have above : x.fn.slt e.fn = true := by
            rw [BitVec.slt_iff_toInt_lt] at notBelow ⊢
            exact lt_of_le_of_ne (not_lt.mp notBelow) fun eq => other (BitVec.eq_of_toInt_eq eq.symm)
          refine List.pairwise_cons.mpr ⟨fun y mem => ?_, ih put ascRest⟩
          rcases List.mem_cons.mp ((insertEntry_perm put).mem_iff.mp mem) with rfl | mem
          · exact above
          · exact first y mem
        · cases h

/-- As many entries as were asked for, in ascending order, each one that may stand in a good table (R292). -/
theorem takeEntries_ok {n : Nat} {es : List FixtureEntry} {bs rest : List Byte}
    (h : takeEntries n bs = some (es, rest)) :
    es.length = n ∧ Ascending es ∧ ∀ e ∈ es, EntryOk e := by
  induction n generalizing bs es with
  | zero => cases h; exact ⟨rfl, .nil, by simp⟩
  | succ n ih =>
    obtain ⟨e, _, read, h⟩ := reader_bind h
    obtain ⟨es', _, reads, h⟩ := reader_bind h
    obtain ⟨table, put, h⟩ := Option.bind_eq_some_iff.mp h
    cases h
    obtain ⟨length, asc, ok⟩ := ih reads
    have perm := insertEntry_perm put
    refine ⟨by rw [perm.length_eq, List.length_cons, length], insertEntry_ascending put asc, fun x mem => ?_⟩
    rcases List.mem_cons.mp (perm.mem_iff.mp mem) with rfl | mem
    · exact (takeFixtureEntry_some read).1
    · exact ok x mem

/-- Entries written as `save` writes them, with ascending numbers above `last`, are written again as they
were: each goes before all that follow it (R289, R296). -/
theorem takeEntries_plain {last : Option (BitVec 32)} {n : Nat} {es : List FixtureEntry} {bs rest : List Byte}
    (plain : plainEntries last n bs = true) (h : takeEntries n bs = some (es, rest)) :
    bs = es.flatMap putFixtureEntry ++ rest ∧ ∀ k ∈ last, ∀ e ∈ es.head?, k.slt e.fn = true := by
  induction n generalizing last bs es with
  | zero => cases h; exact ⟨rfl, by simp⟩
  | succ n ih =>
    obtain ⟨e, bs', read, h⟩ := reader_bind h
    obtain ⟨es', _, reads, h⟩ := reader_bind h
    obtain ⟨table, put, h⟩ := Option.bind_eq_some_iff.mp h
    cases h
    simp only [plainEntries, read, Bool.and_eq_true, decide_eq_true_eq] at plain
    obtain ⟨⟨flag, above⟩, plainRest⟩ := plain
    obtain ⟨rest_eq, below⟩ := ih plainRest reads
    rw [insertEntry_first (below e.fn rfl)] at put
    cases put
    refine ⟨?_, ?_⟩
    · rw [(takeFixtureEntry_some read).2 flag, rest_eq, List.flatMap_cons, List.append_assoc]
    · rintro k rfl _ ⟨rfl⟩
      exact above

/-- An accepted table is a good one (R292). -/
theorem takeFixture_ok {fix : List FixtureEntry} {bs rest : List Byte} (h : takeFixture bs = some (fix, rest)) :
    FixtureOk fix := by
  obtain ⟨n, _, read, h⟩ := reader_bind h
  obtain ⟨rfl, asc, ok⟩ := takeEntries_ok h
  exact ⟨asc, fun e mem => (ok e mem).cursor, fun e mem => (ok e mem).short, (takeLE_some read).2⟩

/-- The fields of an accepted table whose entries are written as `save` writes them. -/
theorem takeFixture_plain {fix : List FixtureEntry} {bs rest : List Byte}
    (h : takeFixture bs = some (fix, rest)) (plain : plainEntries none fix.length (bs.drop 8) = true) :
    bs = putFixture fix ++ rest := by
  obtain ⟨n, bs', read, h⟩ := reader_bind h
  obtain ⟨rfl, -⟩ := takeEntries_ok h
  have count := (takeLE_some read).1
  rw [count, List.drop_left' (length_bytesLE 8 _)] at plain
  have entries := (takeEntries_plain plain h).1
  rw [count, entries, putFixture, List.append_assoc]

/-! `load`, taken apart. -/

/-- What `load` makes of the fields of a stream: the registers of `regs`, the rest as read, the status cleared
and the Jump Table rebuilt (R293, R295). -/
def assemble (opc : Mnemonic → Byte) (regs : State) (p : Pages) (code data : Memory) (h : HostCtx)
    (fix : List FixtureEntry) : State :=
  rebuildJumpTable opc
    { regs with pages := p, code := code, data := data, host := { h with fixture := fix }
                stopped := false, finished := false, fault := none }

/-- `t` is what `load` makes of this stream: the four parts of the stream as their readers answer them, one
after another to its end, and the depths inside their regions (R286, R292). -/
inductive Loads (opc : Mnemonic → Byte) (stream : List Byte) (s₀ : State) : State → Prop where
  | parts {h : HostCtx} {regs : State} {p : Pages} {code data : Memory} {fix : List FixtureEntry}
      {afterHost afterRegs afterSegs : List Byte}
      (readHost : takeHost s₀.host stream = some (h, afterHost))
      (readRegs : takeRegisters s₀ afterHost = some (regs, afterRegs))
      (readSegs : takeSegments afterRegs = some ((p, code, data), afterSegs))
      (readFixture : takeFixture afterSegs = some (fix, []))
      (csOk : DepthOk regs.cs p.csCap) (usOk : DepthOk regs.us p.usCap) :
      Loads opc stream s₀ (assemble opc regs p code data h fix)

theorem load_some {opc : Mnemonic → Byte} {stream : List Byte} {s₀ t : State}
    (accepted : load opc stream s₀ = some t) : Loads opc stream s₀ t := by
  obtain ⟨h, _, readHost, accepted⟩ := reader_bind accepted
  obtain ⟨regs, _, readRegs, accepted⟩ := reader_bind accepted
  obtain ⟨⟨p, code, data⟩, _, readSegs, accepted⟩ := reader_bind accepted
  obtain ⟨fix, _, readFixture, accepted⟩ := reader_bind accepted
  dsimp only at accepted
  split at accepted
  · next ends =>
    obtain ⟨rfl, csOk, usOk⟩ := ends
    cases accepted
    exact .parts readHost readRegs readSegs readFixture csOk usOk
  · cases accepted

/-- A snapshot of a good state loads, whatever machine it is loaded on, to that state with its status cleared and
its Jump Table rebuilt (R294, R295). -/
theorem load_save {opc : Mnemonic → Byte} {s : State} (good : s.Inv opc) (opc' : Mnemonic → Byte) (s₀ : State) :
    load opc' (save s) s₀ = some
      { s with stopped := false, finished := false, fault := none
               jt := jumpTable opc' s.codeView, jtValid := true } := by
  have segments := takeSegments_put good.pagesOk good.codeWf good.codeWithin good.dataWf good.dataWithin
    (putFixture s.host.fixture)
  have fixture := takeFixture_put good.fixtureOk []
  rw [List.append_nil] at fixture
  simp only [load, save, List.append_assoc, takeHost_put, takeRegisters_put, segments, fixture,
    Option.bind_eq_bind, Option.bind_some]
  exact if_pos ⟨trivial, good.csOk, good.usOk⟩

/-- A stream that `load` accepts and that is written as `save` writes is what `save` writes of the state it
loads to (R296). -/
theorem Loads.save_eq {opc : Mnemonic → Byte} {b : List Byte} {s₀ t : State} (loads : Loads opc b s₀ t)
    (plain : PlainStream b t.pages t.host.fixture.length) : save t = b := by
  cases loads with
  | @parts h regs p code data fix _ _ afterSegs readHost readRegs readSegs readFixture csOk usOk =>
  obtain ⟨flag, plainFix⟩ := plain
  have host := takeHost_plain readHost flag
  have registers := takeRegisters_some readRegs
  obtain ⟨segments, -⟩ := takeSegments_some readSegs
  have front : (putHost h ++ putRegisters regs ++ putSegments p code data).length =
      133 + p.codeSize + p.segSize := by
    simp only [List.length_append, length_putHost, length_putRegisters, length_putSegments]
    omega
  have whole : b = putHost h ++ putRegisters regs ++ putSegments p code data ++ afterSegs := by
    rw [host, registers, segments, List.append_assoc, List.append_assoc]
  have behind : b.drop (141 + p.codeSize + p.segSize) = afterSegs.drop 8 := by
    rw [whole, show 141 + p.codeSize + p.segSize = 133 + p.codeSize + p.segSize + 8 by omega, ← front,
      List.drop_length_add_append]
  have fixture := takeFixture_plain readFixture (behind ▸ plainFix)
  rw [List.append_nil] at fixture
  rw [whole, fixture]
  rfl

/-- What `load` makes is good, whatever the stream and the machine it is loaded on (R292). -/
theorem Loads.inv {opc : Mnemonic → Byte} {stream : List Byte} {s₀ t : State} (loads : Loads opc stream s₀ t) :
    t.Inv opc := by
  obtain ⟨-, -, readSegs, readFixture, csOk, usOk⟩ := loads
  obtain ⟨-, bounds, code, data⟩ := takeSegments_some readSegs
  exact
    { pagesOk := bounds
      codeWf := code.wf
      codeWithin := code.within
      dataWf := data.wf
      dataWithin := data.within
      csOk := csOk
      usOk := usOk
      jtOk := fun _ => rfl
      fixtureOk := takeFixture_ok readFixture }

/-! The statements. -/

/-- Settles O57: the lengths of the fields, added up. -/
theorem snapshotLength : Obligations.SnapshotLength := by
  intro s
  have fixture : (putFixture s.host.fixture).length =
      8 + (s.host.fixture.map fun e => 21 + 8 * e.values.length).sum := by
    simp [putFixture, List.length_flatMap]
  simp only [save, List.length_append, length_putHost, length_putRegisters, length_putSegments, fixture,
    Pages.codeSize, Pages.segSize, Pages.dataSize, Pages.csSize, Pages.usSize, Config.slotPageBytes,
    Config.stackPageBytes]
  omega

/-- Settles O58: the readers undo the writers, and on a plain stream the writers undo the readers. -/
theorem loadOfSaveIsTheState : Obligations.LoadOfSaveIsTheState :=
  ⟨fun _ opc' _ s₀ good => load_save good opc' s₀,
    fun _ _ _ _ accepted plain => (load_some accepted).save_eq plain⟩

/-- Settles O59: the checks of the readers are the invariant, and the status is cleared whatever was read. -/
theorem loadAcceptsOnlyGoodStates : Obligations.LoadAcceptsOnlyGoodStates := by
  intro opc stream s₀ t accepted
  have loads := load_some accepted
  refine ⟨loads.inv, ?_⟩
  cases loads
  exact ⟨rfl, rfl, rfl, rfl⟩

/-- A good state that may go on differs from its reload in `stopped` at most (R295). -/
theorem load_save_of_mayRun {opc : Mnemonic → Byte} {s : State} (good : s.Inv opc) (may : MayRun s) (s₀ : State) :
    load opc (save s) s₀ = some { s with stopped := false } := by
  obtain ⟨valid, notFinished, noFault⟩ := may
  simp [load_save good opc s₀, ← good.jtOk valid, valid, notFinished, noFault]

/-- A run clears `stopped` before it reads it (48_run_driver.md R271). -/
theorem driveFor_stopped (P : Params) (bps : List Int) (rounds : Nat) (limit : Option Nat) {s : State}
    (may : MayRun s) (stopped : Bool) :
    driveFor P bps rounds limit { s with stopped := stopped } = driveFor P bps rounds limit s := by
  rw [driveFor, driveFor, if_pos may, if_pos may]

/-- Settles O60: the reload clears `stopped`, and so does the continuation. -/
theorem resumptionAfterReloadIsExact : Obligations.ResumptionAfterReloadIsExact := by
  intro P bps s s₀ good valid notFinished noFault
  have may : MayRun s := ⟨valid, notFinished, noFault⟩
  refine ⟨_, load_save_of_mayRun good may s₀, driveFor_stopped P bps _ none may false, fun fuel => ?_,
    fun rounds limit fuel => ?_, fun notStopped => ?_⟩
  · exact driveFor_stopped P bps _ none (s := setFuel fuel s) may false
  · exact driveFor_stopped P bps rounds limit (s := setFuel fuel s) may false
  · rw [← notStopped]

end Sys2Proof.Machine
end
